-- ==== Sys2Proof/Word.lean ====
section
/-! DEFINITION. The machine word and the byte (00_scope.md R7). -/

namespace Sys2Proof

/-- The machine word: registers, program slots, addresses and the program counter are 64 bits wide (R7).
Its arithmetic is unsigned and modulo 2^64 (R11), which is `BitVec`'s. -/
abbrev Word := BitVec 64

/-- The smallest addressable unit of the data address space (R60). -/
abbrev Byte := BitVec 8

end Sys2Proof
end

