-- ==== Sys2Proof/Machine/Flags.lean ====
section
/-! DEFINITION. The zero-flag's computation, the only flag of the core (10_state.md R36). -/

namespace Sys2Proof.Machine

/-- CMP's zero-flag: 1 iff (destination value - source value) mod 2^64 is 0 (R256). -/
def zeroFlag (destination source : Word) : Bool := decide (destination - source = 0)

end Sys2Proof.Machine
end

