-- ==== Sys2Proof/Config.lean ====
section
/-! DEFINITION. The implementation parameters of 00_scope.md R8: the parameters a build fixes, what the spec asks of them,
and their value in this hardware. Every definition takes them as an argument, through the state's field `params`
(notes/assumptions/13). `OBF_MASK`, `EXT_ADMIT`, the program and the host are fields of `State` of their own
(notes/assumptions/2, 3, 4, 5); only `OBF_MASK`'s default value stands here. -/

namespace Sys2Proof

/-- The parameters of R8 that a build of the core fixes: the register count (93_implementation_defined.md I16), the
stack's capacity, the address map and the program's capacity (I17). -/
structure Params where
  /-- `NREG`: the number of registers, accumulator and stack pointer included. -/
  nreg : Nat
  /-- `STACK_SIZE`: the stack buffer's capacity in bytes. -/
  stackSize : Nat
  /-- `REG_BASE`: data address of register 0. -/
  regBase : Nat
  /-- `STACK_BASE`: data address of stack byte 0. -/
  stackBase : Nat
  /-- `PROG_BASE`: data address of program slot 0. -/
  progBase : Nat
  /-- `PROG_MAX_SLOTS`: the largest program length in slots. -/
  progMaxSlots : Nat
  /-- `EXT_BASE`: first address of the external region. -/
  extBase : Nat
  deriving DecidableEq, Repr

/-- `SP` (R8): the stack pointer's index. -/
@[simp] abbrev Params.sp (p : Params) : Nat := p.nreg - 1

/-- `NARGS` (R8): the number of CALL arguments. -/
@[simp] abbrev Params.nargs (p : Params) : Nat := p.nreg - 2

/-- `STACK_END` (R8): one past the stack's last byte. -/
@[simp] abbrev Params.stackEnd (p : Params) : Nat := p.stackBase + p.stackSize

/-- What R8 asks of the parameters: `NREG` is 6, 7 or 8, and the regions lie apart, in this order, none of them at
address 0. DEDUCED: `EXT_BASE` is a 64-bit data address (R60, R61; notes/assumptions/13). -/
abbrev Params.Legal (p : Params) : Prop :=
  (6 ≤ p.nreg ∧ p.nreg ≤ 8) ∧ 0 < p.regBase ∧ p.regBase + 8 * p.nreg ≤ p.stackBase ∧ p.stackEnd ≤ p.progBase ∧
    p.progBase + 8 * p.progMaxSlots ≤ p.extBase ∧ p.extBase < 2 ^ 64

namespace Config

/-- The parameters of this hardware (R8). -/
def params : Params where
  nreg := 8
  stackSize := 4096
  regBase := 0x1000
  stackBase := 0x10000
  progBase := 0x100000
  progMaxSlots := 65536
  extBase := 0x100000000

/-- `ACC` (R8): the accumulator's index, in every build. -/
@[simp] abbrev acc : Nat := 0

/-- The size of the data address space (R60). -/
@[simp] abbrev addressSpace : Nat := 0x10000000000000000

/-- `OBF_MASK`'s default value (R8): 0, which drops the mask (R101). -/
@[simp] abbrev obfMask : Word := 0#64

/-- What a byte of stack or external memory that the state does not list reads as.
DESIGN CHOICE, unsafe (notes/assumptions/1): the spec leaves these bytes to the launch (R40, R43). -/
@[simp] abbrev unlistedByte : Byte := 0#8

end Config

end Sys2Proof
end

