-- ==== Sys2Proof/Syntax.lean ====
section
/-! DEFINITION. The instructions: one constructor per row of spec/opcode_table.json, each with the fields of the
opcode word (30_encoding.md R104). A literal is no part of the instruction: it is data in the next program slot,
read through its data address (R102, R172; notes/assumptions/12). -/

namespace Sys2Proof

/-- Dereference mode (30_encoding.md R108). -/
inductive DerefMode where
  | none
  | source
  | destination
  | both
  deriving DecidableEq, Repr

/-- `DM[0]`: the source address is replaced by the pointer stored there (R108, R176). -/
def DerefMode.derefsSource : DerefMode → Bool
  | .none => false
  | .source => true
  | .destination => false
  | .both => true

/-- `DM[1]`: the destination address is replaced by the pointer stored there (R108, R176). -/
def DerefMode.derefsDestination : DerefMode → Bool
  | .none => false
  | .source => false
  | .destination => true
  | .both => true

/-- The fields of a legal opcode word beside the opcode (R104). -/
structure Fields where
  /-- `RS` (R106): source register index, 0..15. -/
  rs : BitVec 4
  /-- `RD` (R107): destination register index, 0..15. -/
  rd : BitVec 4
  /-- `DM` (R108). -/
  dm : DerefMode
  /-- `I` (R109): the source operand is the literal in the next slot, and the instruction has two slots. -/
  imm : Bool
  /-- `SZ` (R110): operand size in bytes. -/
  size : Nat
  deriving DecidableEq, Repr

/-- The 13 defined operations (R130), in the order of the opcode map. -/
inductive Opcode where
  | mov | push | pop | add | sub | and | xor | lea | cmp | jmp | jne | call | ret
  deriving DecidableEq, Repr

/-- An instruction: a row of the opcode table with its fields. -/
inductive Instr where
  /-- MOV (R200). -/
  | mov (f : Fields)
  /-- PUSH (R210). -/
  | push (f : Fields)
  /-- POP (R220). -/
  | pop (f : Fields)
  /-- ADD (R242). -/
  | add (f : Fields)
  /-- SUB (R246). -/
  | sub (f : Fields)
  /-- AND (R250). -/
  | and (f : Fields)
  /-- XOR (R253). -/
  | xor (f : Fields)
  /-- LEA (R230). -/
  | lea (f : Fields)
  /-- CMP (R256). -/
  | cmp (f : Fields)
  /-- JMP (R270). -/
  | jmp (f : Fields)
  /-- JNE (R275). -/
  | jne (f : Fields)
  /-- CALL (R280). -/
  | call (f : Fields)
  /-- RET (R285). -/
  | ret (f : Fields)
  deriving DecidableEq, Repr

/-- The fields of an instruction. -/
def Instr.fields : Instr → Fields
  | .mov f => f
  | .push f => f
  | .pop f => f
  | .add f => f
  | .sub f => f
  | .and f => f
  | .xor f => f
  | .lea f => f
  | .cmp f => f
  | .jmp f => f
  | .jne f => f
  | .call f => f
  | .ret f => f

/-- The operation of an instruction. -/
def Instr.opcode : Instr → Opcode
  | .mov _ => .mov
  | .push _ => .push
  | .pop _ => .pop
  | .add _ => .add
  | .sub _ => .sub
  | .and _ => .and
  | .xor _ => .xor
  | .lea _ => .lea
  | .cmp _ => .cmp
  | .jmp _ => .jmp
  | .jne _ => .jne
  | .call _ => .call
  | .ret _ => .ret

/-- The instruction with a given operation and fields. -/
def Instr.make : Opcode → Fields → Instr
  | .mov, f => .mov f
  | .push, f => .push f
  | .pop, f => .pop f
  | .add, f => .add f
  | .sub, f => .sub f
  | .and, f => .and f
  | .xor, f => .xor f
  | .lea, f => .lea f
  | .cmp, f => .cmp f
  | .jmp, f => .jmp f
  | .jne, f => .jne f
  | .call, f => .call f
  | .ret, f => .ret f

end Sys2Proof
end

