-- ==== Sys2Proof/Machine/State.lean ====
section
/-! DEFINITION. The state of the ivm core (10_state.md R47) as plain data, the reasons a step can stop, and the state
after reset (R46). Beside the spec's state it carries the parameters of the build and of the launch (R47: `NREG`, the
address map, mask, program, `EXT_ADMIT`, host), which no step writes but for the host's answers a CALL takes. -/

namespace Sys2Proof.Machine

/-- Bytes of the stack buffer and of external memory, keyed by data address, in one canonical form: addresses strictly
rising, no entry equal to what an unlisted address reads as. -/
abbrev Memory := List Host.Cell

/-- `run_state` (R37). -/
inductive RunState where
  | running
  | halted
  | faulted
  deriving DecidableEq, Repr

/-- `fault_cause` (R38, R300): the codes 0..8; 9..15 are never raised. -/
inductive FaultCause where
  | none
  | illegalInstruction
  | truncatedImmediate
  | invalidRegister
  | stackOverflow
  | stackUnderflow
  | invalidDereference
  | outOfBoundsJump
  | invalidCall
  deriving DecidableEq, Repr

/-- What `raise F(info)` carries (R300). -/
structure Raised where
  cause : FaultCause
  info : Word
  deriving DecidableEq, Repr

/-- The request of a native call (R318): the routine's identifier and the `NARGS` arguments. -/
structure NativeRequest where
  routine : Word
  args : List Word
  deriving DecidableEq, Repr

/-- The host's answer to a native call (R318). No answer is no `HostAnswer`: see `State.hostAnswers`. -/
inductive HostAnswer where
  /-- `Return(r, ext')`: the 64-bit result, and the bytes of external memory the routine changed. -/
  | ret (result : Word) (changes : List Host.Cell)
  /-- `NoRoutine`: the identifier names no routine; nothing has changed (R320). -/
  | noRoutine
  deriving DecidableEq, Repr

/-- A stretch of external memory that the platform serves with accesses of the listed widths. `EXT_ADMIT(a, n)` holds
iff some window of the platform admits it (notes/assumptions/4). -/
structure ExtWindow where
  base : Nat
  size : Nat
  widths : List Nat
  deriving DecidableEq, Repr

/-- The kind of a data access (R66). -/
inductive AccessKind where
  | read
  | write
  deriving DecidableEq, Repr

/-- The regions of the data address space (R61). -/
inductive RegionKind where
  | registers
  | stack
  | program
  | external
  deriving DecidableEq, Repr

/-- A region of the data address space (R61). -/
structure Region where
  kind : RegionKind
  base : Nat
  size : Nat
  deriving DecidableEq, Repr

/-- The next-control value of an instruction's rule (R180). -/
inductive NextControl where
  /-- Advance normally. -/
  | fall
  /-- `pc <- t`. -/
  | jump (t : Word)
  /-- HALTED, with `pc` unchanged. -/
  | halt
  deriving DecidableEq, Repr

/-- The state of the core, with the parameters of its build and launch. -/
structure State where
  /-- The build's parameters (R8, R47; notes/assumptions/13). No step and no move of the host writes them. -/
  params : Params
  /-- The register file (R30), `NREG` words: `x[0]` is `ACC`, `x[NREG-1]` is `SP` (R31). -/
  x : List Word
  /-- The program counter, a slot index (R34). -/
  pc : Word
  /-- The zero-flag (R36). -/
  zf : Bool
  /-- `run_state` (R37). -/
  runState : RunState
  /-- `fault_cause` (R38). -/
  faultCause : FaultCause
  /-- `fault_pc` (R38). -/
  faultPc : Word
  /-- `fault_info` (R38). -/
  faultInfo : Word
  /-- The pending native call (R39): the request the core presents while a CALL waits (`State.presentRequest`). -/
  pending : Option NativeRequest
  /-- The stack buffer's bytes (R40) and external memory's (R43), by data address. -/
  mem : Memory
  /-- Program memory (R41): the stored words; its length is `PROG_LEN` (R42). -/
  prog : List Word
  /-- `OBF_MASK`, the build's constant (R42, R101). -/
  obfMask : Word
  /-- The platform's `EXT_ADMIT` (R65). -/
  extWindows : List ExtWindow
  /-- The MODEL's field: the host's answers to the native calls still to come, in order; none listed means that the
  host has not answered (notes/assumptions/5). -/
  hostAnswers : List HostAnswer
  /-- The reset input `rst` (R340). -/
  rst : Bool
  deriving DecidableEq, Repr

/-- `PROG_LEN` (R42). -/
abbrev State.progLen (s : State) : Nat := s.prog.length

/-- The state is one of a legal build: parameters as R8 asks, `NREG` registers (R30), a program that fits (R42). -/
abbrev State.Built (s : State) : Prop :=
  s.params.Legal ∧ s.x.length = s.params.nreg ∧ s.progLen ≤ s.params.progMaxSlots

/-- Why the core has no step. A fault of the ISA (R300) is none of these: it is a next state in FAULTED. -/
inductive Fault where
  /-- Raised by `step` in HALTED, which is terminal until reset (R161). Safe: the spec gives no step there. -/
  | halted
  /-- Raised by `step` in FAULTED, which is terminal until reset (R161, R308). Safe: the spec gives no step there. -/
  | faulted
  /-- Raised by `step` while `rst` is asserted (R340). Safe: the spec gives no step there. -/
  | heldInReset
  /-- Raised by CALL while the host has not answered (R160, R318). Safe: the spec gives no step there. -/
  | waitingForHost
  deriving DecidableEq, Repr

/-- Why the model gives no meaning. -/
inductive Refusal where
  /-- Raised by no instruction: every row of the opcode table has its meaning. Safe. -/
  | notModelled (mnemonic : String)
  /-- Raised by CALL when the host's answer changes a byte it must not change (R320, I9: treatment `refuse`). Safe: a
  claim holds only for hosts that keep R320 (notes/assumptions/7). -/
  | hostBreaksDuties
  deriving DecidableEq, Repr

/-- The three outcomes of a step of this machine. -/
abbrev Outcome := Host.Outcome State Fault Refusal

/-- The register file after reset (R46): 0 everywhere, but `SP` at the end of the stack. -/
def resetRegs (p : Params) : List Word :=
  List.replicate p.sp 0 ++ [BitVec.ofNat 64 p.stackEnd]

/-- The machine of a build right after reset (R46), `rst` released (R341). The fields reset does not change hold what a
launch brings; here no program, no platform window and no host answer (notes/assumptions/1, 2, 4, 5, 10). -/
def State.resetOf (p : Params) : State where
  params := p
  x := resetRegs p
  pc := 0
  zf := false
  runState := .running
  faultCause := .none
  faultPc := 0
  faultInfo := 0
  pending := none
  mem := []
  prog := []
  obfMask := Config.obfMask
  extWindows := []
  hostAnswers := []
  rst := false

/-- This hardware right after reset: the build whose parameters have the values of R8. -/
def State.reset : State := State.resetOf Config.params

end Sys2Proof.Machine
end

