-- ==== Sys2Proof/Machine/Ops.lean ====
section
/-! DEFINITION. The named operations over registers and memory (20_memory.md), taking a fault (60_exceptions.md R306),
and commit with the program-counter advance (40_control_unit.md R190, R192). -/

namespace Sys2Proof.Machine

/-! ## Registers (R30) -/

/-- `x[i]` (R30). The file has `NREG` words, and every index is checked before it gets here (R171). -/
def State.reg (s : State) (i : Nat) : Word := s.x.getD i 0#64

/-- `x[i] <- v` (R30). -/
def State.setReg (s : State) (i : Nat) (v : Word) : State :=
  { s with x := s.x.set i v }

/-- `x[SP]` (R31). -/
def State.spReg (s : State) : Word := s.reg s.params.sp

/-- `x[SP] <- v` (R31). -/
def State.setSp (s : State) (v : Word) : State := s.setReg s.params.sp v

/-! ## Bytes of a word (R62, R67) -/

/-- Byte `k` of a word, `v[8k+7:8k]` (R62). -/
def byteOf (v : Word) (k : Nat) : Byte := v.extractLsb' (8 * k) 8

/-- `v` with its byte `k` replaced (R62). -/
def withByte (v : Word) (k : Nat) (b : Byte) : Word :=
  (v &&& ~~~(0xFF#64 <<< (8 * k))) ||| (b.setWidth 64 <<< (8 * k))

/-- The little-endian value of a list of bytes, `sum byte(k) * 256^k` (R67). -/
def leValue : List Byte → Nat
  | [] => 0
  | b :: bs => b.toNat + 256 * leValue bs

/-- The low `n` bytes of a word, least significant first (R73). -/
def leBytes (v : Word) (n : Nat) : List Byte := (List.range n).map (byteOf v)

/-! ## Stack and external bytes -/

/-- The byte listed at an address, or what an unlisted one reads as (notes/assumptions/1). -/
def Memory.read : Memory → Nat → Byte
  | [], _ => Config.unlistedByte
  | (b, v) :: m, a => if a = b then v else Memory.read m a

/-- Put an entry at its place in a rising list, over the entry of the same address if there is one. -/
def Memory.insert : Memory → Nat → Byte → Memory
  | [], a, v => [(a, v)]
  | (b, u) :: m, a, v =>
    if a < b then (a, v) :: (b, u) :: m
    else if a = b then (a, v) :: m
    else (b, u) :: Memory.insert m a v

/-- Write one byte; a byte equal to what an unlisted address reads as is not listed. -/
def Memory.write (m : Memory) (a : Nat) (v : Byte) : Memory :=
  if v = Config.unlistedByte then m.filter (fun c => c.1 ≠ a) else Memory.insert m a v

/-- Write the listed cells, in order. -/
def Memory.writeCells (m : Memory) (cs : List Host.Cell) : Memory :=
  cs.foldl (fun m c => Memory.write m c.1 c.2) m

/-- The canonical form: addresses strictly rising, no entry equal to what an unlisted address reads as. -/
def Memory.wf (m : Memory) : Bool :=
  decide (m.Pairwise (fun c d => c.1 < d.1)) && m.all (fun c => c.2 ≠ Config.unlistedByte)

/-! ## The data address space (R60 to R66) -/

/-- `regaddr(i)` (R62). -/
def State.regAddr (s : State) (i : Nat) : Word := BitVec.ofNat 64 (s.params.regBase + 8 * i)

/-- `slotaddr(j)` (R64). -/
def State.slotAddr (s : State) (j : Word) : Word := BitVec.ofNat 64 s.params.progBase + 8#64 * j

/-- The regions of R61. The program region is as long as the loaded program (R64). -/
def State.regions (s : State) : List Region :=
  [ { kind := .registers, base := s.params.regBase, size := 8 * s.params.nreg },
    { kind := .stack, base := s.params.stackBase, size := s.params.stackSize },
    { kind := .program, base := s.params.progBase, size := 8 * s.progLen },
    { kind := .external, base := s.params.extBase, size := Config.addressSpace - s.params.extBase } ]

/-- The whole range `a .. a+n-1` lies inside the region (R66, 2). -/
def Region.holds (r : Region) (a n : Nat) : Bool :=
  decide (r.base ≤ a) && decide (a + n ≤ r.base + r.size)

/-- The region that holds the range `a .. a+n-1`; none if it is unmapped or crosses a region's end (R61, R68). -/
def State.regionOf (s : State) (a n : Nat) : Option RegionKind :=
  (s.regions.find? (fun r => r.holds a n)).map Region.kind

/-- The window serves an access of `n` bytes at `a`. -/
def ExtWindow.admits (w : ExtWindow) (a n : Nat) : Bool :=
  decide (w.base ≤ a) && decide (a + n ≤ w.base + w.size) && w.widths.contains n

/-- `EXT_ADMIT(a, n)` (R65; notes/assumptions/4). -/
def State.extAdmit (s : State) (a n : Nat) : Bool :=
  s.extWindows.any (fun w => w.admits a n)

/-- An access of this kind is served by the region it lies in (R66, 3 and 4). -/
def State.regionServes (s : State) (r : RegionKind) (a n : Nat) (kind : AccessKind) : Bool :=
  match r with
  | .registers => true
  | .stack => true
  | .program => decide (kind = .read)
  | .external => s.extAdmit a n

/-- Access admission (R66). -/
def State.admitted (s : State) (a : Word) (n : Nat) (kind : AccessKind) : Bool :=
  decide (a.toNat + n ≤ Config.addressSpace) &&
    match s.regionOf a.toNat n with
    | none => false
    | some r => s.regionServes r a.toNat n kind

/-- The data address lies in the register window (R62). -/
def State.inRegisters (s : State) (a : Nat) : Bool :=
  decide (s.params.regBase ≤ a) && decide (a < s.params.regBase + 8 * s.params.nreg)

/-- The register a byte of the window belongs to (R62). -/
def State.regIndex (s : State) (a : Nat) : Nat := (a - s.params.regBase) / 8

/-- The byte's place inside its register (R62). -/
def State.regByte (s : State) (a : Nat) : Nat := (a - s.params.regBase) % 8

/-- The data address lies in the program region (R64). -/
def State.inProgram (s : State) (a : Nat) : Bool :=
  decide (s.params.progBase ≤ a) && decide (a < s.params.progBase + 8 * s.progLen)

/-- `byte(a)`, the byte at a data address (R62, R63, R64, R65). A data read of an opcode word's slot gives the stored
word's bytes (R64). -/
def State.byteAt (s : State) (a : Nat) : Byte :=
  if s.inRegisters a then byteOf (s.reg (s.regIndex a)) (s.regByte a)
  else if s.inProgram a then
    byteOf (s.prog.getD ((a - s.params.progBase) / 8) 0#64) ((a - s.params.progBase) % 8)
  else Memory.read s.mem a

/-- `byte(a) <- v` for an address that may be written (R71): a register's byte, or a byte of the stack or of external
memory. The program region is never written (R66, R81). -/
def State.setByte (s : State) (a : Nat) (v : Byte) : State :=
  if s.inRegisters a then s.setReg (s.regIndex a) (withByte (s.reg (s.regIndex a)) (s.regByte a) v)
  else { s with mem := Memory.write s.mem a v }

/-- Write bytes at consecutive addresses, the first at `a` (R71). -/
def State.setBytes : State → Nat → List Byte → State
  | s, _, [] => s
  | s, a, b :: bs => State.setBytes (s.setByte a b) (a + 1) bs

/-! ## Access primitives (R70 to R73) -/

/-- `ReadBytes(a, n)` (R70). -/
def readBytes (s : State) (a : Word) (n : Nat) : Except Raised (List Byte) :=
  if s.admitted a n .read then .ok ((List.range n).map (fun k => s.byteAt (a.toNat + k)))
  else .error ⟨.invalidDereference, a⟩

/-- `WriteBytes(a, bs)` (R71). -/
def writeBytes (s : State) (a : Word) (bs : List Byte) : Except Raised State :=
  if s.admitted a bs.length .write then .ok (s.setBytes a.toNat bs)
  else .error ⟨.invalidDereference, a⟩

/-- `MemRead(a, n)` (R72). -/
def memRead (s : State) (a : Word) (n : Nat) : Except Raised Word := do
  let bs ← readBytes s a n
  pure (BitVec.ofNat 64 (leValue bs))

/-- `MemWrite(a, n, v)` (R73). -/
def memWrite (s : State) (a : Word) (n : Nat) (v : Word) : Except Raised State :=
  writeBytes s a (leBytes v n)

/-- The copy that MOV, PUSH and POP share: all source bytes are read before any is written (R200, R202). -/
def copyBytes (s : State) (sa da : Word) (n : Nat) : Except Raised State := do
  let bs ← readBytes s sa n
  writeBytes s da bs

/-! ## Taking a fault (R306), commit and advance (R190, R192) -/

/-- Fault entry (R306): everything keeps its value from before the instruction, and the fault record is written.
There is no return from a fault (R308): only reset leaves FAULTED, `State.assertReset`. -/
def State.takeFault (s : State) (r : Raised) : State :=
  { s with runState := .faulted, faultCause := r.cause, faultPc := s.pc, faultInfo := r.info }

/-- The program-counter advance (R192). -/
def advance (f : Fields) (w : State) : NextControl → State
  | .fall => { w with pc := w.pc + (if f.imm then 2#64 else 1#64) }
  | .jump t => { w with pc := t }
  | .halt => { w with runState := .halted }

/-- Commit (R190): the working state becomes the architectural state and the program counter advances; or, where a
`raise` happened, nothing of the working state is kept and the fault is taken. -/
def commit (f : Fields) (s : State) : Except Raised (State × NextControl) → Outcome
  | .ok (w, nc) => .next (advance f w nc)
  | .error r => .next (s.takeFault r)

end Sys2Proof.Machine
end

