-- ==== Sys2Proof/Machine/Operands.lean ====
section
/-! DEFINITION. What every instruction checks and resolves before its own rule (40_control_unit.md R168 to R178): the
truncated immediate, the register indices, the source and destination addresses, one indirection for each. -/

namespace Sys2Proof.Machine

/-- How an opcode forms its source address (R170). -/
inductive SrcUse where
  /-- A register or the literal. -/
  | regOrImm
  /-- The stack top (POP). -/
  | stackTop
  deriving DecidableEq, Repr

/-- How an opcode forms its destination address (R170). -/
inductive DstUse where
  /-- A register. -/
  | reg
  /-- The new stack top (PUSH). -/
  | newTop
  deriving DecidableEq, Repr

/-- What the resolver hands to the opcode's rule: the working state `W`, `sa` and `da` (R172 to R176). -/
structure Resolved where
  w : State
  sa : Word
  da : Word
  deriving DecidableEq, Repr

/-- Truncated immediate (R168). -/
def checkTruncated (f : Fields) (s : State) : Except Raised Unit :=
  if f.imm && decide (s.progLen ≤ s.pc.toNat + 1) then .error ⟨.truncatedImmediate, s.pc⟩ else .ok ()

/-- A register index names a register (R171). -/
def checkIndex (s : State) (i : BitVec 4) : Except Raised Unit :=
  if s.params.nreg ≤ i.toNat then .error ⟨.invalidRegister, i.setWidth 64⟩ else .ok ()

/-- `RD` is checked where the destination is a register (R170, R171). -/
def checkRd (d : DstUse) (f : Fields) (s : State) : Except Raised Unit :=
  match d with
  | .reg => checkIndex s f.rd
  | .newTop => .ok ()

/-- `RS` is checked where the source is a register, that is when I = 0 (R170, R171). -/
def checkRs (u : SrcUse) (f : Fields) (s : State) : Except Raised Unit :=
  match u with
  | .regOrImm => if f.imm then .ok () else checkIndex s f.rs
  | .stackTop => .ok ()

/-- PUSH's stack-range check (R212), on `SP` before it is decremented. -/
def checkPush (w : State) (n : Nat) : Except Raised Unit :=
  if w.spReg.toNat < w.params.stackBase + n ∨ w.params.stackEnd < w.spReg.toNat then
    .error ⟨.stackOverflow, w.spReg⟩
  else .ok ()

/-- POP's stack-range check (R222). -/
def checkPop (w : State) (n : Nat) : Except Raised Unit :=
  if w.spReg.toNat < w.params.stackBase ∨ w.params.stackEnd < w.spReg.toNat + n then
    .error ⟨.stackUnderflow, w.spReg⟩
  else .ok ()

/-- Resolve the source address (R172). -/
def resolveSrc (u : SrcUse) (f : Fields) (w : State) : Except Raised Word :=
  match u with
  | .stackTop => do
    checkPop w f.size
    pure w.spReg
  | .regOrImm => pure (if f.imm then w.slotAddr (w.pc + 1#64) else w.regAddr f.rs.toNat)

/-- Resolve the destination address (R174). PUSH writes `SP` here, before the copy. -/
def resolveDst (d : DstUse) (f : Fields) (w : State) : Except Raised (State × Word) :=
  match d with
  | .newTop => do
    checkPush w f.size
    let top := w.spReg - BitVec.ofNat 64 f.size
    pure (w.setSp top, top)
  | .reg => pure (w, w.regAddr f.rd.toNat)

/-- One indirection, where the operand's dereference bit is set (R176). A pointer read is 8 bytes. -/
def deref (bit : Bool) (w : State) (a : Word) : Except Raised Word :=
  if bit then memRead w a 8 else pure a

/-- R168 to R176 for the opcodes with a source and a destination. -/
def resolveBoth (u : SrcUse) (d : DstUse) (f : Fields) (s : State) : Except Raised Resolved := do
  checkTruncated f s
  checkRd d f s
  checkRs u f s
  let sa ← resolveSrc u f s
  let (w, da) ← resolveDst d f s
  let sa ← deref f.dm.derefsSource w sa
  let da ← deref f.dm.derefsDestination w da
  pure ⟨w, sa, da⟩

/-- R168 to R176 for the opcodes with a source only (JMP, JNE, CALL): `RD` and `DM[1]` are ignored (R170). -/
def resolveSource (f : Fields) (s : State) : Except Raised Word := do
  checkTruncated f s
  checkRs .regOrImm f s
  let sa ← resolveSrc .regOrImm f s
  deref f.dm.derefsSource s sa

end Sys2Proof.Machine
end

