-- ==== Sys2Proof/Machine/Arithmetic.lean ====
section
/-! DEFINITION. ADD, SUB, AND, XOR, CMP (42_arithmetic.md). -/

namespace Sys2Proof.Machine

/-- The read-modify-write sequence that ADD, SUB, AND and XOR share (R241): `op` takes the destination's value, then
the source's. -/
def readModifyWrite (op : Word → Word → Word) (f : Fields) (s : State) : Except Raised (State × NextControl) := do
  let r ← resolveBoth .regOrImm .reg f s
  let b ← memRead r.w r.sa 8
  let a ← memRead r.w r.da 8
  let w ← memWrite r.w r.da 8 (op a b)
  pure (w, .fall)

/-- ADD (R242). -/
def execAdd (f : Fields) (s : State) : Outcome :=
  commit f s (readModifyWrite (fun a b => a + b) f s)

/-- SUB (R246): destination minus source. -/
def execSub (f : Fields) (s : State) : Outcome :=
  commit f s (readModifyWrite (fun a b => a - b) f s)

/-- AND (R250). -/
def execAnd (f : Fields) (s : State) : Outcome :=
  commit f s (readModifyWrite (fun a b => a &&& b) f s)

/-- XOR (R253). -/
def execXor (f : Fields) (s : State) : Outcome :=
  commit f s (readModifyWrite (fun a b => a ^^^ b) f s)

/-- CMP (R256): the destination is only read; `zf` is written. -/
def execCmp (f : Fields) (s : State) : Outcome :=
  commit f s do
    let r ← resolveBoth .regOrImm .reg f s
    let b ← memRead r.w r.sa 8
    let a ← memRead r.w r.da 8
    pure ({ r.w with zf := zeroFlag a b }, .fall)

end Sys2Proof.Machine
end

