-- ==== Sys2Proof/Machine/ControlTransfer.lean ====
section
/-! DEFINITION. JMP, JNE, CALL, RET (43_control_transfer.md) and CALL's side of the native-call port
(60_exceptions.md R318, R320). -/

namespace Sys2Proof.Machine

/-- The jump-target check (R272). -/
def checkTarget (s : State) (t : Word) : Except Raised Unit :=
  if s.progLen < t.toNat then .error ⟨.outOfBoundsJump, t⟩ else .ok ()

/-- The value a source-only opcode reads: the 8 bytes at its resolved source address (R270, R275, R280). -/
def sourceValue (f : Fields) (s : State) : Except Raised Word := do
  let sa ← resolveSource f s
  memRead s sa 8

/-- JMP (R270). -/
def execJmp (f : Fields) (s : State) : Outcome :=
  commit f s do
    let t ← sourceValue f s
    checkTarget s t
    pure (s, .jump t)

/-- JNE (R275): the target is read whether or not the jump is taken, and checked only when it is. -/
def execJne (f : Fields) (s : State) : Outcome :=
  commit f s do
    let t ← sourceValue f s
    if s.zf then pure (s, .fall)
    else
      checkTarget s t
      pure (s, .jump t)

/-- The arguments of a native call: `x[1]` .. `x[NARGS]` (R280). -/
def State.callArgs (s : State) : List Word :=
  (List.range s.params.nargs).map (fun k => s.reg (k + 1))

/-- The request a CALL presents on the native-call port (R280, R318). -/
def callRequest (f : Fields) (s : State) : Except Raised NativeRequest := do
  let routine ← sourceValue f s
  pure ⟨routine, s.callArgs⟩

/-- The byte at `a` is one of external memory that the platform admits, which the host may change (R43, R320): some
admitted access covers it (notes/assumptions/8). -/
def State.hostMayWrite (s : State) (a : Nat) : Bool :=
  (List.range 9).any fun n =>
    (List.range n).any fun k =>
      decide (s.params.extBase + k ≤ a) && decide (a - k + n ≤ Config.addressSpace) && s.extAdmit (a - k) n

/-- The state after the host's answer `Return(r, ext')` to a CALL (R280): its changes to external memory, then the
result in `ACC`; the call is no longer pending. -/
def State.takeReturn (s : State) (r : Word) (changes : List Host.Cell) (rest : List HostAnswer) : State :=
  ({ s with mem := Memory.writeCells s.mem changes, pending := none, hostAnswers := rest }).setReg Config.acc r

/-- What the host's part of a CALL does (R318). Without an answer there is no step (R160): the core stays as it is,
RUNNING with the CALL uncommitted (R39). The request it then presents is `State.presentRequest`'s. -/
def answerRequest (f : Fields) (s : State) (req : NativeRequest) : Outcome :=
  match s.hostAnswers with
  | [] => .fault .waitingForHost
  | .noRoutine :: rest =>
    commit f { s with pending := none, hostAnswers := rest } (.error ⟨.invalidCall, req.routine⟩)
  | .ret r changes :: rest =>
    if changes.all (fun c => s.hostMayWrite c.1) then
      commit f s (.ok (s.takeReturn r changes rest, .fall))
    else .refused .hostBreaksDuties

/-- CALL (R280). -/
def execCall (f : Fields) (s : State) : Outcome :=
  match callRequest f s with
  | .error r => commit f s (.error r)
  | .ok req => answerRequest f s req

/-- RET (R285): no operand is read or checked; only the truncated immediate can fault (R286). -/
def execRet (f : Fields) (s : State) : Outcome :=
  commit f s do
    checkTruncated f s
    pure (s, .halt)

end Sys2Proof.Machine
end

