-- ==== Sys2Proof/Machine/DataMovement.lean ====
section
/-! DEFINITION. MOV, PUSH, POP, LEA (41_data_movement.md). -/

namespace Sys2Proof.Machine

/-- MOV (R200): copy SZ bytes. -/
def execMov (f : Fields) (s : State) : Outcome :=
  commit f s do
    let r ← resolveBoth .regOrImm .reg f s
    let w ← copyBytes r.w r.sa r.da f.size
    pure (w, .fall)

/-- PUSH (R210): the resolver has decremented `SP` (R174); copy SZ bytes to the new stack top. -/
def execPush (f : Fields) (s : State) : Outcome :=
  commit f s do
    let r ← resolveBoth .regOrImm .newTop f s
    let w ← copyBytes r.w r.sa r.da f.size
    pure (w, .fall)

/-- POP (R220): copy SZ bytes from the stack top, then increment `SP`, read after the write (R196, R223). -/
def execPop (f : Fields) (s : State) : Outcome :=
  commit f s do
    let r ← resolveBoth .stackTop .reg f s
    let w ← copyBytes r.w r.sa r.da f.size
    pure (w.setSp (w.spReg + BitVec.ofNat 64 f.size), .fall)

/-- LEA (R230): write all 64 bits of the resolved source address. -/
def execLea (f : Fields) (s : State) : Outcome :=
  commit f s do
    let r ← resolveBoth .regOrImm .reg f s
    let w ← memWrite r.w r.da 8 r.sa
    pure (w, .fall)

end Sys2Proof.Machine
end

