-- ==== Sys2Proof/WellFormed.lean ====
section
/-! DEFINITION. Well-formed instructions: those an encoding exists for. The only condition the spec puts on the
fields of a legal word is the size's range (30_encoding.md R110, R131); every value of the other fields is legal
(R132), and register indices are checked when the instruction runs (R106, R171). -/

namespace Sys2Proof

/-- `SZ` is in 1..8 (R110). -/
def Fields.wf (f : Fields) : Bool :=
  decide (1 ≤ f.size) && decide (f.size ≤ 8)

/-- A well-formed instruction has well-formed fields. -/
def Instr.wf (i : Instr) : Bool :=
  i.fields.wf

end Sys2Proof
end

