-- ==== Sys2Proof/Decode.lean ====
section
/-! DEFINITION. The instruction word (30_encoding.md): field extraction, the decoder, the encoder of instructions,
and the two combinational blocks `instruction_decoder` (R120, R121) and `instruction_encoder` (R112 to R115). -/

namespace Sys2Proof

/-! ## The opcode map (R130) and the dereference modes (R108) -/

/-- The value of `OPC` for each operation (R130). -/
def Opcode.value : Opcode → BitVec 8
  | .mov => 0x01
  | .push => 0x02
  | .pop => 0x03
  | .add => 0x04
  | .sub => 0x05
  | .and => 0x06
  | .xor => 0x07
  | .lea => 0x08
  | .cmp => 0x09
  | .jmp => 0x0A
  | .jne => 0x0B
  | .call => 0x0C
  | .ret => 0x0D

/-- The operation a value of `OPC` selects; none for `0x00` and `0x0E`..`0xFF` (R130, R131). -/
def Opcode.ofValue (v : BitVec 8) : Option Opcode :=
  match v.toNat with
  | 0x01 => some .mov
  | 0x02 => some .push
  | 0x03 => some .pop
  | 0x04 => some .add
  | 0x05 => some .sub
  | 0x06 => some .and
  | 0x07 => some .xor
  | 0x08 => some .lea
  | 0x09 => some .cmp
  | 0x0A => some .jmp
  | 0x0B => some .jne
  | 0x0C => some .call
  | 0x0D => some .ret
  | _ => none

/-- The value of `DM` for each mode (R108). -/
def DerefMode.bits : DerefMode → BitVec 2
  | .none => 0
  | .source => 1
  | .destination => 2
  | .both => 3

/-- The mode a value of `DM` names (R108). -/
def DerefMode.ofBits (b : BitVec 2) : DerefMode :=
  match b.toNat with
  | 0 => .none
  | 1 => .source
  | 2 => .destination
  | _ => .both

/-! ## Field extraction from the plain word (R104) -/

/-- `OPC` = `plain[7:0]` (R105). -/
def opcField (plain : Word) : BitVec 8 := plain.extractLsb' 0 8

/-- `RS` = `plain[11:8]` (R106). -/
def rsField (plain : Word) : BitVec 4 := plain.extractLsb' 8 4

/-- `RD` = `plain[15:12]` (R107). -/
def rdField (plain : Word) : BitVec 4 := plain.extractLsb' 12 4

/-- `DM` = `plain[17:16]` (R108). -/
def dmField (plain : Word) : BitVec 2 := plain.extractLsb' 16 2

/-- `I` = `plain[18]` (R109). -/
def immField (plain : Word) : Bool := plain.getLsbD 18

/-- `SZ` = `plain[22:19]` (R110). -/
def szField (plain : Word) : BitVec 4 := plain.extractLsb' 19 4

/-- The reserved bits `plain[63:23]` (R111). -/
def reservedField (plain : Word) : BitVec 41 := plain.extractLsb' 23 41

/-- The fields of a plain word, as an instruction carries them. -/
def fieldsOf (plain : Word) : Fields where
  rs := rsField plain
  rd := rdField plain
  dm := DerefMode.ofBits (dmField plain)
  imm := immField plain
  size := (szField plain).toNat

/-! ## The decoder -/

/-- Why a plain word is illegal (R131). -/
inductive IllegalWord where
  /-- `OPC` is `0x00` or in `0x0E`..`0xFF` (R131, 1). -/
  | undefinedOpcode
  /-- A bit of [63:23] is 1 (R131, 2). -/
  | reservedBitSet
  /-- `SZ` is 0 or 9..15 (R131, 3). -/
  | badSize
  deriving DecidableEq, Repr

/-- The plain word of a stored one, and the stored word of a plain one (R101). -/
def unmask (mask stored : Word) : Word := stored ^^^ mask

/-- The instruction a plain word stands for, or why it stands for none (R121, R131). -/
def decodePlain (plain : Word) : Except IllegalWord Instr :=
  match Opcode.ofValue (opcField plain) with
  | none => .error .undefinedOpcode
  | some o =>
    if reservedField plain ≠ 0 then .error .reservedBitSet
    else if szField plain = 0 ∨ 8 < (szField plain).toNat then .error .badSize
    else .ok (Instr.make o (fieldsOf plain))

/-- The instruction a stored opcode word stands for under the mask of the build (R101, R121). -/
def decode (mask stored : Word) : Except IllegalWord Instr :=
  decodePlain (unmask mask stored)

/-- An instruction's length in slots (R100, R134). -/
def Fields.slots (f : Fields) : Nat := if f.imm then 2 else 1

/-! ## The encoder of instructions -/

/-- The plain opcode word of an instruction, in the layout of R104. -/
def encodePlain (i : Instr) : Word :=
  (0 : BitVec 41) ++ BitVec.ofNat 4 i.fields.size ++ BitVec.ofBool i.fields.imm ++ i.fields.dm.bits
    ++ i.fields.rd ++ i.fields.rs ++ i.opcode.value

/-- The stored opcode word of an instruction under the mask of the build (R101). A literal is not part of it: the
encoder produces only the opcode word (R102). -/
def encode (mask : Word) (i : Instr) : Word := encodePlain i ^^^ mask

/-- The slots an instruction occupies in program memory, with its literal where its I flag is set (R100, R117). -/
def encodeSlots (mask : Word) (i : Instr) (literal : Word) : List Word :=
  if i.fields.imm then [encode mask i, literal] else [encode mask i]

/-! ## The `instruction_decoder` block (R120) -/

/-- The decoder block's outputs (R120). -/
structure DecoderOut where
  opc : BitVec 8
  rs : BitVec 4
  rd : BitVec 4
  dm : BitVec 2
  imm : Bool
  sz : BitVec 4
  len : Nat
  illegal : Bool
  deriving DecidableEq, Repr

/-- The decoder block (R121). -/
def decoderBlock (mask decIn : Word) : DecoderOut :=
  let plain := decIn ^^^ mask
  { opc := opcField plain
    rs := rsField plain
    rd := rdField plain
    dm := dmField plain
    imm := immField plain
    sz := szField plain
    len := if immField plain then 2 else 1
    illegal := decide ((opcField plain).toNat < 0x01 ∨ 0x0D < (opcField plain).toNat)
      || decide (reservedField plain ≠ 0)
      || decide (szField plain = 0) || decide (8 < (szField plain).toNat) }

/-! ## The `instruction_encoder` block (R112) -/

/-- The encoder block's inputs (R112). The operand-kind descriptor `enc_kind` is a class, whose code equals the
dereference mode it yields, and a width in bytes. -/
structure EncoderIn where
  opc : BitVec 8
  sel1 : BitVec 4
  sel2 : BitVec 4
  useKind : Bool
  size : BitVec 8
  dm : BitVec 2
  kindClass : BitVec 2
  kindWidth : BitVec 8
  deriving DecidableEq, Repr

/-- The encoder block's outputs (R113). -/
structure EncoderOut where
  word : Word
  imm : Bool
  err : Bool
  deriving DecidableEq, Repr

/-- `size_in` of R114: explicit, or from the operand-kind descriptor. -/
def EncoderIn.sizeIn (e : EncoderIn) : Nat :=
  if e.useKind then e.kindWidth.toNat else e.size.toNat

/-- `dm` of R114: explicit, or from the operand-kind descriptor. -/
def EncoderIn.dmIn (e : EncoderIn) : BitVec 2 :=
  if e.useKind then e.kindClass else e.dm

/-- The plain word that R114 packs. -/
def EncoderIn.plain (e : EncoderIn) : Word :=
  let size := min e.sizeIn 8
  let rs : BitVec 4 := e.sel2 - 1
  let rd : BitVec 4 := e.sel1 - 1
  e.opc.setWidth 64
    ||| (rs.setWidth 64 <<< 8)
    ||| (rd.setWidth 64 <<< 12)
    ||| (e.dmIn.setWidth 64 <<< 16)
    ||| ((BitVec.ofBool (e.sel2 = 0)).setWidth 64 <<< 18)
    ||| (BitVec.ofNat 64 (size % 16) <<< 19)

/-- The encoder block (R114, R115). -/
def encoderBlock (mask : Word) (e : EncoderIn) : EncoderOut where
  word := e.plain ^^^ mask
  imm := decide (e.sel2 = 0)
  err := decide (e.sizeIn = 0) || (Opcode.ofValue e.opc).isNone

/-! ## The opcode table's words -/

/-- The instruction the decoder reads from an instruction whose bits are `w`, numbered as spec/opcode_table.json
numbers them: its conditions are on the plain word, and bits 127..64 are the literal slot, which decoding does not
read. The word is laid out as the hardware stores it, masked with the default `OBF_MASK`. -/
def decodeTableWord (nbits w : Nat) : Option Instr :=
  let stored : Word := BitVec.ofNat 64 (w % 2 ^ nbits) ^^^ Config.obfMask
  match decode Config.obfMask stored with
  | .ok i => some i
  | .error _ => none

end Sys2Proof
end

