-- ==== Sys2Proof/Machine/Fetch.lean ====
section
/-! DEFINITION. What a step does before the instruction's own meaning (40_control_unit.md R160 to R166): the run state,
the bound check, fetch, unmasking and the legality check; and where an instruction to be fetched is stored. -/

namespace Sys2Proof.Machine

/-- What the control finds at the start of a step. -/
inductive Fetched where
  /-- The core has no step (R161, R340). -/
  | noStep (r : Fault)
  /-- `pc >= PROG_LEN`: the halt transition (R162). -/
  | halt
  /-- An illegal plain word (R166). -/
  | illegal (plain : Word)
  /-- A legal instruction (R164). -/
  | instr (i : Instr)
  deriving DecidableEq, Repr

/-- The stored word at slot `pc`, if `pc < PROG_LEN` (R162, R164). -/
def State.fetchSlot (s : State) : Option Word := s.prog[s.pc.toNat]?

/-- Fetch, unmask and decode the word at `pc` (R164, R166). -/
def State.decodeAtPc (s : State) : Fetched :=
  match s.fetchSlot with
  | none => .halt
  | some stored =>
    match decode s.obfMask stored with
    | .ok i => .instr i
    | .error _ => .illegal (unmask s.obfMask stored)

/-- The start of a step: none while `rst` is asserted (R340), none in HALTED or FAULTED (R161). -/
def fetch (s : State) : Fetched :=
  if s.rst then .noStep .heldInReset
  else
    match s.runState with
    | .halted => .noStep .halted
    | .faulted => .noStep .faulted
    | .running => s.decodeAtPc

/-- The halt transition (R162): only `run_state` changes. -/
def State.haltAtEnd (s : State) : State := { s with runState := .halted }

/-- The fault of an illegal word records the plain word (R166, R300). -/
def State.takeIllegal (s : State) (plain : Word) : State := s.takeFault ⟨.illegalInstruction, plain⟩

/-- Program memory with an instruction's two slots stored at slot `pc`: the low 64 bits of `w` are the plain opcode
word, stored masked (R101), bits 127..64 the raw literal (R102). Slots missing before `pc` are filled with 0. -/
def State.progWithWord (s : State) (nbits w : Nat) : List Word :=
  let bits := w % 2 ^ nbits
  let stored := unmask s.obfMask (BitVec.ofNat 64 bits)
  let literal : Word := BitVec.ofNat 64 (bits / 2 ^ 64)
  s.prog.take s.pc.toNat ++ List.replicate (s.pc.toNat - s.prog.length) 0
    ++ [stored, literal] ++ s.prog.drop (s.pc.toNat + 2)

end Sys2Proof.Machine
end

