-- ==== Sys2Proof/Machine/Step.lean ====
section
/-! DEFINITION. One step of the core (40_control_unit.md R160, R194). -/

namespace Sys2Proof.Machine

/-- One step (R194). -/
def step (s : State) : Host.Outcome State Fault Refusal :=
  match fetch s with
  | .noStep r => .fault r
  | .halt => .next s.haltAtEnd
  | .illegal plain => .next (s.takeIllegal plain)
  | .instr i => exec i s

/-- `s` with the instruction whose bits are `w` stored where the next step fetches: at slot `pc` of program memory, the
core RUNNING and out of reset. It stands for the host's load (R350; notes/assumptions/2, 15). -/
def State.withFetchWord (s : State) (nbits w : Nat) : State :=
  { s with prog := s.progWithWord nbits w, runState := .running, rst := false }

end Sys2Proof.Machine
end

