-- ==== Sys2Proof/Machine/Assembler.lean ====
section
/-! DEFINITION. Assembly (30_encoding.md R150 to R154) after reading: operands, sizes, labels, and the selectors they
feed to the encoder block. Reading the text itself is in AssemblyText.lean. -/

namespace Sys2Proof.Machine

/-- A `value` of R150: a 64-bit number (a negative decimal v stands for 2^64 + v) or a label. -/
inductive AsmValue where
  | number (v : Word)
  | label (name : List Char)
  deriving DecidableEq, Repr

/-- An operand of R150: `Rk`, `[Rk]`, `#v`, `[#v]`. -/
inductive AsmOperand where
  | reg (k : Nat)
  | ind (k : Nat)
  | imm (v : AsmValue)
  | abs (v : AsmValue)
  deriving DecidableEq, Repr

/-- An instruction of R150: mnemonic, size, operands destination first. -/
structure AsmInstr where
  op : Opcode
  size : Nat
  operands : List AsmOperand
  deriving DecidableEq, Repr

/-- A line of R150: an optional label and an optional instruction. -/
structure AsmLine where
  label : Option (List Char)
  instr : Option AsmInstr
  deriving DecidableEq, Repr

/-- What an operand gives the encoder (R151): a selector, the dereference bit, and the literal if it has one. -/
structure AsmSelector where
  sel : BitVec 4
  deref : Bool
  literal : Option AsmValue
  deriving DecidableEq, Repr

/-- Operand to selector (R151): `k + 1` names register `k`, 0 an immediate; a register index `>= NREG` is refused
(R152). -/
def asmSelector (p : Params) : AsmOperand → Option AsmSelector
  | .reg k => if k < p.nreg then some ⟨BitVec.ofNat 4 (k + 1), false, none⟩ else none
  | .ind k => if k < p.nreg then some ⟨BitVec.ofNat 4 (k + 1), true, none⟩ else none
  | .imm v => some ⟨0, false, some v⟩
  | .abs v => some ⟨0, true, some v⟩

/-- The selector of an operand that the mnemonic does not take (R152): register 0, not dereferenced. -/
def asmUnused : AsmSelector := ⟨1, false, none⟩

/-- A destination operand is a register form; `#v` and `[#v]` are refused (R152). -/
def asmDestination (p : Params) (o : AsmOperand) : Option AsmSelector :=
  match o with
  | .reg _ => asmSelector p o
  | .ind _ => asmSelector p o
  | .imm _ => none
  | .abs _ => none

/-- The two selectors of an instruction, destination and source, by the operand shapes of R152. -/
def asmOperands (p : Params) (op : Opcode) (os : List AsmOperand) : Option (AsmSelector × AsmSelector) :=
  match op, os with
  | .ret, [] => some (asmUnused, asmUnused)
  | .push, [s] | .jmp, [s] | .jne, [s] | .call, [s] => do
    let src ← asmSelector p s
    pure (asmUnused, src)
  | .pop, [d] => do
    let dst ← asmDestination p d
    pure (dst, asmUnused)
  | .mov, [d, s] | .add, [d, s] | .sub, [d, s] | .and, [d, s] | .xor, [d, s] | .lea, [d, s] | .cmp, [d, s] => do
    let dst ← asmDestination p d
    let src ← asmSelector p s
    pure (dst, src)
  | _, _ => none

/-- The encoder block's inputs for an instruction (R151), and its literal; none where an assembler refuses (R152). -/
def asmEncoderIn (p : Params) (a : AsmInstr) : Option (EncoderIn × Option AsmValue) := do
  let (dst, src) ← asmOperands p a.op a.operands
  if 1 ≤ a.size ∧ a.size ≤ 8 then
    pure ({ opc := a.op.value, sel1 := dst.sel, sel2 := src.sel, useKind := false,
            size := BitVec.ofNat 8 a.size, dm := BitVec.ofBool dst.deref ++ BitVec.ofBool src.deref,
            kindClass := 0, kindWidth := 0 }, src.literal)
  else none

/-- The slots an instruction takes (R154): two where the encoder sets I. -/
def asmSlots (p : Params) (a : AsmInstr) : Option Nat := do
  let (e, _) ← asmEncoderIn p a
  pure (if (encoderBlock 0 e).imm then 2 else 1)

/-- The slots a line takes: none where it has no instruction. -/
def asmLineSlots (p : Params) (l : AsmLine) : Option Nat :=
  match l.instr with
  | none => some 0
  | some a => asmSlots p a

/-- The slot index of every label (R154), counted from `slot`. -/
def asmLabels (p : Params) : Nat → List AsmLine → Option (List (List Char × Nat))
  | _, [] => some []
  | slot, l :: ls => do
    let n ← asmLineSlots p l
    let rest ← asmLabels p (slot + n) ls
    pure (match l.label with
      | some name => (name, slot) :: rest
      | none => rest)

/-- A value as a 64-bit word: a label is its slot index (R150, R154). DESIGN CHOICE, safe (notes/assumptions/16): a label
that no line defines is refused. -/
def asmValue (labels : List (List Char × Nat)) : AsmValue → Option Word
  | .number v => some v
  | .label name => (labels.lookup name).map (BitVec.ofNat 64)

/-- One instruction's stored slots: the encoder's word, then the literal unmasked (R102, R117). -/
def asmInstr (p : Params) (mask : Word) (labels : List (List Char × Nat)) (a : AsmInstr) : Option (List Word) := do
  let (e, literal) ← asmEncoderIn p a
  let word := (encoderBlock mask e).word
  match literal with
  | none => pure [word]
  | some v => do
    let w ← asmValue labels v
    pure [word, w]

/-- One line's stored slots. -/
def asmLine (p : Params) (mask : Word) (labels : List (List Char × Nat)) (l : AsmLine) : Option (List Word) :=
  match l.instr with
  | none => some []
  | some a => asmInstr p mask labels a

/-- A program's stored slots (R151 to R154). DESIGN CHOICE, safe (notes/assumptions/16): a label that two lines define is
refused. -/
def assemble (p : Params) (mask : Word) (ls : List AsmLine) : Option (List Word) := do
  let labels ← asmLabels p 0 ls
  let slots ← ls.mapM (asmLine p mask labels)
  if (labels.map Prod.fst).Nodup then pure slots.flatten else none

end Sys2Proof.Machine
end

