-- ==== Sys2Proof/Machine/AssemblyText.lean ====
section
/-! DEFINITION. The text of an assembly program (30_encoding.md R150): characters to tokens, tokens to lines. What the
grammar leaves open (blanks, the letters of a label, the digits and the range of a number, small letters in a mnemonic)
is marked at its definition and in notes/assumptions/16. -/

namespace Sys2Proof.Machine

/-! ## Tokens -/

/-- A token: a run of letters, digits and `_`, or one of the grammar's marks. -/
inductive AsmToken where
  | word (cs : List Char)
  | mark (c : Char)
  deriving DecidableEq, Repr

/-- The marks of R150's grammar; `;` is not one of them, it ends the line. -/
def asmMarks : List Char := [':', '.', ',', '[', ']', '#', '-']

/-- A decimal digit's value. -/
def asmDigit (c : Char) : Option Nat :=
  if '0'.toNat ≤ c.toNat ∧ c.toNat ≤ '9'.toNat then some (c.toNat - '0'.toNat) else none

/-- A hexadecimal digit's value. DESIGN CHOICE, safe (notes/assumptions/16): R150 says `'0x' hex` and no more; digits of
both cases are taken, and the `_` that R10 lets group the digits of the spec's own hexadecimal literals is not, so an
assembly text with `0x1_0000` is refused. -/
def asmHexDigit (c : Char) : Option Nat :=
  if 'a'.toNat ≤ c.toNat ∧ c.toNat ≤ 'f'.toNat then some (c.toNat - 'a'.toNat + 10)
  else if 'A'.toNat ≤ c.toNat ∧ c.toNat ≤ 'F'.toNat then some (c.toNat - 'A'.toNat + 10)
  else asmDigit c

/-- A letter or `_`, with which a name begins. DESIGN CHOICE, safe (notes/assumptions/16): R150 does not say what a label
is made of. -/
def asmLetter (c : Char) : Bool :=
  decide ('a'.toNat ≤ c.toNat ∧ c.toNat ≤ 'z'.toNat) || decide ('A'.toNat ≤ c.toNat ∧ c.toNat ≤ 'Z'.toNat) || c = '_'

/-- The word read so far, reversed, as a token before `ts`. -/
def asmEndWord (acc : List Char) (ts : List AsmToken) : List AsmToken :=
  if acc.isEmpty then ts else .word acc.reverse :: ts

/-- The tokens of a line, up to its comment; none where a character belongs to no token. DESIGN CHOICE, safe
(notes/assumptions/16): R150 names no blanks; spaces and tabs stand between any two tokens. -/
def asmTokens : List Char → List Char → Option (List AsmToken)
  | acc, [] => some (asmEndWord acc [])
  | acc, c :: cs =>
    if c = ';' then some (asmEndWord acc [])
    else if asmLetter c || (asmDigit c).isSome then asmTokens (c :: acc) cs
    else if c = ' ' ∨ c = '\t' then (asmTokens [] cs).map (asmEndWord acc)
    else if asmMarks.contains c then (asmTokens [] cs).map (fun ts => asmEndWord acc (.mark c :: ts))
    else none

/-! ## Numbers, values, operands -/

/-- The number that digits of a base write, the first digit the most significant; none for no digit. -/
def asmDigits (base : Nat) (digit : Char → Option Nat) (cs : List Char) : Option Nat :=
  if cs.isEmpty then none
  else cs.foldl (fun n c => do
    let n ← n
    let d ← digit c
    pure (n * base + d)) (some 0)

/-- `decimal | '0x' hex` of R150. DESIGN CHOICE, safe (notes/assumptions/16): leading zeros are taken, and a
number of 2^64 or more is refused. -/
def asmNumber (cs : List Char) : Option Word := do
  let n ← match cs with
    | '0' :: 'x' :: hex => asmDigits 16 asmHexDigit hex
    | _ => asmDigits 10 asmDigit cs
  if n < 2 ^ 64 then pure (BitVec.ofNat 64 n) else none

/-- A name: it begins with a letter or `_`. -/
def asmName (cs : List Char) : Option (List Char) :=
  match cs with
  | c :: _ => if asmLetter c then some cs else none
  | [] => none

/-- `value` of R150; a negative decimal v means 2^64 + v. DESIGN CHOICE, safe (notes/assumptions/16): one below -2^64, for
which 2^64 + v is negative, is refused. -/
def asmReadValue : List AsmToken → Option AsmValue
  | [.word cs] =>
    match asmNumber cs with
    | some v => some (.number v)
    | none => (asmName cs).map .label
  | [.mark '-', .word cs] => do
    let n ← asmDigits 10 asmDigit cs
    if n ≤ 2 ^ 64 then pure (.number (BitVec.ofNat 64 (2 ^ 64 - n))) else none
  | _ => none

/-- `reg` of R150. An index that names no register is left to the refusal of R152. -/
def asmReadReg (p : Params) (cs : List Char) : Option Nat :=
  match cs with
  | ['A', 'C', 'C'] => some Config.acc
  | ['S', 'P'] => some p.sp
  | ['R', d] => asmDigit d
  | _ => none

/-- `operand` of R150. -/
def asmReadOperand (p : Params) (ts : List AsmToken) : Option AsmOperand :=
  match ts with
  | [.word cs] => (asmReadReg p cs).map .reg
  | [.mark '[', .word cs, .mark ']'] => (asmReadReg p cs).map .ind
  | .mark '#' :: value => (asmReadValue value).map .imm
  | [.mark '[', .mark '#', v, .mark ']'] => (asmReadValue [v]).map .abs
  | [.mark '[', .mark '#', m, v, .mark ']'] => (asmReadValue [m, v]).map .abs
  | _ => none

/-- The stretches of tokens between commas. -/
def asmSplit : List AsmToken → List AsmToken × List (List AsmToken)
  | [] => ([], [])
  | t :: ts =>
    let r := asmSplit ts
    if t = .mark ',' then ([], r.1 :: r.2) else (t :: r.1, r.2)

/-- `[operand [',' operand]]` of R150; how many an instruction takes is R152's. -/
def asmReadOperands (p : Params) (ts : List AsmToken) : Option (List AsmOperand) :=
  if ts.isEmpty then some []
  else ((asmSplit ts).1 :: (asmSplit ts).2).mapM (asmReadOperand p)

/-! ## Instructions and lines -/

/-- `MNEMONIC` of R150. DESIGN CHOICE, safe (notes/assumptions/16): only as R130 spells it, in capitals. -/
def asmMnemonic (cs : List Char) : Option Opcode :=
  match cs with
  | ['M', 'O', 'V'] => some .mov
  | ['P', 'U', 'S', 'H'] => some .push
  | ['P', 'O', 'P'] => some .pop
  | ['A', 'D', 'D'] => some .add
  | ['S', 'U', 'B'] => some .sub
  | ['A', 'N', 'D'] => some .and
  | ['X', 'O', 'R'] => some .xor
  | ['L', 'E', 'A'] => some .lea
  | ['C', 'M', 'P'] => some .cmp
  | ['J', 'M', 'P'] => some .jmp
  | ['J', 'N', 'E'] => some .jne
  | ['C', 'A', 'L', 'L'] => some .call
  | ['R', 'E', 'T'] => some .ret
  | _ => none

/-- `instr` of R150: the size is 8 without a suffix. -/
def asmReadInstr (p : Params) (ts : List AsmToken) : Option AsmInstr :=
  match ts with
  | .word m :: .mark '.' :: .word [d] :: rest => do
    let op ← asmMnemonic m
    let size ← asmDigit d
    let operands ← asmReadOperands p rest
    pure ⟨op, size, operands⟩
  | .word m :: rest => do
    let op ← asmMnemonic m
    let operands ← asmReadOperands p rest
    pure ⟨op, 8, operands⟩
  | _ => none

/-- `[instr]` of R150. -/
def asmReadBody (p : Params) (ts : List AsmToken) : Option (Option AsmInstr) :=
  if ts.isEmpty then some none else (asmReadInstr p ts).map some

/-- `line` of R150. -/
def asmReadLine (p : Params) (cs : List Char) : Option AsmLine := do
  let ts ← asmTokens [] cs
  match ts with
  | .word l :: .mark ':' :: rest => do
    let name ← asmName l
    let body ← asmReadBody p rest
    pure ⟨some name, body⟩
  | _ => do
    let body ← asmReadBody p ts
    pure ⟨none, body⟩

/-- The lines of a text. -/
def asmSplitLines : List Char → List Char × List (List Char)
  | [] => ([], [])
  | c :: cs =>
    let r := asmSplitLines cs
    if c = '\n' then ([], r.1 :: r.2) else (c :: r.1, r.2)

/-- A program's text to its stored slots (R150 to R154); none where an assembler refuses. -/
def assembleText (p : Params) (mask : Word) (text : List Char) : Option (List Word) := do
  let lines ← ((asmSplitLines text).1 :: (asmSplitLines text).2).mapM (asmReadLine p)
  assemble p mask lines

end Sys2Proof.Machine
end

