-- ==== Sys2Proof/Machine/HostPort.lean ====
section
/-! DEFINITION. The host's interactions with the core (60_exceptions.md R322): reset (70_reset_and_hazards.md R340),
load and start (R350), the host's side of the native-call port (R318, R320), the status words (10_state.md R44, R45),
the end of a run (R330). An interaction the host may not make at that moment is answered by `none`. -/

namespace Sys2Proof.Machine

/-! ## Reset, load, start -/

/-- The data address lies in the stack buffer (R63). -/
def State.inStack (s : State) (a : Nat) : Bool :=
  decide (s.params.stackBase ≤ a) && decide (a < s.params.stackEnd)

/-- A launch image of the stack buffer: bytes from `STACK_BASE` up, at most `STACK_SIZE` of them. -/
def stackCells (p : Params) (bytes : List Byte) : List Host.Cell :=
  (bytes.take p.stackSize).zipIdx.map (fun c => (p.stackBase + c.2, c.1))

/-- Asserting `rst` in any state (R340): every piece of state takes its value of R46. The stack's bytes are unspecified
there, so they are an argument (I13; notes/assumptions/11). Program memory, `PROG_LEN` and external memory stay (R342),
a pending native call is abandoned, and no answer to it remains. The core takes no step until `rst` is released. -/
def State.assertReset (s : State) (stack : List Byte) : State :=
  { s with
    x := (State.resetOf s.params).x
    pc := (State.resetOf s.params).pc
    zf := (State.resetOf s.params).zf
    runState := (State.resetOf s.params).runState
    faultCause := (State.resetOf s.params).faultCause
    faultPc := (State.resetOf s.params).faultPc
    faultInfo := (State.resetOf s.params).faultInfo
    pending := none
    hostAnswers := []
    mem := Memory.writeCells (s.mem.filter (fun c => !s.inStack c.1)) (stackCells s.params stack)
    rst := true }

/-- Releasing `rst` (R341). -/
def State.releaseReset (s : State) : State := { s with rst := false }

/-- Load the stored program and with it `PROG_LEN` (R350, 2 and 3): only while `rst` is asserted, at most
`PROG_MAX_SLOTS` slots (R8, R42). -/
def State.loadProgram (s : State) (slots : List Word) : Option State :=
  if s.rst && decide (slots.length ≤ s.params.progMaxSlots) then some { s with prog := slots } else none

/-- The core is not running: reset is asserted, or the run has ended (R43, R322). -/
def State.notRunning (s : State) : Bool := s.rst || decide (s.runState ≠ .running)

/-- Write external memory while the core is not running (R43, R322, R350, 4). DESIGN CHOICE, safe (notes/assumptions/18):
in HALTED and FAULTED the end row of R322 lets the host touch "anything, then reset", and R328, R38, R40, R44 and R350
narrow that; the model lets it write admitted external memory there and nothing else, and load a program only once `rst`
is asserted. -/
def State.loadExternal (s : State) (cells : List Host.Cell) : Option State :=
  if s.notRunning && cells.all (fun c => s.hostMayWrite c.1) then
    some { s with mem := Memory.writeCells s.mem cells }
  else none

/-- The boot order of R350, steps 1 to 5. -/
def State.boot (s : State) (stack : List Byte) (slots : List Word) (external : List Host.Cell) : Option State := do
  let s ← (s.assertReset stack).loadProgram slots
  let s ← s.loadExternal external
  pure s.releaseReset

/-! ## The host's side of the native-call port -/

/-- The request of a CALL that waits (R318, 1): the core is at a CALL whose identifier can be read, and the host has not
answered. -/
def State.waitingRequest (s : State) : Option NativeRequest :=
  match fetch s, s.hostAnswers with
  | .instr (.call f), [] => (callRequest f s).toOption
  | _, _ => none

/-- The core presents the request of a CALL that waits (R318, 1), and nothing else changes (R39). It is no step (R160).
DESIGN CHOICE, safe (notes/assumptions/6): the spec names the pending call as state and no transition that begins it. -/
def State.presentRequest (s : State) : Option State :=
  s.waitingRequest.map fun req => { s with pending := some req }

/-- The host's answer obeys R320: it changes external memory that the platform admits and nothing else. -/
def HostAnswer.lawful (s : State) : HostAnswer → Bool
  | .ret _ changes => changes.all (fun c => s.hostMayWrite c.1)
  | .noRoutine => true

/-- The host answers the pending native call (R318): only while the core waits in a CALL that has no answer yet, and
only within its duties (R320). After a reset nothing is pending, so there is nothing to answer (R340). -/
def State.answerCall (s : State) (a : HostAnswer) : Option State :=
  if s.pending.isSome && s.hostAnswers.isEmpty && !s.rst && a.lawful s then some { s with hostAnswers := [a] } else none

/-! ## Status words -/

/-- `STATE` (R45). -/
def RunState.code : RunState → BitVec 2
  | .running => 0
  | .halted => 1
  | .faulted => 2

/-- `CAUSE` (R45): the fault codes of R300. -/
def FaultCause.code : FaultCause → BitVec 4
  | .none => 0
  | .illegalInstruction => 1
  | .truncatedImmediate => 2
  | .invalidRegister => 3
  | .stackOverflow => 4
  | .stackUnderflow => 5
  | .invalidDereference => 6
  | .outOfBoundsJump => 7
  | .invalidCall => 8

/-- `STATUS`, HS0 (R45): bits [1:0] STATE, [3:2] zero, [7:4] CAUSE, [8] ZF, [63:9] zero. -/
def State.statusWord (s : State) : Word :=
  (0 : BitVec 55) ++ BitVec.ofBool s.zf ++ s.faultCause.code ++ (0 : BitVec 2) ++ s.runState.code

/-- The host status port (R44): status word `n`. A read has no effect on the core. -/
def State.hostRead (s : State) (n : Nat) : Option Word :=
  match n with
  | 0 => some s.statusWord
  | 1 => some s.pc
  | 2 => some s.faultPc
  | 3 => some s.faultInfo
  | 4 => some (BitVec.ofNat 64 s.progLen)
  | i + 5 => if i < s.params.nreg then some (s.reg i) else none

/-- The request the core presents on the native-call port, while it waits (R318, R322). -/
def State.hostRequest (s : State) : Option NativeRequest := s.pending

/-! ## The end of a run (R330) -/

/-- A normal end: HALTED. -/
def State.normalEnd (s : State) : Bool := decide (s.runState = .halted)

/-- A fault end: FAULTED. -/
def State.faultEnd (s : State) : Bool := decide (s.runState = .faulted)

/-- The run has ended. -/
def State.runEnded (s : State) : Bool := s.normalEnd || s.faultEnd

end Sys2Proof.Machine
end

