-- ==== Sys2Proof/Safety.lean ====
section
/-! DEFINITION. The terms claims are stated in: the operand forms of 30_encoding.md R126 as plain functions of the state,
what a store changes and what it leaves, what stays the same across an instruction, the data accesses of an instruction
and the fault table, an assembler's operands in the encoded fields, and the invariant of the machine. -/

namespace Sys2Proof.Machine

/-! ## Operand forms (R126) -/

/-- The literal of a long-form instruction: the word in slot `pc + 1` (R102). -/
def State.literal (s : State) : Word := s.prog.getD (s.pc.toNat + 1) 0#64

/-- The instruction is not cut off by the end of the program: its literal slot exists if it has one (R168). -/
def literalPresent (f : Fields) (s : State) : Bool := !f.imm || decide (s.pc.toNat + 1 < s.progLen)

/-- Where the source operand of a register-or-immediate opcode lies after dereferencing (R126): `Rk`, `[Rk]`, `#v`,
`[#v]`. None where the literal slot is missing or the index names no register. -/
def sourceAddress (f : Fields) (s : State) : Option Word :=
  if f.imm then
    if s.pc.toNat + 1 < s.progLen then
      some (if f.dm.derefsSource then s.literal else s.slotAddr (s.pc + 1#64))
    else none
  else if f.rs.toNat < s.params.nreg then
    some (if f.dm.derefsSource then s.reg f.rs.toNat else s.regAddr f.rs.toNat)
  else none

/-- Where the destination operand of a register opcode lies after dereferencing (R126): `Rk`, `[Rk]`. -/
def destinationAddress (f : Fields) (s : State) : Option Word :=
  if f.rd.toNat < s.params.nreg then
    some (if f.dm.derefsDestination then s.reg f.rd.toNat else s.regAddr f.rd.toNat)
  else none

/-- The 64-bit little-endian value at a data address (R67). -/
def State.wordAt (s : State) (a : Word) : Word :=
  BitVec.ofNat 64 (leValue ((List.range 8).map (fun k => s.byteAt (a.toNat + k))))

/-- The slot after this instruction (R192, `Fall`). -/
def nextPc (f : Fields) (s : State) : Word := s.pc + (if f.imm then 2#64 else 1#64)

/-! ## What an instruction changes and what it leaves -/

/-- From `s` to `t` the bytes `a .. a+n-1` of the data address space became `v 0 .. v (n-1)`; every other byte, and so
every register whose bytes do not meet that range, is as it was (R71). -/
structure Stores (s t : State) (a n : Nat) (v : Nat → Byte) : Prop where
  stored : ∀ k, k < n → t.byteAt (a + k) = v k
  otherBytes : ∀ b, b < a ∨ a + n ≤ b → t.byteAt b = s.byteAt b
  otherRegs : ∀ i, i < s.params.nreg →
    (s.params.regBase + 8 * i + 8 ≤ a ∨ a + n ≤ s.params.regBase + 8 * i) → t.reg i = s.reg i

/-- No byte of the data address space and no register changed. -/
structure StoresNothing (s t : State) : Prop where
  bytes : ∀ b, t.byteAt b = s.byteAt b
  regs : ∀ i, t.reg i = s.reg i

/-- Everything beside registers, memory, `pc` and `zf` is as it was. -/
structure SameRecord (s t : State) : Prop where
  params : t.params = s.params
  regCount : t.x.length = s.x.length
  runState : t.runState = s.runState
  faultCause : t.faultCause = s.faultCause
  faultPc : t.faultPc = s.faultPc
  faultInfo : t.faultInfo = s.faultInfo
  pending : t.pending = s.pending
  prog : t.prog = s.prog
  obfMask : t.obfMask = s.obfMask
  extWindows : t.extWindows = s.extWindows
  hostAnswers : t.hostAnswers = s.hostAnswers
  rst : t.rst = s.rst

/-- The instruction fell through: `pc` is at the next instruction and `zf` and the rest of the record are as they were
(R192, `Fall`). -/
structure FallsThrough (f : Fields) (s t : State) : Prop where
  pc : t.pc = nextPc f s
  zf : t.zf = s.zf
  record : SameRecord s t

/-- The byte at `b` after `n` bytes were copied from `sa` to `da`, all read before any was written (R202). -/
def copiedByte (s : State) (sa da : Word) (n b : Nat) : Byte :=
  if da.toNat ≤ b ∧ b < da.toNat + n then s.byteAt (sa.toNat + (b - da.toNat)) else s.byteAt b

/-- `ADD`, `SUB`, `AND`, `XOR` with the operation `op` (R241): wherever both operands can be read and the destination
written, the destination's eight bytes become `op destination source`, and nothing else changes. -/
def ReadModifyWriteCompletes (mk : Fields → Instr) (op : Word → Word → Word) : Prop :=
  ∀ (f : Fields) (s : State) (sa da : Word), s.Built →
    sourceAddress f s = some sa → destinationAddress f s = some da →
    s.admitted sa 8 .read = true → s.admitted da 8 .read = true → s.admitted da 8 .write = true →
    ∃ t, exec (mk f) s = .next t ∧
      Stores s t da.toNat 8 (byteOf (op (s.wordAt da) (s.wordAt sa))) ∧
      t.wordAt da = op (s.wordAt da) (s.wordAt sa) ∧ FallsThrough f s t

/-- An outcome with the zero-flag of its next state blanked. -/
def eraseZf : Outcome → Outcome
  | .next t => .next { t with zf := false }
  | .fault r => .fault r
  | .refused r => .refused r

/-- A plain word is illegal (R131), read off its value as a number. -/
def IllegalPlain (p : Word) : Prop :=
  (p.toNat % 256 = 0 ∨ 14 ≤ p.toNat % 256) ∨ 2 ^ 23 ≤ p.toNat ∨
    (p.toNat / 2 ^ 19 % 16 = 0 ∨ 9 ≤ p.toNat / 2 ^ 19 % 16)

/-- The next state of the instruction is the fault `cause` with `info` (R306). -/
def TakesFault (o : Outcome) (s : State) (cause : FaultCause) (info : Word) : Prop :=
  o = .next { s with runState := .faulted, faultCause := cause, faultPc := s.pc, faultInfo := info }

/-! ## The operand-use table (R170), the data accesses (R69) and the fault table (R300) -/

/-- `RD` is checked (R170). -/
def checksRd : Opcode → Bool
  | .mov | .pop | .add | .sub | .and | .xor | .lea | .cmp => true
  | .push | .jmp | .jne | .call | .ret => false

/-- `RS` is checked when I = 0 (R170). -/
def readsSourceOperand : Opcode → Bool
  | .mov | .push | .add | .sub | .and | .xor | .lea | .cmp | .jmp | .jne | .call => true
  | .pop | .ret => false

/-- A data access (R66): its start address, width and kind. -/
structure DataAccess where
  addr : Word
  width : Nat
  kind : AccessKind
  deriving DecidableEq, Repr

/-- The working state an instruction's pointer reads see: PUSH has decremented `SP` (R174, R176). -/
def workingState (i : Instr) (s : State) : State :=
  if i.opcode = .push then s.setSp (s.spReg - BitVec.ofNat 64 i.fields.size) else s

/-- Where the source operand stands before dereferencing (R172); none if the instruction has none, its literal slot is
missing or its index names no register. -/
def sourcePlace (i : Instr) (s : State) : Option Word :=
  if i.opcode = .pop then some s.spReg
  else if readsSourceOperand i.opcode = false then none
  else if i.fields.imm then
    if s.pc.toNat + 1 < s.progLen then some (s.slotAddr (s.pc + 1#64)) else none
  else if i.fields.rs.toNat < s.params.nreg then some (s.regAddr i.fields.rs.toNat)
  else none

/-- Where the destination operand stands before dereferencing (R174); none as for the source. -/
def destinationPlace (i : Instr) (s : State) : Option Word :=
  if i.opcode = .push then some (s.spReg - BitVec.ofNat 64 i.fields.size)
  else if checksRd i.opcode = false then none
  else if i.fields.rd.toNat < s.params.nreg then some (s.regAddr i.fields.rd.toNat)
  else none

/-- The access of `n` bytes at an operand, if the operand has a place. -/
def accessAt (p : Option Word) (n : Nat) (k : AccessKind) : List DataAccess :=
  p.toList.map (fun a => ⟨a, n, k⟩)

/-- The pointer read of an operand whose dereference bit is set (R176): 8 bytes. -/
def pointerRead (bit : Bool) (p : Option Word) : List DataAccess :=
  if bit then accessAt p 8 .read else []

/-- The operand's address after dereferencing (R176). -/
def throughPointer (bit : Bool) (w : State) (p : Option Word) : Option Word :=
  p.map (fun a => if bit then w.wordAt a else a)

/-- The opcode's own accesses, with the widths of R69 and in the order of R302, 7. -/
def ownAccesses (o : Opcode) (size : Nat) (sa da : Option Word) : List DataAccess :=
  match o with
  | .mov | .push | .pop => accessAt sa size .read ++ accessAt da size .write
  | .add | .sub | .and | .xor => accessAt sa 8 .read ++ accessAt da 8 .read ++ accessAt da 8 .write
  | .cmp => accessAt sa 8 .read ++ accessAt da 8 .read
  | .lea => accessAt da 8 .write
  | .jmp | .jne | .call => accessAt sa 8 .read
  | .ret => []

/-- The data accesses an instruction makes, in order (R69, R302): the source pointer, the destination pointer, the opcode's
own. -/
def accesses (i : Instr) (s : State) : List DataAccess :=
  let w := workingState i s
  let src := sourcePlace i s
  let dst := destinationPlace i s
  pointerRead i.fields.dm.derefsSource src ++ pointerRead i.fields.dm.derefsDestination dst ++
    ownAccesses i.opcode i.fields.size (throughPointer i.fields.dm.derefsSource w src)
      (throughPointer i.fields.dm.derefsDestination w dst)

/-- When an instruction may raise a cause, and what it records (R300). ILLEGAL_INSTRUCTION is raised by fetch, not by an
instruction. INVALID_DEREFERENCE is raised by the first of the instruction's accesses that is not admitted. -/
def CauseFits (i : Instr) (s : State) (r : Raised) : Prop :=
  match r.cause with
  | .none => False
  | .illegalInstruction => False
  | .truncatedImmediate => i.fields.imm = true ∧ s.progLen ≤ s.pc.toNat + 1 ∧ r.info = s.pc
  | .invalidRegister =>
    (checksRd i.opcode = true ∧ s.params.nreg ≤ i.fields.rd.toNat ∧ r.info = i.fields.rd.setWidth 64) ∨
    (readsSourceOperand i.opcode = true ∧ i.fields.imm = false ∧ s.params.nreg ≤ i.fields.rs.toNat ∧
      r.info = i.fields.rs.setWidth 64)
  | .stackOverflow =>
    i.opcode = .push ∧ r.info = s.spReg ∧
      (s.spReg.toNat < s.params.stackBase + i.fields.size ∨ s.params.stackEnd < s.spReg.toNat)
  | .stackUnderflow =>
    i.opcode = .pop ∧ r.info = s.spReg ∧
      (s.spReg.toNat < s.params.stackBase ∨ s.params.stackEnd < s.spReg.toNat + i.fields.size)
  | .invalidDereference =>
    ((accesses i s).find? (fun d => !s.admitted d.addr d.width d.kind)).map DataAccess.addr = some r.info
  | .outOfBoundsJump =>
    (i.opcode = .jmp ∨ (i.opcode = .jne ∧ s.zf = false)) ∧ sourceValue i.fields s = .ok r.info ∧
      s.progLen < r.info.toNat
  | .invalidCall =>
    i.opcode = .call ∧ sourceValue i.fields s = .ok r.info ∧ s.hostAnswers.head? = some .noRoutine

/-! ## An assembler's operands in the encoded fields (R151, R152) -/

/-- The register an operand names. -/
def AsmOperand.register : AsmOperand → Option Nat
  | .reg k => some k
  | .ind k => some k
  | .imm _ => none
  | .abs _ => none

/-- The operand is one of the dereferenced forms `[Rk]`, `[#v]`. -/
def AsmOperand.dereferenced : AsmOperand → Bool
  | .reg _ => false
  | .ind _ => true
  | .imm _ => false
  | .abs _ => true

/-- The literal of an operand `#v`, `[#v]`. -/
def AsmOperand.literal : AsmOperand → Option AsmValue
  | .reg _ => none
  | .ind _ => none
  | .imm v => some v
  | .abs v => some v

/-- The destination operand `o` in the fields (R151). -/
structure DestinationEncoded (p : Params) (o : AsmOperand) (f : Fields) : Prop where
  register : o.register = some f.rd.toNat
  inRange : f.rd.toNat < p.nreg
  mode : f.dm.derefsDestination = o.dereferenced

/-- The source operand `o` in the fields, and the literal slot that follows (R151). -/
structure SourceEncoded (p : Params) (labels : List (List Char × Nat)) (o : AsmOperand) (f : Fields)
    (literal : Option Word) : Prop where
  register : f.imm = false → o.register = some f.rs.toNat ∧ f.rs.toNat < p.nreg
  mode : f.dm.derefsSource = o.dereferenced
  long : f.imm = o.literal.isSome
  value : literal = o.literal.bind (asmValue labels)

/-- The destination selector of a mnemonic that takes no destination (R152): register 0, not dereferenced. -/
structure NoDestination (f : Fields) : Prop where
  register : f.rd = 0
  mode : f.dm.derefsDestination = false

/-- The source selector of a mnemonic that takes no source (R152): register 0, not dereferenced, no literal. -/
structure NoSource (f : Fields) (literal : Option Word) : Prop where
  register : f.rs = 0
  mode : f.dm.derefsSource = false
  short : f.imm = false
  value : literal = none

/-- The operands of an instruction, destination first, in the encoded fields (R151, R152). -/
def OperandsEncoded (p : Params) (labels : List (List Char × Nat)) (a : AsmInstr) (f : Fields)
    (literal : Option Word) : Prop :=
  match checksRd a.op, readsSourceOperand a.op, a.operands with
  | true, true, [d, o] => DestinationEncoded p d f ∧ SourceEncoded p labels o f literal
  | true, false, [d] => DestinationEncoded p d f ∧ NoSource f literal
  | false, true, [o] => NoDestination f ∧ SourceEncoded p labels o f literal
  | false, false, [] => NoDestination f ∧ NoSource f literal
  | _, _, _ => False

/-- What an assembler refuses (R152): a wrong operand count, a destination that is no register form, a size outside 1..8,
a register index that names no register. -/
def AssemblerRefuses (p : Params) (a : AsmInstr) : Prop :=
  a.operands.length ≠ (if checksRd a.op then 1 else 0) + (if readsSourceOperand a.op then 1 else 0) ∨
  (checksRd a.op = true ∧ ∃ d rest, a.operands = d :: rest ∧ d.register = none) ∨
  (a.size < 1 ∨ 8 < a.size) ∨
  ∃ o ∈ a.operands, ∃ k, o.register = some k ∧ p.nreg ≤ k

/-! ## The invariant -/

/-- A byte of memory that may be listed: one of the stack buffer, or of external memory the platform admits. -/
def State.placed (s : State) (a : Nat) : Bool := s.inStack a || s.hostMayWrite a

/-- What every step keeps. -/
structure State.Inv (s : State) : Prop where
  /-- Memory is in its canonical form. -/
  memCanonical : Memory.wf s.mem = true
  /-- Memory lists bytes of the stack and of admitted external memory only (R40, R43). -/
  memPlaced : ∀ c ∈ s.mem, s.placed c.1 = true
  /-- The build is legal, the register file has `NREG` words, the program fits (R8, R30, R42). -/
  built : s.Built
  /-- `pc` is in `0 .. PROG_LEN` (R35). -/
  pcInProgram : s.pc.toNat ≤ s.progLen
  /-- A cause is recorded exactly in FAULTED (R38, R45). -/
  causeIffFaulted : s.faultCause ≠ .none ↔ s.runState = .faulted
  /-- Outside FAULTED the fault record is at its reset value (R38). -/
  noRecord : s.runState ≠ .faulted → s.faultPc = 0 ∧ s.faultInfo = 0
  /-- A pending native call is the request of the CALL at `pc`, uncommitted (R39). -/
  pendingIsCall : ∀ req, s.pending = some req →
    s.runState = .running ∧ ∃ f, s.decodeAtPc = .instr (.call f) ∧ callRequest f s = .ok req
  /-- While `rst` is asserted the core is as R46 leaves it, with no native call under way (R340). -/
  heldInReset : s.rst = true → s.pc = 0 ∧ s.runState = .running ∧ s.pending = none

end Sys2Proof.Machine
end

