-- ==== Sys2Proof/Certificates/Slice0/Obligations.lean ====
section
/-! DEFINITION. The statements for the provers. -/

open Sys2Proof Sys2Proof.Machine

/-! ## Encoding -/

/-- Decoding an encoded well-formed instruction gives it back, under every mask (R101, R104, R121). -/
def Obligations.DecodeOfEncode : Prop :=
  ∀ (mask : Word) (i : Instr), i.wf = true → decode mask (encode mask i) = .ok i

/-- Every legal stored word is the encoding of the well-formed instruction it decodes to (R104, R132). -/
def Obligations.EncodeOfDecode : Prop :=
  ∀ (mask w : Word) (i : Instr), decode mask w = .ok i → i.wf = true ∧ encode mask i = w

/-- R123, for the encoder block followed by the decoder block. -/
def Obligations.EncoderThenDecoder : Prop :=
  ∀ (mask : Word) (e : EncoderIn), 0x01 ≤ e.opc.toNat → e.opc.toNat ≤ 0x0D → 1 ≤ e.sizeIn →
    let d := decoderBlock mask (encoderBlock mask e).word
    d.illegal = false ∧ d.opc = e.opc ∧ d.sz.toNat = min e.sizeIn 8 ∧ d.dm = e.dmIn ∧ d.imm = decide (e.sel2 = 0) ∧
      d.rd.toNat = (e.sel1.toNat + 15) % 16 ∧ d.rs.toNat = (e.sel2.toNat + 15) % 16 ∧
      (1 ≤ e.sel1.toNat → d.rd.toNat = e.sel1.toNat - 1) ∧ (1 ≤ e.sel2.toNat → d.rs.toNat = e.sel2.toNat - 1)

/-- R115: when the encoder flags an error, and that a flagged word is illegal to the decoder. -/
def Obligations.EncoderErrorExactly : Prop :=
  ∀ (mask : Word) (e : EncoderIn),
    ((encoderBlock mask e).err = true ↔ e.sizeIn = 0 ∨ e.opc.toNat = 0 ∨ 0x0E ≤ e.opc.toNat) ∧
    (encoderBlock mask e).word = e.plain ^^^ mask ∧
    ((encoderBlock mask e).err = true → (decoderBlock mask (encoderBlock mask e).word).illegal = true)

/-- R131, R166: the fetch of a word raises ILLEGAL_INSTRUCTION, with the plain word, exactly when it is illegal; the
decoder block's output agrees. -/
def Obligations.IllegalWordExactly : Prop :=
  ∀ (s : State) (w : Word), s.rst = false → s.runState = .running → s.prog[s.pc.toNat]? = some w →
    (TakesFault (step s) s .illegalInstruction (w ^^^ s.obfMask) ↔ IllegalPlain (w ^^^ s.obfMask)) ∧
    ((decoderBlock s.obfMask w).illegal = true ↔ IllegalPlain (w ^^^ s.obfMask))

/-- A few words of 95_test_vectors.md decode to the instructions they stand for. -/
def Obligations.SpecWordsDecode : Prop :=
  decode 0 0x441F01 = .ok (.mov ⟨15, 1, .none, true, 8⟩) ∧
  decode 0 0x240F02 = .ok (.push ⟨15, 0, .none, true, 4⟩) ∧
  decode 0 0x421201 = .ok (.mov ⟨2, 1, .destination, false, 8⟩) ∧
  decode 0 0x232301 = .ok (.mov ⟨3, 2, .both, false, 4⟩) ∧
  decode 0 0x401205 = .ok (.sub ⟨2, 1, .none, false, 8⟩) ∧
  decode 0 0x41020B = .ok (.jne ⟨2, 0, .source, false, 8⟩) ∧
  decode 0 0x40000D = .ok (.ret ⟨0, 0, .none, false, 8⟩) ∧
  decode 0xA5A5A5A5A5A5A5A5 0xA5A5A5A5A5E1BAA4 = .ok (.mov ⟨15, 1, .none, true, 8⟩)

/-- R151, R152: the slots an assembler writes for an instruction are a word that decodes to its mnemonic, its size and its
operands' fields, `RD`, `RS`, `DM` and I, with the selectors of R152 for the operands it does not take, and then the
source's literal, if it has one, unmasked. -/
def Obligations.AssembledWordsDecode : Prop :=
  ∀ (p : Params) (mask : Word) (labels : List (List Char × Nat)) (a : AsmInstr) (slots : List Word), p.Legal →
    asmInstr p mask labels a = some slots →
    ∃ w literal i, slots = w :: literal.toList ∧ decode mask w = .ok i ∧ i.opcode = a.op ∧ i.fields.size = a.size ∧
      OperandsEncoded p labels a i.fields literal

/-- R152: what an assembler refuses. An instruction it does not refuse for one of these grounds it encodes. -/
def Obligations.AssemblerRefusesExactly : Prop :=
  ∀ (p : Params) (a : AsmInstr), asmEncoderIn p a = none ↔ AssemblerRefuses p a

/-- R154: an assembled program has two slots for every long-form instruction, and a label stands for the slot its line
begins at. -/
def Obligations.AssembledLabels : Prop :=
  ∀ (p : Params) (mask : Word) (ls : List AsmLine) (slots : List Word), p.Legal → assemble p mask ls = some slots →
    ∃ (n : AsmLine → Nat) (labels : List (List Char × Nat)), asmLabels p 0 ls = some labels ∧
      (∀ l ∈ ls, asmLineSlots p l = some (n l)) ∧
      slots.length = (ls.map n).sum ∧
      (∀ pre name i post, ls = pre ++ ⟨some name, i⟩ :: post →
        asmValue labels (.label name) = some (BitVec.ofNat 64 (pre.map n).sum)) ∧
      slots = (ls.map (fun l => (asmLine p mask labels l).getD [])).flatten

/-! ## Memory -/

/-- R66: when a data access is admitted, seen through the two access primitives. -/
def Obligations.AccessAdmission : Prop :=
  ∀ (s : State) (a : Word) (n : Nat), s.Built → 1 ≤ n → n ≤ 8 →
    (readBytes s a n ≠ .error ⟨.invalidDereference, a⟩ ↔ a.toNat + n ≤ 2 ^ 64 ∧
      ((s.params.regBase ≤ a.toNat ∧ a.toNat + n ≤ s.params.regBase + 8 * s.params.nreg) ∨
       (s.params.stackBase ≤ a.toNat ∧ a.toNat + n ≤ s.params.stackEnd) ∨
       (s.params.progBase ≤ a.toNat ∧ a.toNat + n ≤ s.params.progBase + 8 * s.progLen) ∨
       (s.params.extBase ≤ a.toNat ∧ s.extAdmit a.toNat n = true))) ∧
    (∀ bs : List Byte, bs.length = n →
      (writeBytes s a bs ≠ .error ⟨.invalidDereference, a⟩ ↔ a.toNat + n ≤ 2 ^ 64 ∧
        ((s.params.regBase ≤ a.toNat ∧ a.toNat + n ≤ s.params.regBase + 8 * s.params.nreg) ∨
         (s.params.stackBase ≤ a.toNat ∧ a.toNat + n ≤ s.params.stackEnd) ∨
         (s.params.extBase ≤ a.toNat ∧ s.extAdmit a.toNat n = true))))

/-- R71. -/
def Obligations.WriteBytesStores : Prop :=
  ∀ (s : State) (a : Word) (bs : List Byte), s.Built → 1 ≤ bs.length → bs.length ≤ 8 →
    (s.admitted a bs.length .write = false → writeBytes s a bs = .error ⟨.invalidDereference, a⟩) ∧
    (s.admitted a bs.length .write = true → ∃ w, writeBytes s a bs = .ok w ∧
      (∀ k (h : k < bs.length), w.byteAt (a.toNat + k) = bs[k]) ∧
      (∀ b, b < a.toNat ∨ a.toNat + bs.length ≤ b → w.byteAt b = s.byteAt b))

/-- R72. -/
def Obligations.MemReadIsLittleEndianSum : Prop :=
  ∀ (s : State) (a : Word) (n : Nat), 1 ≤ n → n ≤ 8 →
    (s.admitted a n .read = false → memRead s a n = .error ⟨.invalidDereference, a⟩) ∧
    (s.admitted a n .read = true → ∃ v : Word, memRead s a n = .ok v ∧
      v.toNat = ∑ k ∈ Finset.range n, (s.byteAt (a.toNat + k)).toNat * 256 ^ k)

/-- R73: the low `n` bytes of the value are written, least significant first, and reading them back gives its low
`8 * n` bits. -/
def Obligations.MemWriteThenMemRead : Prop :=
  ∀ (s : State) (a v : Word) (n : Nat), s.Built → 1 ≤ n → n ≤ 8 → s.admitted a n .write = true →
    ∃ w, memWrite s a n v = .ok w ∧ (∀ k, k < n → (w.byteAt (a.toNat + k)).toNat = v.toNat / 256 ^ k % 256) ∧
      (∀ b, b < a.toNat ∨ a.toNat + n ≤ b → w.byteAt b = s.byteAt b) ∧
      memRead w a n = .ok (BitVec.ofNat 64 (v.toNat % 256 ^ n))

/-! ## Data movement -/

/-- MOV (R200, R202): wherever the source can be read and the destination written, SZ bytes are copied, each as it was
before the instruction, and nothing else changes. -/
def Obligations.MovCopiesBytes : Prop :=
  ∀ (f : Fields) (s : State) (sa da : Word), f.wf = true → s.Built →
    sourceAddress f s = some sa → destinationAddress f s = some da →
    s.admitted sa f.size .read = true → s.admitted da f.size .write = true →
    ∃ t, exec (.mov f) s = .next t ∧ Stores s t da.toNat f.size (fun k => s.byteAt (sa.toNat + k)) ∧ FallsThrough f s t

/-- R201: a MOV with SZ < 8 changes bytes `da .. da+SZ-1` only; where that is a register's address, the register's bytes
SZ..7 keep their old value. -/
def Obligations.MovPartialWidth : Prop :=
  ∀ (f : Fields) (s : State) (sa da : Word), f.wf = true → f.size < 8 → s.Built →
    sourceAddress f s = some sa → destinationAddress f s = some da →
    s.admitted sa f.size .read = true → s.admitted da f.size .write = true →
    ∃ t, exec (.mov f) s = .next t ∧
      (∀ b, b < da.toNat ∨ da.toNat + f.size ≤ b → t.byteAt b = s.byteAt b) ∧
      (∀ r, r < s.params.nreg → da = s.regAddr r → ∀ k, k < 8 → byteOf (t.reg r) k =
        if k < f.size then s.byteAt (sa.toNat + k) else byteOf (s.reg r) k)

/-- PUSH (R210, R214): in the working state `w` with `SP` decremented, SZ bytes are copied from the source to the new
stack top, or, when DM[1] is set, to where the 8-byte pointer stored at the new top points; nothing else changes but
`SP`, which stays decremented. -/
def Obligations.PushCopiesToNewTop : Prop :=
  ∀ (f : Fields) (s w : State) (top sa da : Word), f.wf = true → s.Built →
    s.params.stackBase + f.size ≤ s.spReg.toNat → s.spReg.toNat ≤ s.params.stackEnd →
    top = s.spReg - BitVec.ofNat 64 f.size → w = s.setSp top → sourceAddress f w = some sa →
    da = (if f.dm.derefsDestination then w.wordAt top else top) →
    (f.dm.derefsDestination = true → w.admitted top 8 .read = true) →
    w.admitted sa f.size .read = true → (f.dm.derefsDestination = true → w.admitted da f.size .write = true) →
    ∃ t, exec (.push f) s = .next t ∧ Stores w t da.toNat f.size (fun k => w.byteAt (sa.toNat + k)) ∧
      (f.dm.derefsDestination = false → t.spReg = top) ∧ FallsThrough f s t

/-- R213: PUSH SP pushes the decremented `SP`; PUSH [SP] pushes the old bytes at the new top, so it moves `SP` only. -/
def Obligations.PushSpPushesDecremented : Prop :=
  ∀ (f : Fields) (s : State) (top : Word), f.wf = true → s.Built →
    s.params.stackBase + f.size ≤ s.spReg.toNat → s.spReg.toNat ≤ s.params.stackEnd →
    f.imm = false → f.rs.toNat = s.params.sp → f.dm.derefsDestination = false → top = s.spReg - BitVec.ofNat 64 f.size →
    ∃ t, exec (.push f) s = .next t ∧ t.spReg = top ∧
      (∀ k, k < f.size → t.byteAt (top.toNat + k) =
        if f.dm.derefsSource then s.byteAt (top.toNat + k) else byteOf top k)

/-- R212: PUSH's stack-range check, before `SP` changes. -/
def Obligations.PushOverflowExactly : Prop :=
  ∀ (f : Fields) (s : State), literalPresent f s = true → (f.imm = false → f.rs.toNat < s.params.nreg) →
    (TakesFault (exec (.push f) s) s .stackOverflow s.spReg ↔
      s.spReg.toNat < s.params.stackBase + f.size ∨ s.params.stackEnd < s.spReg.toNat)

/-- POP (R220, R224): SZ bytes are copied from the stack top, or from where it points when DM[0] is set, and then `SP`,
read after that write, is incremented by SZ. -/
def Obligations.PopCopiesFromTop : Prop :=
  ∀ (f : Fields) (s : State) (sa da : Word), f.wf = true → s.Built → literalPresent f s = true →
    s.params.stackBase ≤ s.spReg.toNat → s.spReg.toNat + f.size ≤ s.params.stackEnd →
    sa = (if f.dm.derefsSource then s.wordAt s.spReg else s.spReg) →
    (f.dm.derefsSource = true → s.admitted s.spReg 8 .read = true) →
    destinationAddress f s = some da →
    (f.dm.derefsSource = true → s.admitted sa f.size .read = true) → s.admitted da f.size .write = true →
    ∃ t, exec (.pop f) s = .next t ∧
      (∀ b, b < (s.regAddr s.params.sp).toNat ∨ (s.regAddr s.params.sp).toNat + 8 ≤ b →
        t.byteAt b = copiedByte s sa da f.size b) ∧
      t.spReg = BitVec.ofNat 64 (leValue ((List.range 8).map (fun k =>
        copiedByte s sa da f.size ((s.regAddr s.params.sp).toNat + k)))) + BitVec.ofNat 64 f.size ∧
      FallsThrough f s t

/-- R223: POP SP. -/
def Obligations.PopSpAddsAfterWrite : Prop :=
  ∀ (f : Fields) (s : State), f.wf = true → s.Built → literalPresent f s = true →
    s.params.stackBase ≤ s.spReg.toNat → s.spReg.toNat + f.size ≤ s.params.stackEnd →
    f.rd.toNat = s.params.sp → f.dm = .none →
    ∃ (t : State) (v : Word), exec (.pop f) s = .next t ∧
      (∀ k, k < 8 → byteOf v k = if k < f.size then s.byteAt (s.spReg.toNat + k) else byteOf s.spReg k) ∧
      t.spReg = v + BitVec.ofNat 64 f.size ∧ (f.size = 8 → t.spReg = s.wordAt s.spReg + 8)

/-- R222: POP's stack-range check. -/
def Obligations.PopUnderflowExactly : Prop :=
  ∀ (f : Fields) (s : State), literalPresent f s = true → f.rd.toNat < s.params.nreg →
    (TakesFault (exec (.pop f) s) s .stackUnderflow s.spReg ↔
      s.spReg.toNat < s.params.stackBase ∨ s.params.stackEnd < s.spReg.toNat + f.size) ∧
    (f.wf = true → s.spReg.toNat = s.params.stackEnd → TakesFault (exec (.pop f) s) s .stackUnderflow s.spReg)

/-- The accesses of PUSH and POP fault in the order of R302, 6 and 7: the pointer at the stack top (R214, R224), the
source read, the destination write. -/
def Obligations.StackCopyFaultOrder : Prop :=
  (∀ (f : Fields) (s w : State) (top sa : Word), f.wf = true → s.Built →
    s.params.stackBase + f.size ≤ s.spReg.toNat → s.spReg.toNat ≤ s.params.stackEnd →
    top = s.spReg - BitVec.ofNat 64 f.size → w = s.setSp top → sourceAddress f w = some sa →
    (f.dm.derefsDestination = true → s.params.stackEnd < top.toNat + 8 →
      TakesFault (exec (.push f) s) s .invalidDereference top) ∧
    (f.dm.derefsDestination = false ∨ top.toNat + 8 ≤ s.params.stackEnd →
      (w.admitted sa f.size .read = false → TakesFault (exec (.push f) s) s .invalidDereference sa) ∧
      (w.admitted sa f.size .read = true → f.dm.derefsDestination = true →
        w.admitted (w.wordAt top) f.size .write = false →
        TakesFault (exec (.push f) s) s .invalidDereference (w.wordAt top)))) ∧
  (∀ (f : Fields) (s : State) (sa da : Word), f.wf = true → s.Built → literalPresent f s = true →
    s.params.stackBase ≤ s.spReg.toNat → s.spReg.toNat + f.size ≤ s.params.stackEnd →
    destinationAddress f s = some da →
    sa = (if f.dm.derefsSource then s.wordAt s.spReg else s.spReg) →
    (f.dm.derefsSource = true → s.params.stackEnd < s.spReg.toNat + 8 →
      TakesFault (exec (.pop f) s) s .invalidDereference s.spReg) ∧
    (f.dm.derefsSource = false ∨ s.spReg.toNat + 8 ≤ s.params.stackEnd →
      (f.dm.derefsSource = true → s.admitted sa f.size .read = false →
        TakesFault (exec (.pop f) s) s .invalidDereference sa) ∧
      (s.admitted sa f.size .read = true → s.admitted da f.size .write = false →
        TakesFault (exec (.pop f) s) s .invalidDereference da)))

/-- 90_conflicts.md C3: PUSH Ra then POP Rb, SZ = 8 and neither of them `SP`, moves Ra's value to Rb and restores `SP`. -/
def Obligations.PushThenPop : Prop :=
  ∀ (s : State) (a b d d' : BitVec 4), s.Built → a.toNat < s.params.sp → b.toNat < s.params.sp →
    s.params.stackBase + 8 ≤ s.spReg.toNat → s.spReg.toNat ≤ s.params.stackEnd →
    ∃ t u, exec (.push ⟨a, d, .none, false, 8⟩) s = .next t ∧ exec (.pop ⟨d', b, .none, false, 8⟩) t = .next u ∧
      u.reg b.toNat = s.reg a.toNat ∧ u.spReg = s.spReg ∧
      (∀ i, i < s.params.nreg → i ≠ b.toNat → u.reg i = s.reg i) ∧ u.pc = s.pc + 2 ∧ u.zf = s.zf

/-- LEA (R230, R231): all 64 bits of the source's address are written to the destination; the bytes at that address are
not read, so it need not be readable. -/
def Obligations.LeaWritesSourceAddress : Prop :=
  ∀ (f : Fields) (s : State) (sa da : Word), s.Built →
    sourceAddress f s = some sa → destinationAddress f s = some da → s.admitted da 8 .write = true →
    ∃ t, exec (.lea f) s = .next t ∧ Stores s t da.toNat 8 (byteOf sa) ∧ t.wordAt da = sa ∧ FallsThrough f s t

/-! ## Arithmetic and compare -/

/-- ADD, SUB, AND, XOR (R240, R241): the destination's eight bytes become destination op source, modulo 2^64. -/
def Obligations.ArithmeticStoresResult : Prop :=
  ReadModifyWriteCompletes .add (fun a b => BitVec.ofNat 64 (a.toNat + b.toNat)) ∧
  ReadModifyWriteCompletes .sub (fun a b => BitVec.ofNat 64 (2 ^ 64 + a.toNat - b.toNat)) ∧
  ReadModifyWriteCompletes .and (fun a b => a &&& b) ∧
  ReadModifyWriteCompletes .xor (fun a b => a ^^^ b)

/-- R247: SUB's corner cases and the ADD, SUB pair. -/
def Obligations.AddThenSub : Prop :=
  ∀ (s : State) (a b : BitVec 4) (n m : Nat), s.Built → a.toNat < s.params.nreg →
    b.toNat < s.params.nreg →
    (∃ t u, exec (.add ⟨b, a, .none, false, n⟩) s = .next t ∧ exec (.sub ⟨b, a, .none, false, m⟩) t = .next u ∧
      (a ≠ b → u.reg a.toNat = s.reg a.toNat) ∧
      (a = b → u.reg a.toNat = 0)) ∧
    (∃ t, exec (.sub ⟨a, a, .none, false, n⟩) s = .next t ∧ t.reg a.toNat = 0) ∧
    (s.reg a.toNat = 0 → s.reg b.toNat = 1 →
      ∃ t, exec (.sub ⟨b, a, .none, false, n⟩) s = .next t ∧
        (t.reg a.toNat).toNat = 2 ^ 64 - 1)

/-- CMP (R256): the zero-flag is 1 exactly when the two 64-bit values are equal; nothing is written. -/
def Obligations.CmpSetsZeroFlag : Prop :=
  ∀ (f : Fields) (s : State) (sa da : Word), s.Built →
    sourceAddress f s = some sa → destinationAddress f s = some da →
    s.admitted sa 8 .read = true → s.admitted da 8 .read = true →
    ∃ t, exec (.cmp f) s = .next t ∧ (t.zf = true ↔ s.wordAt da = s.wordAt sa) ∧ StoresNothing s t ∧
      t.pc = nextPc f s ∧ SameRecord s t

/-- R36: only CMP writes the zero-flag, only JNE reads it, and reset clears it. -/
def Obligations.ZeroFlagWritersAndReaders : Prop :=
  (∀ (i : Instr) (s t : State), i.opcode ≠ .cmp → exec i s = .next t → t.zf = s.zf) ∧
  (∀ (i : Instr) (s : State) (z : Bool), i.opcode ≠ .jne →
    eraseZf (exec i { s with zf := z }) = eraseZf (exec i s)) ∧
  ∀ p : Params, (State.resetOf p).zf = false

/-! ## Control transfer -/

/-- R272, for JMP and a taken JNE: the target's check, and where execution goes on. -/
def Obligations.JumpTargets : Prop :=
  ∀ (i : Instr) (f : Fields) (s : State) (sa t : Word), (i = .jmp f ∨ (i = .jne f ∧ s.zf = false)) → s.Built →
    sourceAddress f s = some sa → s.admitted sa 8 .read = true → t = s.wordAt sa →
    (s.progLen < t.toNat → TakesFault (exec i s) s .outOfBoundsJump t) ∧
    (t.toNat ≤ s.progLen → exec i s = .next { s with pc := t }) ∧
    (t.toNat = s.progLen → s.rst = false → s.runState = .running →
      step { s with pc := t } = .next { s with pc := t, runState := .halted }) ∧
    (∀ h : t.toNat < s.progLen, ({ s with pc := t } : State).fetchSlot = some (s.prog[t.toNat]))

/-- JNE not taken (R275, R277): it falls through, past its literal if it has one; no target range is checked. -/
def Obligations.JneNotTakenFallsThrough : Prop :=
  ∀ (f : Fields) (s : State) (sa : Word), s.Built → sourceAddress f s = some sa → s.admitted sa 8 .read = true →
    s.zf = true → exec (.jne f) s = .next { s with pc := s.pc + (if f.imm then 2 else 1) }

/-- CALL answered `Return(r, ext')` (R280, R281, R320): the result goes to `ACC`, the host's changes to external memory,
and nothing else changes. -/
def Obligations.CallTakesReturn : Prop :=
  ∀ (f : Fields) (s : State) (sa r : Word) (changes : List Host.Cell) (rest : List HostAnswer), s.Built →
    sourceAddress f s = some sa → s.admitted sa 8 .read = true → s.hostAnswers = .ret r changes :: rest →
    (∀ c ∈ changes, s.hostMayWrite c.1 = true) →
    ∃ t, exec (.call f) s = .next t ∧ t.reg 0 = r ∧ (∀ i, i ≠ 0 → t.reg i = s.reg i) ∧
      (∀ b, (b < s.params.regBase ∨ s.params.regBase + 8 ≤ b) → (∀ c ∈ changes, c.1 ≠ b) →
        t.byteAt b = s.byteAt b) ∧
      (∀ pre a v post, changes = pre ++ (a, v) :: post → (∀ c ∈ post, c.1 ≠ a) → t.byteAt a = v) ∧
      t.pc = nextPc f s ∧ t.zf = s.zf ∧ t.runState = s.runState ∧ t.faultCause = s.faultCause ∧
      t.faultPc = s.faultPc ∧ t.faultInfo = s.faultInfo ∧ t.params = s.params ∧ t.prog = s.prog ∧
      t.obfMask = s.obfMask ∧ t.extWindows = s.extWindows ∧ t.rst = s.rst ∧ t.pending = none ∧ t.hostAnswers = rest

/-- R160, R39: a CALL whose host does not answer completes no step: the core presents the request (R318), which changes
the pending call only, and completes none then either. Presenting the request as a move of its own is the
model's choice (notes/assumptions/6), and so is the list of answers that is empty here (notes/assumptions/5). -/
def Obligations.CallWithoutAnswerWaits : Prop :=
  ∀ (f : Fields) (s : State) (sa : Word), s.Built → s.rst = false → s.runState = .running →
    s.prog[s.pc.toNat]? = some (encode s.obfMask (.call f)) → f.wf = true →
    sourceAddress f s = some sa → s.admitted sa 8 .read = true → s.hostAnswers = [] →
    let t := { s with pending := some ⟨s.wordAt sa, (s.x.drop 1).take s.params.nargs⟩ }
    step s = .fault .waitingForHost ∧ s.presentRequest = some t ∧ step t = .fault .waitingForHost

/-- R160: the core waits on the host exactly at a CALL that presents a request. -/
def Obligations.CallWaitsExactly : Prop :=
  ∀ s : State, step s = .fault .waitingForHost ↔ ∃ t, s.presentRequest = some t

/-- A CALL that waited and is then answered ends as the same CALL answered at once. Presenting the request as a move of
its own is the model's choice (notes/assumptions/6), and so is the list the host's answer is put in
(notes/assumptions/5). -/
def Obligations.CallAnsweredLater : Prop :=
  ∀ (f : Fields) (s t u : State) (a : HostAnswer), s.rst = false → s.runState = .running →
    s.prog[s.pc.toNat]? = some (encode s.obfMask (.call f)) → f.wf = true → s.pending = none → s.hostAnswers = [] →
    s.presentRequest = some t → t.answerCall a = some u → step u = exec (.call f) { s with hostAnswers := [a] }

/-- CALL answered `NoRoutine` (R280, R300): INVALID_CALL with the identifier; nothing else of the core changes. -/
def Obligations.CallWithoutRoutineFaults : Prop :=
  ∀ (f : Fields) (s : State) (sa : Word) (rest : List HostAnswer), s.Built →
    sourceAddress f s = some sa → s.admitted sa 8 .read = true → s.hostAnswers = .noRoutine :: rest →
    exec (.call f) s = .next { s with runState := .faulted, faultCause := .invalidCall, faultPc := s.pc,
                                      faultInfo := s.wordAt sa, pending := none, hostAnswers := rest }

/-- The model's choice of notes/assumptions/7 (I9 `refuse`): an answer that changes a byte the host must not change has
no transition. -/
def Obligations.CallRefusesUnlawfulAnswer : Prop :=
  ∀ (f : Fields) (s : State) (sa r : Word) (changes : List Host.Cell) (rest : List HostAnswer), s.Built →
    sourceAddress f s = some sa → s.admitted sa 8 .read = true → s.hostAnswers = .ret r changes :: rest →
    (∃ c ∈ changes, s.hostMayWrite c.1 = false) → exec (.call f) s = .refused .hostBreaksDuties

/-- RET (R285, R286): HALTED with `pc` and everything else unchanged; with I = 1 and no literal slot,
TRUNCATED_IMMEDIATE instead. -/
def Obligations.RetHalts : Prop :=
  ∀ (f : Fields) (s : State),
    (literalPresent f s = true → exec (.ret f) s = .next { s with runState := .halted }) ∧
    (literalPresent f s = false → TakesFault (exec (.ret f) s) s .truncatedImmediate s.pc)

/-! ## Faults -/

/-- R168: every instruction with I = 1 and no literal slot; and no step takes `pc` past `PROG_LEN`. -/
def Obligations.TruncatedImmediate : Prop :=
  (∀ (i : Instr) (s : State), i.fields.imm = true → s.progLen ≤ s.pc.toNat + 1 →
    TakesFault (exec i s) s .truncatedImmediate s.pc) ∧
  (∀ s t : State, s.Built → s.pc.toNat ≤ s.progLen → step s = .next t → t.pc.toNat ≤ t.progLen)

/-- R171: RD first, then RS, by the operand-use table R170. -/
def Obligations.InvalidRegister : Prop :=
  ∀ (i : Instr) (s : State), literalPresent i.fields s = true →
    (checksRd i.opcode = true → s.params.nreg ≤ i.fields.rd.toNat →
      TakesFault (exec i s) s .invalidRegister (i.fields.rd.setWidth 64)) ∧
    ((checksRd i.opcode = true → i.fields.rd.toNat < s.params.nreg) → readsSourceOperand i.opcode = true →
      i.fields.imm = false → s.params.nreg ≤ i.fields.rs.toNat →
      TakesFault (exec i s) s .invalidRegister (i.fields.rs.setWidth 64))

/-- R302, 7: the opcode's own accesses fault in the order source read, destination read, destination write. -/
def Obligations.DataAccessFaultOrder : Prop :=
  ∀ (f : Fields) (s : State) (sa : Word), s.Built → sourceAddress f s = some sa →
    (s.admitted sa 8 .read = false → ∀ i ∈ [Instr.jmp f, .jne f, .call f],
      TakesFault (exec i s) s .invalidDereference sa) ∧
    (∀ da, destinationAddress f s = some da →
      (s.admitted sa f.size .read = false → TakesFault (exec (.mov f) s) s .invalidDereference sa) ∧
      (s.admitted sa f.size .read = true → s.admitted da f.size .write = false →
        TakesFault (exec (.mov f) s) s .invalidDereference da) ∧
      (s.admitted da 8 .write = false → TakesFault (exec (.lea f) s) s .invalidDereference da) ∧
      (s.admitted sa 8 .read = false → ∀ i ∈ [Instr.add f, .sub f, .and f, .xor f, .cmp f],
        TakesFault (exec i s) s .invalidDereference sa) ∧
      (s.admitted sa 8 .read = true → s.admitted da 8 .read = false →
        ∀ i ∈ [Instr.add f, .sub f, .and f, .xor f, .cmp f], TakesFault (exec i s) s .invalidDereference da) ∧
      (s.admitted sa 8 .read = true → s.admitted da 8 .read = true → s.admitted da 8 .write = false →
        ∀ i ∈ [Instr.add f, .sub f, .and f, .xor f], TakesFault (exec i s) s .invalidDereference da))

/-- R300: a step that ends in FAULTED does so for an illegal word, which it records, or by an instruction that may raise
the recorded cause on its condition, with its info: for INVALID_DEREFERENCE the start of the first of the instruction's
own accesses (R69, R302) that is not admitted; and the causes' codes. -/
def Obligations.FaultTable : Prop :=
  (∀ s t : State, step s = .next t → t.runState = .faulted →
    ∃ w, s.prog[s.pc.toNat]? = some w ∧
      ((t.faultCause = .illegalInstruction ∧ IllegalPlain (w ^^^ s.obfMask) ∧ t.faultInfo = w ^^^ s.obfMask) ∨
       ∃ i, decode s.obfMask w = .ok i ∧ CauseFits i s ⟨t.faultCause, t.faultInfo⟩)) ∧
  FaultCause.code .none = 0 ∧ FaultCause.code .illegalInstruction = 1 ∧ FaultCause.code .truncatedImmediate = 2 ∧
  FaultCause.code .invalidRegister = 3 ∧ FaultCause.code .stackOverflow = 4 ∧
  FaultCause.code .stackUnderflow = 5 ∧ FaultCause.code .invalidDereference = 6 ∧
  FaultCause.code .outOfBoundsJump = 7 ∧ FaultCause.code .invalidCall = 8

/-- R306: a step that ends in FAULTED changes the fault record only (and, for INVALID_CALL, takes the host's answer):
registers, stack, external memory, `zf` and `pc` keep their values, `fault_pc` is the slot of the instruction, and the
core has no further step. -/
def Obligations.FaultsArePrecise : Prop :=
  ∀ s t : State, step s = .next t → t.runState = .faulted →
    ∃ cause info, cause ≠ .none ∧
      t = { s with runState := .faulted, faultCause := cause, faultPc := s.pc, faultInfo := info,
                   pending := t.pending, hostAnswers := t.hostAnswers } ∧
      (cause ≠ .invalidCall → TakesFault (step s) s cause info) ∧ step t = .fault .faulted

/-! ## The step -/

/-- A step runs the instruction that the word at `pc` decodes to (R164, R194). -/
def Obligations.StepRunsDecoded : Prop :=
  ∀ (s : State) (w : Word) (i : Instr), s.rst = false → s.runState = .running →
    s.prog[s.pc.toNat]? = some w → decode s.obfMask w = .ok i → step s = exec i s

/-- R162: the halt transition changes `run_state` only; a program without slots halts at its first step. -/
def Obligations.HaltAtProgramEnd : Prop :=
  (∀ s : State, s.rst = false → s.runState = .running → s.progLen ≤ s.pc.toNat →
    step s = .next { s with runState := .halted }) ∧
  (∀ s : State, s.rst = false → s.runState = .running → s.prog = [] → step s = .next { s with runState := .halted })

/-- R161: HALTED and FAULTED have no step, and no move of the host but reset leaves them. -/
def Obligations.TerminalStates : Prop :=
  ∀ s : State, (s.runState = .halted ∨ s.runState = .faulted) →
    (∀ t, step s ≠ .next t) ∧ (∀ stack, (s.assertReset stack).runState = .running) ∧
    s.releaseReset.runState = s.runState ∧ s.presentRequest = none ∧
    (∀ slots t, s.loadProgram slots = some t → t.runState = s.runState) ∧
    (∀ cells t, s.loadExternal cells = some t → t.runState = s.runState) ∧
    (∀ a t, s.answerCall a = some t → t.runState = s.runState)

/-- R198: the run-state machine. A step leaves RUNNING for HALTED exactly at the end of the program and at a RET that
does not fault; a step into FAULTED records a cause and the slot, any other step leaves the fault record alone. -/
def Obligations.RunStateMachine : Prop :=
  ∀ s t : State, step s = .next t → s.runState = .running ∧
    (t.runState = .halted ↔ s.progLen ≤ s.pc.toNat ∨
      ∃ w f, s.prog[s.pc.toNat]? = some w ∧ decode s.obfMask w = .ok (.ret f) ∧ literalPresent f s = true) ∧
    (t.runState = .faulted → t.faultCause ≠ .none ∧ t.faultPc = s.pc ∧ s.pc.toNat < s.progLen) ∧
    (t.runState ≠ .faulted → t.faultCause = s.faultCause ∧ t.faultPc = s.faultPc ∧ t.faultInfo = s.faultInfo)

/-- No step writes program memory, `PROG_LEN`, the build's parameters, the mask, the platform or `rst`; the host loads a
program only while reset is asserted (R41, R42, R81). -/
def Obligations.ProgramIsReadOnly : Prop :=
  (∀ s t : State, step s = .next t →
    t.prog = s.prog ∧ t.params = s.params ∧ t.obfMask = s.obfMask ∧ t.extWindows = s.extWindows ∧ t.rst = s.rst) ∧
  (∀ (s t : State) (slots : List Word), s.loadProgram slots = some t →
    s.rst = true ∧ slots.length ≤ s.params.progMaxSlots)

/-- A step changes a byte of the data address space only in the register window, in the stack buffer, or in external
memory that the platform admits (R61, R66, R77). -/
def Obligations.StepChangesWritableBytesOnly : Prop :=
  ∀ (s t : State) (b : Nat), s.Built → step s = .next t → t.byteAt b ≠ s.byteAt b →
    (s.params.regBase ≤ b ∧ b < s.params.regBase + 8 * s.params.nreg) ∨
    (s.params.stackBase ≤ b ∧ b < s.params.stackEnd) ∨ (s.params.extBase ≤ b ∧ s.hostMayWrite b = true)

/-- Every step keeps the invariant: memory canonical and in its places, the program bounded, `pc` in `0 .. PROG_LEN`
(R35), the fault record consistent (R38), a pending call the CALL at `pc` (R39). -/
def Obligations.StepKeepsInvariant : Prop :=
  ∀ s t : State, s.Inv → step s = .next t → t.Inv

/-- The state after reset has the invariant, in this hardware and in every legal build. -/
def Obligations.ResetHasInvariant : Prop := State.reset.Inv ∧ ∀ p : Params, p.Legal → (State.resetOf p).Inv

/-! ## Reset and the host -/

/-- R46: the reset values, of the state after reset and of asserting `rst` in any state; what reset does not change; and
the values of R8 in this hardware. -/
def Obligations.ResetValues : Prop :=
  State.reset = State.resetOf ⟨8, 4096, 0x1000, 0x10000, 0x100000, 65536, 0x100000000⟩ ∧
  ∀ (s : State) (stack : List Byte), s.params.Legal →
    (∀ r ∈ [State.resetOf s.params, s.assertReset stack],
      r.params = s.params ∧ r.x.length = s.params.nreg ∧ (∀ i, i ≠ s.params.sp → r.reg i = 0) ∧
        r.spReg = BitVec.ofNat 64 s.params.stackEnd ∧ r.pc = 0 ∧ r.zf = false ∧ r.runState = .running ∧
        r.faultCause = .none ∧ r.faultPc = 0 ∧ r.faultInfo = 0 ∧ r.pending = none) ∧
    (s.assertReset stack).prog = s.prog ∧ (s.assertReset stack).progLen = s.progLen ∧
    (∀ b, s.params.extBase ≤ b → (s.assertReset stack).byteAt b = s.byteAt b)

/-- R340, R342: while `rst` is asserted there is no step; program memory, `PROG_LEN` and external memory are not changed;
a pending native call is abandoned and cannot be answered. -/
def Obligations.ResetInAnyState : Prop :=
  ∀ (s : State) (stack : List Byte), s.params.Legal → step (s.assertReset stack) = .fault .heldInReset ∧
    (s.assertReset stack).prog = s.prog ∧ (s.assertReset stack).progLen = s.progLen ∧
    (∀ b, s.params.extBase ≤ b → (s.assertReset stack).byteAt b = s.byteAt b) ∧
    (s.assertReset stack).pending = none ∧ (s.assertReset stack).presentRequest = none ∧
    (∀ a, (s.assertReset stack).answerCall a = none) ∧
    (∀ a, ((s.assertReset stack).releaseReset).answerCall a = none)

/-- R341: released from reset, the core is RUNNING at slot 0, with `SP` at the end of the stack; its first step runs
slot 0's instruction, or halts at once when there is no program. -/
def Obligations.EntryPoint : Prop :=
  ∀ (s r : State) (stack : List Byte), s.params.Legal → r = (s.assertReset stack).releaseReset →
    r.rst = false ∧ r.runState = .running ∧ r.pc = 0 ∧
    r.spReg = BitVec.ofNat 64 s.params.stackEnd ∧
    (s.progLen = 0 → step r = .next { r with runState := .halted }) ∧
    (∀ w i, s.prog[0]? = some w → decode s.obfMask w = .ok i → step r = exec i r)

/-- The boot order R350 from a state with the invariant gives a state with the invariant, RUNNING at slot 0 of the loaded
program (R341), its launch bytes in the stack. -/
def Obligations.BootStartsProgram : Prop :=
  ∀ (s t : State) (stack : List Byte) (slots : List Word) (external : List Host.Cell), s.Inv →
    s.boot stack slots external = some t →
    t.Inv ∧ t.prog = slots ∧ t.pc = 0 ∧ t.runState = .running ∧ t.rst = false ∧ t.fetchSlot = slots.head? ∧
      (∀ k, k < s.params.stackSize → t.byteAt (s.params.stackBase + k) = stack.getD k 0)

/-- R45: the fields of `STATUS`. -/
def Obligations.StatusFields : Prop :=
  ∀ s : State, s.Inv →
    s.hostRead 0 = some s.statusWord ∧
    s.statusWord.toNat % 4 = (match s.runState with | .running => 0 | .halted => 1 | .faulted => 2) ∧
    s.statusWord.toNat / 4 % 4 = 0 ∧
    s.statusWord.toNat / 16 % 16 = (match s.faultCause with
      | .none => 0 | .illegalInstruction => 1 | .truncatedImmediate => 2 | .invalidRegister => 3 | .stackOverflow => 4
      | .stackUnderflow => 5 | .invalidDereference => 6 | .outOfBoundsJump => 7 | .invalidCall => 8) ∧
    (s.statusWord.toNat / 16 % 16 ≠ 0 → s.runState = .faulted) ∧
    (s.statusWord.toNat / 256 % 2 = 1 ↔ s.zf = true) ∧ s.statusWord.toNat < 512

/-- The other status words of R44. -/
def Obligations.StatusWords : Prop :=
  ∀ s : State, s.hostRead 1 = some s.pc ∧ s.hostRead 2 = some s.faultPc ∧ s.hostRead 3 = some s.faultInfo ∧
    s.hostRead 4 = some (BitVec.ofNat 64 s.progLen) ∧
    (∀ i, i < s.params.nreg → s.hostRead (5 + i) = some (s.reg i)) ∧
    (∀ n, 5 + s.params.nreg ≤ n → s.hostRead n = none)

/-- The moves at the core's ports keep the invariant (R322): reset, program load, release, external memory written while the core is
not running (R43), the request of a CALL that waits and the host's answer to it (R318, R320). -/
def Obligations.HostMovesKeepInvariant : Prop :=
  ∀ s : State, s.Inv →
    (∀ stack, (s.assertReset stack).Inv) ∧ (∀ slots t, s.loadProgram slots = some t → t.Inv) ∧ s.releaseReset.Inv ∧
    (∀ cells t, s.loadExternal cells = some t → t.Inv) ∧ (∀ t, s.presentRequest = some t → t.Inv) ∧
    (∀ a t, s.answerCall a = some t → t.Inv)

/-- `withFetchWord` stores an instruction where the next step runs it (the model's own loader, notes/assumptions/15). -/
def Obligations.StoredWordRunsNext : Prop :=
  ∀ (s : State) (w : Word) (i : Instr), decodePlain w = .ok i →
    step (s.withFetchWord 64 w.toNat) = exec i (s.withFetchWord 64 w.toNat) ∧
    decodeTableWord 64 w.toNat = some i
end

