-- ==== Sys2Proof/Laws/Bytes.lean ====
section
/-! SUPPORT. Bytes of a word and little-endian values (20_memory.md R62, R67, R72, R73). -/

namespace Sys2Proof.Machine

theorem getLsbD_byteOf (v : Word) (k i : Nat) : (byteOf v k).getLsbD i = (decide (i < 8) && v.getLsbD (8 * k + i)) := by
  simp [byteOf, BitVec.getLsbD_extractLsb']

theorem getLsbD_withByte (v : Word) (k : Nat) (b : Byte) (i : Nat) (hk : k < 8) (hi : i < 64) :
    (withByte v k b).getLsbD i = if 8 * k ≤ i ∧ i < 8 * k + 8 then b.getLsbD (i - 8 * k) else v.getLsbD i := by
  have hff : ∀ j, j < 64 → (0xFF#64).getLsbD j = decide (j < 8) := by decide
  simp only [withByte, BitVec.getLsbD_or, BitVec.getLsbD_and, BitVec.getLsbD_not, BitVec.getLsbD_shiftLeft,
    BitVec.getLsbD_setWidth, hi]
  by_cases h1 : 8 * k ≤ i
  · have hj : i - 8 * k < 64 := by omega
    rw [hff _ hj]
    by_cases h2 : i < 8 * k + 8
    · have : i - 8 * k < 8 := by omega
      have : ¬ i < 8 * k := by omega
      simp [*]
    · have : ¬ i - 8 * k < 8 := by omega
      have : ¬ i < 8 * k := by omega
      have hb : b.getLsbD (i - 8 * k) = false := BitVec.getLsbD_of_ge _ _ (by omega)
      simp [*]
  · have : i < 8 * k := by omega
    simp [*]

@[simp] theorem byteOf_withByte_same (v : Word) {k : Nat} (b : Byte) (hk : k < 8) : byteOf (withByte v k b) k = b := by
  refine BitVec.eq_of_getLsbD_eq fun i hi => ?_
  have h1 : 8 * k + i < 64 := by omega
  rw [getLsbD_byteOf, getLsbD_withByte _ _ _ _ hk h1]
  simp [hi, show 8 * k + i - 8 * k = i by omega]

theorem byteOf_withByte_ne (v : Word) {j k : Nat} (b : Byte) (hj : j < 8) (hk : k < 8) (h : j ≠ k) :
    byteOf (withByte v k b) j = byteOf v j := by
  refine BitVec.eq_of_getLsbD_eq fun i hi => ?_
  have h1 : 8 * j + i < 64 := by omega
  rw [getLsbD_byteOf, getLsbD_byteOf, getLsbD_withByte _ _ _ _ hk h1, if_neg (by omega)]

/-- A word is its eight bytes. -/
theorem word_ext {v w : Word} (h : ∀ k, k < 8 → byteOf v k = byteOf w k) : v = w := by
  refine BitVec.eq_of_getLsbD_eq fun i hi => ?_
  have hk : i / 8 < 8 := by omega
  have e : 8 * (i / 8) + i % 8 = i := by omega
  have hb : (byteOf v (i / 8)).getLsbD (i % 8) = (byteOf w (i / 8)).getLsbD (i % 8) := by rw [h _ hk]
  rw [getLsbD_byteOf, getLsbD_byteOf, e, decide_eq_true (Nat.mod_lt i (by decide))] at hb
  simpa using hb

theorem byteOf_toNat (v : Word) (k : Nat) : (byteOf v k).toNat = v.toNat / 256 ^ k % 256 := by
  rw [byteOf, BitVec.extractLsb'_toNat, Nat.shiftRight_eq_div_pow, Nat.pow_mul]

/-! ## Little-endian values -/

theorem leValue_lt (bs : List Byte) : leValue bs < 256 ^ bs.length := by
  induction bs with
  | nil => simp [leValue]
  | cons b bs ih =>
    have := b.isLt
    simp only [leValue, List.length_cons, Nat.pow_succ]
    omega

/-- The value as the sum of R67. -/
theorem leValue_map_range (g : Nat → Byte) (n : Nat) :
    leValue ((List.range n).map g) = ∑ k ∈ Finset.range n, (g k).toNat * 256 ^ k := by
  induction n generalizing g with
  | zero => simp [leValue]
  | succ n ih =>
    rw [List.range_succ_eq_map, List.map_cons, List.map_map, leValue, ih, Finset.sum_range_succ', Finset.mul_sum]
    simp only [Function.comp, Nat.pow_zero, Nat.mul_one, Nat.pow_succ]
    rw [Nat.add_comm]
    congr 1
    exact Finset.sum_congr rfl fun k _ => by ring

/-- Byte `k` of a little-endian value is the list's byte `k`. -/
theorem leValue_byte (g : Nat → Byte) (n k : Nat) (hk : k < n) :
    leValue ((List.range n).map g) / 256 ^ k % 256 = (g k).toNat := by
  induction k generalizing g n with
  | zero =>
    obtain ⟨m, rfl⟩ : ∃ m, n = m + 1 := ⟨n - 1, by omega⟩
    rw [List.range_succ_eq_map, List.map_cons, leValue]
    have := (g 0).isLt
    omega
  | succ k ih =>
    obtain ⟨m, rfl⟩ : ∃ m, n = m + 1 := ⟨n - 1, by omega⟩
    rw [List.range_succ_eq_map, List.map_cons, List.map_map, leValue, Nat.pow_succ, Nat.mul_comm (256 ^ k),
      ← Nat.div_div_eq_div_mul]
    have h0 := (g 0).isLt
    rw [show ((g 0).toNat + 256 * leValue (List.map (g ∘ Nat.succ) (List.range m))) / 256
        = leValue (List.map (g ∘ Nat.succ) (List.range m)) by omega]
    exact ih (g ∘ Nat.succ) m (by omega)

/-- Byte `k` of the word read from eight bytes. -/
theorem byteOf_leWord (g : Nat → Byte) {k : Nat} (hk : k < 8) :
    byteOf (BitVec.ofNat 64 (leValue ((List.range 8).map g))) k = g k := by
  apply BitVec.eq_of_toNat_eq
  have hlt : leValue ((List.range 8).map g) < 2 ^ 64 := by
    have := leValue_lt ((List.range 8).map g)
    simpa using this
  rw [byteOf_toNat, BitVec.toNat_ofNat, Nat.mod_eq_of_lt hlt, leValue_byte g 8 k hk]

/-- Reading back the eight bytes of a word. -/
@[simp] theorem leWord_byteOf (v : Word) : BitVec.ofNat 64 (leValue ((List.range 8).map (byteOf v))) = v :=
  word_ext fun _ hk => byteOf_leWord (byteOf v) hk

@[simp] theorem leBytes_length (v : Word) (n : Nat) : (leBytes v n).length = n := by simp [leBytes]

end Sys2Proof.Machine
end

