-- ==== Sys2Proof/Laws/Decode.lean ====
section
/-! SUPPORT. Field extraction from an encoded word, one lemma per field of R104; opcodes, modes and sizes there and back. -/

namespace Sys2Proof

@[simp] theorem Opcode.ofValue_value (o : Opcode) : Opcode.ofValue o.value = some o := by cases o <;> rfl

theorem Opcode.value_of_ofValue {v : BitVec 8} {o : Opcode} (h : Opcode.ofValue v = some o) : o.value = v := by
  revert v
  cases o <;> decide

@[simp] theorem DerefMode.ofBits_bits (m : DerefMode) : DerefMode.ofBits m.bits = m := by cases m <;> rfl

@[simp] theorem DerefMode.bits_ofBits (b : BitVec 2) : (DerefMode.ofBits b).bits = b := by
  revert b
  decide

@[simp] theorem Instr.make_opcode_fields (i : Instr) : Instr.make i.opcode i.fields = i := by cases i <;> rfl

@[simp] theorem Instr.make_opcode (o : Opcode) (f : Fields) : (Instr.make o f).opcode = o := by cases o <;> rfl

@[simp] theorem Instr.make_fields (o : Opcode) (f : Fields) : (Instr.make o f).fields = f := by cases o <;> rfl

@[simp] theorem unmask_unmask (mask w : Word) : unmask mask (unmask mask w) = w := by
  simp [unmask]

@[simp] theorem unmask_encode (mask : Word) (i : Instr) : unmask mask (encode mask i) = encodePlain i := by
  simp [unmask, encode]

theorem opcField_encodePlain (i : Instr) : opcField (encodePlain i) = i.opcode.value := by
  refine BitVec.eq_of_getLsbD_eq fun k hk => ?_
  simp only [opcField, encodePlain, BitVec.getLsbD_extractLsb', BitVec.getLsbD_append, hk]
  simp [hk]

theorem rsField_encodePlain (i : Instr) : rsField (encodePlain i) = i.fields.rs := by
  refine BitVec.eq_of_getLsbD_eq fun k hk => ?_
  simp only [rsField, encodePlain, BitVec.getLsbD_extractLsb', BitVec.getLsbD_append, hk]
  simp [hk]

theorem rdField_encodePlain (i : Instr) : rdField (encodePlain i) = i.fields.rd := by
  refine BitVec.eq_of_getLsbD_eq fun k hk => ?_
  simp only [rdField, encodePlain, BitVec.getLsbD_extractLsb', BitVec.getLsbD_append, hk]
  simp [hk, show ¬ 12 + k < 8 by omega, show ¬ 12 + k - 8 < 4 by omega, show 12 + k - 8 - 4 = k by omega]

theorem dmField_encodePlain (i : Instr) : dmField (encodePlain i) = i.fields.dm.bits := by
  refine BitVec.eq_of_getLsbD_eq fun k hk => ?_
  simp only [dmField, encodePlain, BitVec.getLsbD_extractLsb', BitVec.getLsbD_append, hk]
  simp [hk, show ¬ 16 + k < 8 by omega, show ¬ 16 + k - 8 < 4 by omega, show ¬ 16 + k - 8 - 4 < 4 by omega,
    show 16 + k - 8 - 4 - 4 = k by omega]

theorem immField_encodePlain (i : Instr) : immField (encodePlain i) = i.fields.imm := by
  simp only [immField, encodePlain, BitVec.getLsbD_append]
  cases i.fields.imm <;> simp

theorem szField_encodePlain (i : Instr) : szField (encodePlain i) = BitVec.ofNat 4 i.fields.size := by
  refine BitVec.eq_of_getLsbD_eq fun k hk => ?_
  simp only [szField, encodePlain, BitVec.getLsbD_extractLsb', BitVec.getLsbD_append, hk]
  simp [hk, show ¬ 19 + k < 8 by omega, show ¬ 19 + k - 8 < 4 by omega, show ¬ 19 + k - 8 - 4 < 4 by omega,
    show ¬ 19 + k - 8 - 4 - 4 < 2 by omega, show ¬ 19 + k - 8 - 4 - 4 - 2 < 1 by omega,
    show 19 + k - 8 - 4 - 4 - 2 - 1 = k by omega]

theorem reservedField_encodePlain (i : Instr) : reservedField (encodePlain i) = 0 := by
  refine BitVec.eq_of_getLsbD_eq fun k hk => ?_
  simp only [reservedField, encodePlain, BitVec.getLsbD_extractLsb', BitVec.getLsbD_append, hk]
  simp [show ¬ 23 + k < 8 by omega, show ¬ 23 + k - 8 < 4 by omega, show ¬ 23 + k - 8 - 4 < 4 by omega,
    show ¬ 23 + k - 8 - 4 - 4 < 2 by omega, show ¬ 23 + k - 8 - 4 - 4 - 2 < 1 by omega,
    show ¬ 23 + k - 8 - 4 - 4 - 2 - 1 < 4 by omega]

/-- Two plain words with the same fields are the same word (R104). -/
theorem plain_ext {v w : Word} (h1 : opcField v = opcField w) (h2 : rsField v = rsField w)
    (h3 : rdField v = rdField w) (h4 : dmField v = dmField w) (h5 : immField v = immField w)
    (h6 : szField v = szField w) (h7 : reservedField v = reservedField w) : v = w := by
  refine BitVec.eq_of_getLsbD_eq fun k hk => ?_
  have bit : ∀ {n m : Nat}, v.extractLsb' n m = w.extractLsb' n m → n ≤ k → k < n + m → v.getLsbD k = w.getLsbD k := by
    intro n m he h1 h2
    have hb := congrArg (fun x => x.getLsbD (k - n)) he
    simp only [BitVec.getLsbD_extractLsb', show k - n < m by omega, decide_true, Bool.true_and,
      show n + (k - n) = k by omega] at hb
    exact hb
  by_cases c1 : k < 8
  · exact bit h1 (by omega) (by omega)
  by_cases c2 : k < 12
  · exact bit h2 (by omega) (by omega)
  by_cases c3 : k < 16
  · exact bit h3 (by omega) (by omega)
  by_cases c4 : k < 18
  · exact bit h4 (by omega) (by omega)
  by_cases c5 : k < 19
  · rw [show k = 18 by omega]; exact h5
  by_cases c6 : k < 23
  · exact bit h6 (by omega) (by omega)
  · exact bit h7 (by omega) (by omega)

/-- Everything decoding a plain word can answer (R121, R131). -/
theorem decodePlain_cases {p : Word} {i : Instr} (h : decodePlain p = .ok i) :
    Opcode.ofValue (opcField p) = some i.opcode ∧ i.fields = fieldsOf p ∧ reservedField p = 0 ∧
      1 ≤ (szField p).toNat ∧ (szField p).toNat ≤ 8 := by
  unfold decodePlain at h
  split at h
  · cases h
  · rename_i o ho
    split at h
    · cases h
    · rename_i hr
      split at h
      · cases h
      · rename_i hz
        have hi := Except.ok.inj h
        subst hi
        have hz0 : szField p ≠ 0 := fun e => hz (.inl e)
        have : (szField p).toNat ≠ 0 := fun e => hz0 (BitVec.eq_of_toNat_eq e)
        exact ⟨by simp [ho], by simp, by simpa using hr, by omega, by omega⟩

theorem decode_wf {mask w : Word} {i : Instr} (h : decode mask w = .ok i) : i.wf = true := by
  obtain ⟨-, hf, -, h1, h2⟩ := decodePlain_cases h
  simp [Instr.wf, Fields.wf, hf, fieldsOf, h1, h2]

end Sys2Proof
end

