-- ==== Sys2Proof/Laws/Memory.lean ====
section
/-! SUPPORT. Stack and external bytes: reading after a write, the canonical form, and what a write lists. -/

namespace Sys2Proof.Machine

/-! ## Reading after a write -/

theorem Memory.read_filter_same (m : Memory) (a : Nat) :
    Memory.read (m.filter (fun c => c.1 ≠ a)) a = Config.unlistedByte := by
  induction m with
  | nil => rfl
  | cons c m ih =>
    by_cases h : c.1 = a
    · simpa [List.filter_cons, h] using ih
    · have h' : ¬ a = c.1 := fun e => h e.symm
      simpa [List.filter_cons, h, Memory.read, h'] using ih

theorem Memory.read_filter_ne (m : Memory) {a b : Nat} (h : b ≠ a) :
    Memory.read (m.filter (fun c => c.1 ≠ a)) b = Memory.read m b := by
  induction m with
  | nil => rfl
  | cons c m ih =>
    by_cases hc : c.1 = a
    · have hb : ¬ b = c.1 := fun e => h (e.trans hc)
      simpa [List.filter_cons, hc, Memory.read, hb, h] using ih
    · by_cases hb : b = c.1
      · simp [hc, Memory.read, hb]
      · simpa [List.filter_cons, hc, Memory.read, hb] using ih

theorem Memory.read_insert_same (m : Memory) (a : Nat) (v : Byte) : Memory.read (Memory.insert m a v) a = v := by
  induction m with
  | nil => simp [Memory.insert, Memory.read]
  | cons c m ih =>
    obtain ⟨b, u⟩ := c
    unfold Memory.insert
    split
    · simp [Memory.read]
    · split
      · simp [Memory.read]
      · rename_i h
        simp [Memory.read, h, ih]

theorem Memory.read_insert_ne (m : Memory) {a b : Nat} (v : Byte) (h : b ≠ a) :
    Memory.read (Memory.insert m a v) b = Memory.read m b := by
  induction m with
  | nil => simp [Memory.insert, Memory.read, h]
  | cons c m ih =>
    obtain ⟨b', u⟩ := c
    unfold Memory.insert
    split
    · simp [Memory.read, h]
    · split
      · rename_i he
        have hb : ¬ b = b' := fun e => h (e.trans he.symm)
        simp [Memory.read, h, hb]
      · simp [Memory.read, ih]

@[simp] theorem Memory.read_write_same (m : Memory) (a : Nat) (v : Byte) : Memory.read (Memory.write m a v) a = v := by
  unfold Memory.write
  split
  · rename_i h; rw [Memory.read_filter_same, h]
  · exact Memory.read_insert_same m a v

theorem Memory.read_write_ne (m : Memory) {a b : Nat} (v : Byte) (h : b ≠ a) :
    Memory.read (Memory.write m a v) b = Memory.read m b := by
  unfold Memory.write
  split
  · exact Memory.read_filter_ne m h
  · exact Memory.read_insert_ne m v h

/-- An address that none of the cells names reads as before. -/
theorem Memory.read_writeCells_ne (cs : List Host.Cell) (m : Memory) {a : Nat} (h : ∀ c ∈ cs, c.1 ≠ a) :
    Memory.read (Memory.writeCells m cs) a = Memory.read m a := by
  induction cs generalizing m with
  | nil => rfl
  | cons c cs ih =>
    have hc : a ≠ c.1 := fun e => h c (by simp) e.symm
    have := ih (Memory.write m c.1 c.2) (fun d hd => h d (by simp [hd]))
    simpa [Memory.writeCells, Memory.read_write_ne m c.2 hc] using this

/-! ## What a write lists -/

theorem Memory.mem_insert {m : Memory} {a : Nat} {v : Byte} {c : Host.Cell} (h : c ∈ Memory.insert m a v) :
    c ∈ m ∨ c = (a, v) := by
  induction m with
  | nil => exact .inr (by simpa [Memory.insert] using h)
  | cons d m ih =>
    obtain ⟨b, u⟩ := d
    unfold Memory.insert at h
    split at h
    · rcases List.mem_cons.1 h with h | h
      · exact .inr h
      · exact .inl h
    · split at h
      · rcases List.mem_cons.1 h with h | h
        · exact .inr h
        · exact .inl (List.mem_cons_of_mem _ h)
      · rcases List.mem_cons.1 h with h | h
        · exact .inl (by simp [h])
        · exact (ih h).imp (List.mem_cons_of_mem _) id

theorem Memory.mem_write {m : Memory} {a : Nat} {v : Byte} {c : Host.Cell} (h : c ∈ Memory.write m a v) :
    c ∈ m ∨ c = (a, v) := by
  unfold Memory.write at h
  split at h
  · exact .inl (List.mem_filter.1 h).1
  · exact Memory.mem_insert h

theorem Memory.mem_writeCells {cs : List Host.Cell} {m : Memory} {c : Host.Cell} (h : c ∈ Memory.writeCells m cs) :
    c ∈ m ∨ c ∈ cs := by
  induction cs generalizing m with
  | nil => exact .inl h
  | cons d cs ih =>
    rcases ih (m := Memory.write m d.1 d.2) h with h | h
    · rcases Memory.mem_write h with h | h
      · exact .inl h
      · exact .inr (by simp [h])
    · exact .inr (List.mem_cons_of_mem _ h)

/-! ## The canonical form -/

theorem Memory.wf_iff (m : Memory) :
    Memory.wf m = true ↔ m.Pairwise (fun c d => c.1 < d.1) ∧ ∀ c ∈ m, c.2 ≠ Config.unlistedByte := by
  unfold Memory.wf
  rw [Bool.and_eq_true, decide_eq_true_iff, List.all_eq_true]
  exact and_congr_right fun _ => forall₂_congr fun _ _ => decide_eq_true_iff

@[simp] theorem Memory.wf_nil : Memory.wf [] = true := by simp [Memory.wf]

theorem Memory.wf_filter {m : Memory} (p : Host.Cell → Bool) (h : Memory.wf m = true) :
    Memory.wf (m.filter p) = true := by
  rw [Memory.wf_iff] at h ⊢
  exact ⟨h.1.filter p, fun c hc => h.2 c (List.mem_filter.1 hc).1⟩

theorem Memory.insert_pairwise {m : Memory} (a : Nat) (v : Byte) (h : m.Pairwise (fun c d => c.1 < d.1)) :
    (Memory.insert m a v).Pairwise (fun c d => c.1 < d.1) := by
  induction m with
  | nil => simp [Memory.insert]
  | cons c m ih =>
    obtain ⟨b, u⟩ := c
    obtain ⟨hb, hm⟩ := List.pairwise_cons.1 h
    unfold Memory.insert
    split
    · rename_i hab
      refine List.pairwise_cons.2 ⟨fun d hd => ?_, h⟩
      rcases List.mem_cons.1 hd with rfl | hd
      · exact hab
      · exact Nat.lt_trans hab (hb d hd)
    · split
      · rename_i he
        subst he
        exact List.pairwise_cons.2 ⟨hb, hm⟩
      · refine List.pairwise_cons.2 ⟨fun d hd => ?_, ih hm⟩
        rcases Memory.mem_insert hd with hd | rfl
        · exact hb d hd
        · show b < a
          omega

/-- Every write keeps the canonical form. -/
theorem Memory.wf_write {m : Memory} (a : Nat) (v : Byte) (h : Memory.wf m = true) :
    Memory.wf (Memory.write m a v) = true := by
  unfold Memory.write
  split
  · exact Memory.wf_filter _ h
  · rename_i hv
    rw [Memory.wf_iff] at h ⊢
    refine ⟨Memory.insert_pairwise a v h.1, fun c hc => ?_⟩
    rcases Memory.mem_insert hc with hc | rfl
    · exact h.2 c hc
    · exact hv

theorem Memory.wf_writeCells (cs : List Host.Cell) {m : Memory} (h : Memory.wf m = true) :
    Memory.wf (Memory.writeCells m cs) = true := by
  induction cs generalizing m with
  | nil => exact h
  | cons c cs ih => exact ih (m := Memory.write m c.1 c.2) (Memory.wf_write _ _ h)

/-- Two memories in canonical form that read alike everywhere are equal data. -/
theorem Memory.ext_of_wf {m m' : Memory} (h : Memory.wf m = true) (h' : Memory.wf m' = true)
    (e : ∀ a, Memory.read m a = Memory.read m' a) : m = m' := by
  have low : ∀ (m : Memory) (a : Nat), (∀ c ∈ m, a < c.1) → Memory.read m a = Config.unlistedByte := by
    intro m
    induction m with
    | nil => intros; rfl
    | cons c m ih =>
      intro a ha
      have : ¬ a = c.1 := Nat.ne_of_lt (ha c (by simp))
      simpa [Memory.read, this] using ih a (fun d hd => ha d (by simp [hd]))
  rw [Memory.wf_iff] at h h'
  induction m generalizing m' with
  | nil =>
    cases m' with
    | nil => rfl
    | cons c m' =>
      have := e c.1
      simp only [Memory.read, if_true] at this
      exact absurd this.symm (h'.2 c (by simp))
  | cons c m ih =>
    cases m' with
    | nil =>
      have := e c.1
      simp only [Memory.read, if_true] at this
      exact absurd this (h.2 c (by simp))
    | cons d m' =>
      obtain ⟨hc, hm⟩ := List.pairwise_cons.1 h.1
      obtain ⟨hd, hm'⟩ := List.pairwise_cons.1 h'.1
      have hcd : c.1 = d.1 := by
        rcases Nat.lt_trichotomy c.1 d.1 with hlt | heq | hgt
        · have := e c.1
          rw [low (d :: m') c.1 (by
            intro x hx
            rcases List.mem_cons.1 hx with rfl | hx
            · exact hlt
            · exact Nat.lt_trans hlt (hd x hx))] at this
          simp only [Memory.read, if_true] at this
          exact absurd this (h.2 c (by simp))
        · exact heq
        · have := e d.1
          rw [low (c :: m) d.1 (by
            intro x hx
            rcases List.mem_cons.1 hx with rfl | hx
            · exact hgt
            · exact Nat.lt_trans hgt (hc x hx))] at this
          simp only [Memory.read, if_true] at this
          exact absurd this.symm (h'.2 d (by simp))
      have hval : c.2 = d.2 := by
        have := e c.1
        simpa [Memory.read, hcd] using this
      have hcd' : c = d := Prod.ext hcd hval
      subst hcd'
      congr 1
      refine ih ⟨hm, fun x hx => h.2 x (by simp [hx])⟩ ⟨hm', fun x hx => h'.2 x (by simp [hx])⟩ fun a => ?_
      by_cases ha : a = c.1
      · rw [ha, low m c.1 hc, low m' c.1 hd]
      · have := e a
        simpa [Memory.read, ha] using this

end Sys2Proof.Machine
end

