-- ==== Sys2Proof/Laws/State.lean ====
section
/-! SUPPORT. The small lemmas of the updates of State: one per field per update, true by `rfl` (by one frame lemma for
`setByte` and for `setBytes`), so that no later proof unfolds a record update. -/

namespace Sys2Proof.Machine

variable (s : State)

/-! ### `setReg` -/

@[simp] theorem State.setReg_params (i : Nat) (v : Word) : (s.setReg i v).params = s.params := rfl
@[simp] theorem State.setReg_x (i : Nat) (v : Word) : (s.setReg i v).x = s.x.set i v := rfl
@[simp] theorem State.setReg_pc (i : Nat) (v : Word) : (s.setReg i v).pc = s.pc := rfl
@[simp] theorem State.setReg_zf (i : Nat) (v : Word) : (s.setReg i v).zf = s.zf := rfl
@[simp] theorem State.setReg_runState (i : Nat) (v : Word) : (s.setReg i v).runState = s.runState := rfl
@[simp] theorem State.setReg_faultCause (i : Nat) (v : Word) : (s.setReg i v).faultCause = s.faultCause := rfl
@[simp] theorem State.setReg_faultPc (i : Nat) (v : Word) : (s.setReg i v).faultPc = s.faultPc := rfl
@[simp] theorem State.setReg_faultInfo (i : Nat) (v : Word) : (s.setReg i v).faultInfo = s.faultInfo := rfl
@[simp] theorem State.setReg_pending (i : Nat) (v : Word) : (s.setReg i v).pending = s.pending := rfl
@[simp] theorem State.setReg_mem (i : Nat) (v : Word) : (s.setReg i v).mem = s.mem := rfl
@[simp] theorem State.setReg_prog (i : Nat) (v : Word) : (s.setReg i v).prog = s.prog := rfl
@[simp] theorem State.setReg_obfMask (i : Nat) (v : Word) : (s.setReg i v).obfMask = s.obfMask := rfl
@[simp] theorem State.setReg_extWindows (i : Nat) (v : Word) : (s.setReg i v).extWindows = s.extWindows := rfl
@[simp] theorem State.setReg_hostAnswers (i : Nat) (v : Word) : (s.setReg i v).hostAnswers = s.hostAnswers := rfl
@[simp] theorem State.setReg_rst (i : Nat) (v : Word) : (s.setReg i v).rst = s.rst := rfl

@[simp] theorem State.setReg_x_length (i : Nat) (v : Word) : (s.setReg i v).x.length = s.x.length := by simp

@[simp] theorem State.reg_setReg_same {i : Nat} (v : Word) (h : i < s.x.length) : (s.setReg i v).reg i = v := by
  simp [State.reg, h]

@[simp] theorem State.reg_setReg_ne {i j : Nat} (v : Word) (h : j ≠ i) : (s.setReg i v).reg j = s.reg j := by
  simp [State.reg, List.getElem?_set_ne h.symm]

/-- `x[j]` after `x[i] <- v`, for an index that names a register. -/
theorem State.reg_setReg {i : Nat} (j : Nat) (v : Word) (h : i < s.x.length) :
    (s.setReg i v).reg j = if j = i then v else s.reg j := by
  by_cases e : j = i
  · subst e; simp [h]
  · simp [e]

/-- `SP` names a register of every legal build. -/
theorem State.Built.sp_lt {s : State} (h : s.Built) : s.params.sp < s.x.length := by
  obtain ⟨⟨⟨h1, -⟩, -⟩, h2, -⟩ := h
  simp only [Params.sp]
  omega

theorem State.spReg_setSp {s : State} (h : s.Built) (v : Word) : (s.setSp v).spReg = v :=
  State.reg_setReg_same s v h.sp_lt

/-! ### `setSp` -/

@[simp] theorem State.setSp_params (v : Word) : (s.setSp v).params = s.params := rfl
@[simp] theorem State.setSp_x (v : Word) : (s.setSp v).x = s.x.set s.params.sp v := rfl
@[simp] theorem State.setSp_pc (v : Word) : (s.setSp v).pc = s.pc := rfl
@[simp] theorem State.setSp_zf (v : Word) : (s.setSp v).zf = s.zf := rfl
@[simp] theorem State.setSp_runState (v : Word) : (s.setSp v).runState = s.runState := rfl
@[simp] theorem State.setSp_faultCause (v : Word) : (s.setSp v).faultCause = s.faultCause := rfl
@[simp] theorem State.setSp_faultPc (v : Word) : (s.setSp v).faultPc = s.faultPc := rfl
@[simp] theorem State.setSp_faultInfo (v : Word) : (s.setSp v).faultInfo = s.faultInfo := rfl
@[simp] theorem State.setSp_pending (v : Word) : (s.setSp v).pending = s.pending := rfl
@[simp] theorem State.setSp_mem (v : Word) : (s.setSp v).mem = s.mem := rfl
@[simp] theorem State.setSp_prog (v : Word) : (s.setSp v).prog = s.prog := rfl
@[simp] theorem State.setSp_obfMask (v : Word) : (s.setSp v).obfMask = s.obfMask := rfl
@[simp] theorem State.setSp_extWindows (v : Word) : (s.setSp v).extWindows = s.extWindows := rfl
@[simp] theorem State.setSp_hostAnswers (v : Word) : (s.setSp v).hostAnswers = s.hostAnswers := rfl
@[simp] theorem State.setSp_rst (v : Word) : (s.setSp v).rst = s.rst := rfl

/-! ### `takeFault` -/

@[simp] theorem State.takeFault_params (r : Raised) : (s.takeFault r).params = s.params := rfl
@[simp] theorem State.takeFault_x (r : Raised) : (s.takeFault r).x = s.x := rfl
@[simp] theorem State.takeFault_pc (r : Raised) : (s.takeFault r).pc = s.pc := rfl
@[simp] theorem State.takeFault_zf (r : Raised) : (s.takeFault r).zf = s.zf := rfl
@[simp] theorem State.takeFault_runState (r : Raised) : (s.takeFault r).runState = .faulted := rfl
@[simp] theorem State.takeFault_faultCause (r : Raised) : (s.takeFault r).faultCause = r.cause := rfl
@[simp] theorem State.takeFault_faultPc (r : Raised) : (s.takeFault r).faultPc = s.pc := rfl
@[simp] theorem State.takeFault_faultInfo (r : Raised) : (s.takeFault r).faultInfo = r.info := rfl
@[simp] theorem State.takeFault_pending (r : Raised) : (s.takeFault r).pending = s.pending := rfl
@[simp] theorem State.takeFault_mem (r : Raised) : (s.takeFault r).mem = s.mem := rfl
@[simp] theorem State.takeFault_prog (r : Raised) : (s.takeFault r).prog = s.prog := rfl
@[simp] theorem State.takeFault_obfMask (r : Raised) : (s.takeFault r).obfMask = s.obfMask := rfl
@[simp] theorem State.takeFault_extWindows (r : Raised) : (s.takeFault r).extWindows = s.extWindows := rfl
@[simp] theorem State.takeFault_hostAnswers (r : Raised) : (s.takeFault r).hostAnswers = s.hostAnswers := rfl
@[simp] theorem State.takeFault_rst (r : Raised) : (s.takeFault r).rst = s.rst := rfl

/-! ### `takeIllegal` -/

@[simp] theorem State.takeIllegal_params (w : Word) : (s.takeIllegal w).params = s.params := rfl
@[simp] theorem State.takeIllegal_x (w : Word) : (s.takeIllegal w).x = s.x := rfl
@[simp] theorem State.takeIllegal_pc (w : Word) : (s.takeIllegal w).pc = s.pc := rfl
@[simp] theorem State.takeIllegal_zf (w : Word) : (s.takeIllegal w).zf = s.zf := rfl
@[simp] theorem State.takeIllegal_runState (w : Word) : (s.takeIllegal w).runState = .faulted := rfl
@[simp] theorem State.takeIllegal_faultCause (w : Word) : (s.takeIllegal w).faultCause = .illegalInstruction := rfl
@[simp] theorem State.takeIllegal_faultPc (w : Word) : (s.takeIllegal w).faultPc = s.pc := rfl
@[simp] theorem State.takeIllegal_faultInfo (w : Word) : (s.takeIllegal w).faultInfo = w := rfl
@[simp] theorem State.takeIllegal_pending (w : Word) : (s.takeIllegal w).pending = s.pending := rfl
@[simp] theorem State.takeIllegal_mem (w : Word) : (s.takeIllegal w).mem = s.mem := rfl
@[simp] theorem State.takeIllegal_prog (w : Word) : (s.takeIllegal w).prog = s.prog := rfl
@[simp] theorem State.takeIllegal_obfMask (w : Word) : (s.takeIllegal w).obfMask = s.obfMask := rfl
@[simp] theorem State.takeIllegal_extWindows (w : Word) : (s.takeIllegal w).extWindows = s.extWindows := rfl
@[simp] theorem State.takeIllegal_hostAnswers (w : Word) : (s.takeIllegal w).hostAnswers = s.hostAnswers := rfl
@[simp] theorem State.takeIllegal_rst (w : Word) : (s.takeIllegal w).rst = s.rst := rfl

/-! ### `advance, falling through` -/

@[simp] theorem advance_fall_params (f : Fields) : (advance f s .fall).params = s.params := rfl
@[simp] theorem advance_fall_x (f : Fields) : (advance f s .fall).x = s.x := rfl
@[simp] theorem advance_fall_pc (f : Fields) : (advance f s .fall).pc = s.pc + (if f.imm then 2#64 else 1#64) := rfl
@[simp] theorem advance_fall_zf (f : Fields) : (advance f s .fall).zf = s.zf := rfl
@[simp] theorem advance_fall_runState (f : Fields) : (advance f s .fall).runState = s.runState := rfl
@[simp] theorem advance_fall_faultCause (f : Fields) : (advance f s .fall).faultCause = s.faultCause := rfl
@[simp] theorem advance_fall_faultPc (f : Fields) : (advance f s .fall).faultPc = s.faultPc := rfl
@[simp] theorem advance_fall_faultInfo (f : Fields) : (advance f s .fall).faultInfo = s.faultInfo := rfl
@[simp] theorem advance_fall_pending (f : Fields) : (advance f s .fall).pending = s.pending := rfl
@[simp] theorem advance_fall_mem (f : Fields) : (advance f s .fall).mem = s.mem := rfl
@[simp] theorem advance_fall_prog (f : Fields) : (advance f s .fall).prog = s.prog := rfl
@[simp] theorem advance_fall_obfMask (f : Fields) : (advance f s .fall).obfMask = s.obfMask := rfl
@[simp] theorem advance_fall_extWindows (f : Fields) : (advance f s .fall).extWindows = s.extWindows := rfl
@[simp] theorem advance_fall_hostAnswers (f : Fields) : (advance f s .fall).hostAnswers = s.hostAnswers := rfl
@[simp] theorem advance_fall_rst (f : Fields) : (advance f s .fall).rst = s.rst := rfl

/-! ### `advance, a taken jump` -/

@[simp] theorem advance_jump_params (f : Fields) (t : Word) : (advance f s (.jump t)).params = s.params := rfl
@[simp] theorem advance_jump_x (f : Fields) (t : Word) : (advance f s (.jump t)).x = s.x := rfl
@[simp] theorem advance_jump_pc (f : Fields) (t : Word) : (advance f s (.jump t)).pc = t := rfl
@[simp] theorem advance_jump_zf (f : Fields) (t : Word) : (advance f s (.jump t)).zf = s.zf := rfl
@[simp] theorem advance_jump_runState (f : Fields) (t : Word) : (advance f s (.jump t)).runState = s.runState := rfl
@[simp] theorem advance_jump_faultCause (f : Fields) (t : Word) :
    (advance f s (.jump t)).faultCause = s.faultCause := rfl
@[simp] theorem advance_jump_faultPc (f : Fields) (t : Word) : (advance f s (.jump t)).faultPc = s.faultPc := rfl
@[simp] theorem advance_jump_faultInfo (f : Fields) (t : Word) :
    (advance f s (.jump t)).faultInfo = s.faultInfo := rfl
@[simp] theorem advance_jump_pending (f : Fields) (t : Word) : (advance f s (.jump t)).pending = s.pending := rfl
@[simp] theorem advance_jump_mem (f : Fields) (t : Word) : (advance f s (.jump t)).mem = s.mem := rfl
@[simp] theorem advance_jump_prog (f : Fields) (t : Word) : (advance f s (.jump t)).prog = s.prog := rfl
@[simp] theorem advance_jump_obfMask (f : Fields) (t : Word) : (advance f s (.jump t)).obfMask = s.obfMask := rfl
@[simp] theorem advance_jump_extWindows (f : Fields) (t : Word) :
    (advance f s (.jump t)).extWindows = s.extWindows := rfl
@[simp] theorem advance_jump_hostAnswers (f : Fields) (t : Word) :
    (advance f s (.jump t)).hostAnswers = s.hostAnswers := rfl
@[simp] theorem advance_jump_rst (f : Fields) (t : Word) : (advance f s (.jump t)).rst = s.rst := rfl

/-! ### `advance, halting` -/

@[simp] theorem advance_halt_params (f : Fields) : (advance f s .halt).params = s.params := rfl
@[simp] theorem advance_halt_x (f : Fields) : (advance f s .halt).x = s.x := rfl
@[simp] theorem advance_halt_pc (f : Fields) : (advance f s .halt).pc = s.pc := rfl
@[simp] theorem advance_halt_zf (f : Fields) : (advance f s .halt).zf = s.zf := rfl
@[simp] theorem advance_halt_runState (f : Fields) : (advance f s .halt).runState = .halted := rfl
@[simp] theorem advance_halt_faultCause (f : Fields) : (advance f s .halt).faultCause = s.faultCause := rfl
@[simp] theorem advance_halt_faultPc (f : Fields) : (advance f s .halt).faultPc = s.faultPc := rfl
@[simp] theorem advance_halt_faultInfo (f : Fields) : (advance f s .halt).faultInfo = s.faultInfo := rfl
@[simp] theorem advance_halt_pending (f : Fields) : (advance f s .halt).pending = s.pending := rfl
@[simp] theorem advance_halt_mem (f : Fields) : (advance f s .halt).mem = s.mem := rfl
@[simp] theorem advance_halt_prog (f : Fields) : (advance f s .halt).prog = s.prog := rfl
@[simp] theorem advance_halt_obfMask (f : Fields) : (advance f s .halt).obfMask = s.obfMask := rfl
@[simp] theorem advance_halt_extWindows (f : Fields) : (advance f s .halt).extWindows = s.extWindows := rfl
@[simp] theorem advance_halt_hostAnswers (f : Fields) : (advance f s .halt).hostAnswers = s.hostAnswers := rfl
@[simp] theorem advance_halt_rst (f : Fields) : (advance f s .halt).rst = s.rst := rfl

/-! ### `haltAtEnd` -/

@[simp] theorem State.haltAtEnd_params : (s.haltAtEnd).params = s.params := rfl
@[simp] theorem State.haltAtEnd_x : (s.haltAtEnd).x = s.x := rfl
@[simp] theorem State.haltAtEnd_pc : (s.haltAtEnd).pc = s.pc := rfl
@[simp] theorem State.haltAtEnd_zf : (s.haltAtEnd).zf = s.zf := rfl
@[simp] theorem State.haltAtEnd_runState : (s.haltAtEnd).runState = .halted := rfl
@[simp] theorem State.haltAtEnd_faultCause : (s.haltAtEnd).faultCause = s.faultCause := rfl
@[simp] theorem State.haltAtEnd_faultPc : (s.haltAtEnd).faultPc = s.faultPc := rfl
@[simp] theorem State.haltAtEnd_faultInfo : (s.haltAtEnd).faultInfo = s.faultInfo := rfl
@[simp] theorem State.haltAtEnd_pending : (s.haltAtEnd).pending = s.pending := rfl
@[simp] theorem State.haltAtEnd_mem : (s.haltAtEnd).mem = s.mem := rfl
@[simp] theorem State.haltAtEnd_prog : (s.haltAtEnd).prog = s.prog := rfl
@[simp] theorem State.haltAtEnd_obfMask : (s.haltAtEnd).obfMask = s.obfMask := rfl
@[simp] theorem State.haltAtEnd_extWindows : (s.haltAtEnd).extWindows = s.extWindows := rfl
@[simp] theorem State.haltAtEnd_hostAnswers : (s.haltAtEnd).hostAnswers = s.hostAnswers := rfl
@[simp] theorem State.haltAtEnd_rst : (s.haltAtEnd).rst = s.rst := rfl

/-! ### `takeReturn` -/

@[simp] theorem State.takeReturn_params (r : Word) (cs : List Host.Cell) (rest : List HostAnswer) :
    (s.takeReturn r cs rest).params = s.params := rfl
@[simp] theorem State.takeReturn_x (r : Word) (cs : List Host.Cell) (rest : List HostAnswer) :
    (s.takeReturn r cs rest).x = s.x.set Config.acc r := rfl
@[simp] theorem State.takeReturn_pc (r : Word) (cs : List Host.Cell) (rest : List HostAnswer) :
    (s.takeReturn r cs rest).pc = s.pc := rfl
@[simp] theorem State.takeReturn_zf (r : Word) (cs : List Host.Cell) (rest : List HostAnswer) :
    (s.takeReturn r cs rest).zf = s.zf := rfl
@[simp] theorem State.takeReturn_runState (r : Word) (cs : List Host.Cell) (rest : List HostAnswer) :
    (s.takeReturn r cs rest).runState = s.runState := rfl
@[simp] theorem State.takeReturn_faultCause (r : Word) (cs : List Host.Cell) (rest : List HostAnswer) :
    (s.takeReturn r cs rest).faultCause = s.faultCause := rfl
@[simp] theorem State.takeReturn_faultPc (r : Word) (cs : List Host.Cell) (rest : List HostAnswer) :
    (s.takeReturn r cs rest).faultPc = s.faultPc := rfl
@[simp] theorem State.takeReturn_faultInfo (r : Word) (cs : List Host.Cell) (rest : List HostAnswer) :
    (s.takeReturn r cs rest).faultInfo = s.faultInfo := rfl
@[simp] theorem State.takeReturn_pending (r : Word) (cs : List Host.Cell) (rest : List HostAnswer) :
    (s.takeReturn r cs rest).pending = none := rfl
@[simp] theorem State.takeReturn_mem (r : Word) (cs : List Host.Cell) (rest : List HostAnswer) :
    (s.takeReturn r cs rest).mem = Memory.writeCells s.mem cs := rfl
@[simp] theorem State.takeReturn_prog (r : Word) (cs : List Host.Cell) (rest : List HostAnswer) :
    (s.takeReturn r cs rest).prog = s.prog := rfl
@[simp] theorem State.takeReturn_obfMask (r : Word) (cs : List Host.Cell) (rest : List HostAnswer) :
    (s.takeReturn r cs rest).obfMask = s.obfMask := rfl
@[simp] theorem State.takeReturn_extWindows (r : Word) (cs : List Host.Cell) (rest : List HostAnswer) :
    (s.takeReturn r cs rest).extWindows = s.extWindows := rfl
@[simp] theorem State.takeReturn_hostAnswers (r : Word) (cs : List Host.Cell) (rest : List HostAnswer) :
    (s.takeReturn r cs rest).hostAnswers = rest := rfl
@[simp] theorem State.takeReturn_rst (r : Word) (cs : List Host.Cell) (rest : List HostAnswer) :
    (s.takeReturn r cs rest).rst = s.rst := rfl

/-! ### `releaseReset` -/

@[simp] theorem State.releaseReset_params : (s.releaseReset).params = s.params := rfl
@[simp] theorem State.releaseReset_x : (s.releaseReset).x = s.x := rfl
@[simp] theorem State.releaseReset_pc : (s.releaseReset).pc = s.pc := rfl
@[simp] theorem State.releaseReset_zf : (s.releaseReset).zf = s.zf := rfl
@[simp] theorem State.releaseReset_runState : (s.releaseReset).runState = s.runState := rfl
@[simp] theorem State.releaseReset_faultCause : (s.releaseReset).faultCause = s.faultCause := rfl
@[simp] theorem State.releaseReset_faultPc : (s.releaseReset).faultPc = s.faultPc := rfl
@[simp] theorem State.releaseReset_faultInfo : (s.releaseReset).faultInfo = s.faultInfo := rfl
@[simp] theorem State.releaseReset_pending : (s.releaseReset).pending = s.pending := rfl
@[simp] theorem State.releaseReset_mem : (s.releaseReset).mem = s.mem := rfl
@[simp] theorem State.releaseReset_prog : (s.releaseReset).prog = s.prog := rfl
@[simp] theorem State.releaseReset_obfMask : (s.releaseReset).obfMask = s.obfMask := rfl
@[simp] theorem State.releaseReset_extWindows : (s.releaseReset).extWindows = s.extWindows := rfl
@[simp] theorem State.releaseReset_hostAnswers : (s.releaseReset).hostAnswers = s.hostAnswers := rfl
@[simp] theorem State.releaseReset_rst : (s.releaseReset).rst = false := rfl

/-! ### `withFetchWord` -/

@[simp] theorem State.withFetchWord_params (n w : Nat) : (s.withFetchWord n w).params = s.params := rfl
@[simp] theorem State.withFetchWord_x (n w : Nat) : (s.withFetchWord n w).x = s.x := rfl
@[simp] theorem State.withFetchWord_pc (n w : Nat) : (s.withFetchWord n w).pc = s.pc := rfl
@[simp] theorem State.withFetchWord_zf (n w : Nat) : (s.withFetchWord n w).zf = s.zf := rfl
@[simp] theorem State.withFetchWord_runState (n w : Nat) : (s.withFetchWord n w).runState = .running := rfl
@[simp] theorem State.withFetchWord_faultCause (n w : Nat) : (s.withFetchWord n w).faultCause = s.faultCause := rfl
@[simp] theorem State.withFetchWord_faultPc (n w : Nat) : (s.withFetchWord n w).faultPc = s.faultPc := rfl
@[simp] theorem State.withFetchWord_faultInfo (n w : Nat) : (s.withFetchWord n w).faultInfo = s.faultInfo := rfl
@[simp] theorem State.withFetchWord_pending (n w : Nat) : (s.withFetchWord n w).pending = s.pending := rfl
@[simp] theorem State.withFetchWord_mem (n w : Nat) : (s.withFetchWord n w).mem = s.mem := rfl
@[simp] theorem State.withFetchWord_prog (n w : Nat) : (s.withFetchWord n w).prog = s.progWithWord n w := rfl
@[simp] theorem State.withFetchWord_obfMask (n w : Nat) : (s.withFetchWord n w).obfMask = s.obfMask := rfl
@[simp] theorem State.withFetchWord_extWindows (n w : Nat) : (s.withFetchWord n w).extWindows = s.extWindows := rfl
@[simp] theorem State.withFetchWord_hostAnswers (n w : Nat) : (s.withFetchWord n w).hostAnswers = s.hostAnswers := rfl
@[simp] theorem State.withFetchWord_rst (n w : Nat) : (s.withFetchWord n w).rst = false := rfl

/-! ### `assertReset` -/

@[simp] theorem State.assertReset_params (b : List Byte) : (s.assertReset b).params = s.params := rfl
@[simp] theorem State.assertReset_x (b : List Byte) : (s.assertReset b).x = (State.resetOf s.params).x := rfl
@[simp] theorem State.assertReset_pc (b : List Byte) : (s.assertReset b).pc = (State.resetOf s.params).pc := rfl
@[simp] theorem State.assertReset_zf (b : List Byte) : (s.assertReset b).zf = (State.resetOf s.params).zf := rfl
@[simp] theorem State.assertReset_runState (b : List Byte) :
    (s.assertReset b).runState = (State.resetOf s.params).runState := rfl
@[simp] theorem State.assertReset_faultCause (b : List Byte) :
    (s.assertReset b).faultCause = (State.resetOf s.params).faultCause := rfl
@[simp] theorem State.assertReset_faultPc (b : List Byte) :
    (s.assertReset b).faultPc = (State.resetOf s.params).faultPc := rfl
@[simp] theorem State.assertReset_faultInfo (b : List Byte) :
    (s.assertReset b).faultInfo = (State.resetOf s.params).faultInfo := rfl
@[simp] theorem State.assertReset_pending (b : List Byte) : (s.assertReset b).pending = none := rfl
@[simp] theorem State.assertReset_mem (b : List Byte) :
    (s.assertReset b).mem = Memory.writeCells (s.mem.filter (fun c => !s.inStack c.1)) (stackCells s.params b) := rfl
@[simp] theorem State.assertReset_prog (b : List Byte) : (s.assertReset b).prog = s.prog := rfl
@[simp] theorem State.assertReset_obfMask (b : List Byte) : (s.assertReset b).obfMask = s.obfMask := rfl
@[simp] theorem State.assertReset_extWindows (b : List Byte) : (s.assertReset b).extWindows = s.extWindows := rfl
@[simp] theorem State.assertReset_hostAnswers (b : List Byte) : (s.assertReset b).hostAnswers = [] := rfl
@[simp] theorem State.assertReset_rst (b : List Byte) : (s.assertReset b).rst = true := rfl

/-! ### `setByte` and `setBytes`: registers and memory apart -/

/-- Everything a byte's write can do: it changes registers, as many as before, or memory. -/
theorem State.setByte_frame (a : Nat) (v : Byte) :
    ∃ x m, x.length = s.x.length ∧ s.setByte a v = { s with x := x, mem := m } := by
  unfold State.setByte
  split
  · exact ⟨_, s.mem, List.length_set .., rfl⟩
  · exact ⟨s.x, _, rfl, rfl⟩

/-- The same of a write of several bytes. -/
theorem State.setBytes_frame (a : Nat) (bs : List Byte) :
    ∃ x m, x.length = s.x.length ∧ s.setBytes a bs = { s with x := x, mem := m } := by
  induction bs generalizing s a with
  | nil => exact ⟨s.x, s.mem, rfl, rfl⟩
  | cons b bs ih =>
    obtain ⟨x, m, h, e⟩ := s.setByte_frame a b
    obtain ⟨x', m', h', e'⟩ := ih (s.setByte a b) (a + 1)
    refine ⟨x', m', ?_, ?_⟩
    · rw [h', e, h]
    · rw [State.setBytes, e', e]

@[simp] theorem State.setByte_params (a : Nat) (v : Byte) : (s.setByte a v).params = s.params :=
  let ⟨_, _, _, e⟩ := s.setByte_frame a v; e ▸ rfl

@[simp] theorem State.setByte_x_length (a : Nat) (v : Byte) : (s.setByte a v).x.length = s.x.length :=
  let ⟨_, _, h, e⟩ := s.setByte_frame a v; e ▸ h

@[simp] theorem State.setByte_pc (a : Nat) (v : Byte) : (s.setByte a v).pc = s.pc :=
  let ⟨_, _, _, e⟩ := s.setByte_frame a v; e ▸ rfl

@[simp] theorem State.setByte_zf (a : Nat) (v : Byte) : (s.setByte a v).zf = s.zf :=
  let ⟨_, _, _, e⟩ := s.setByte_frame a v; e ▸ rfl

@[simp] theorem State.setByte_runState (a : Nat) (v : Byte) : (s.setByte a v).runState = s.runState :=
  let ⟨_, _, _, e⟩ := s.setByte_frame a v; e ▸ rfl

@[simp] theorem State.setByte_faultCause (a : Nat) (v : Byte) : (s.setByte a v).faultCause = s.faultCause :=
  let ⟨_, _, _, e⟩ := s.setByte_frame a v; e ▸ rfl

@[simp] theorem State.setByte_faultPc (a : Nat) (v : Byte) : (s.setByte a v).faultPc = s.faultPc :=
  let ⟨_, _, _, e⟩ := s.setByte_frame a v; e ▸ rfl

@[simp] theorem State.setByte_faultInfo (a : Nat) (v : Byte) : (s.setByte a v).faultInfo = s.faultInfo :=
  let ⟨_, _, _, e⟩ := s.setByte_frame a v; e ▸ rfl

@[simp] theorem State.setByte_pending (a : Nat) (v : Byte) : (s.setByte a v).pending = s.pending :=
  let ⟨_, _, _, e⟩ := s.setByte_frame a v; e ▸ rfl

@[simp] theorem State.setByte_prog (a : Nat) (v : Byte) : (s.setByte a v).prog = s.prog :=
  let ⟨_, _, _, e⟩ := s.setByte_frame a v; e ▸ rfl

@[simp] theorem State.setByte_obfMask (a : Nat) (v : Byte) : (s.setByte a v).obfMask = s.obfMask :=
  let ⟨_, _, _, e⟩ := s.setByte_frame a v; e ▸ rfl

@[simp] theorem State.setByte_extWindows (a : Nat) (v : Byte) : (s.setByte a v).extWindows = s.extWindows :=
  let ⟨_, _, _, e⟩ := s.setByte_frame a v; e ▸ rfl

@[simp] theorem State.setByte_hostAnswers (a : Nat) (v : Byte) : (s.setByte a v).hostAnswers = s.hostAnswers :=
  let ⟨_, _, _, e⟩ := s.setByte_frame a v; e ▸ rfl

@[simp] theorem State.setByte_rst (a : Nat) (v : Byte) : (s.setByte a v).rst = s.rst :=
  let ⟨_, _, _, e⟩ := s.setByte_frame a v; e ▸ rfl

@[simp] theorem State.setBytes_params (a : Nat) (bs : List Byte) : (s.setBytes a bs).params = s.params :=
  let ⟨_, _, _, e⟩ := s.setBytes_frame a bs; e ▸ rfl

@[simp] theorem State.setBytes_x_length (a : Nat) (bs : List Byte) : (s.setBytes a bs).x.length = s.x.length :=
  let ⟨_, _, h, e⟩ := s.setBytes_frame a bs; e ▸ h

@[simp] theorem State.setBytes_pc (a : Nat) (bs : List Byte) : (s.setBytes a bs).pc = s.pc :=
  let ⟨_, _, _, e⟩ := s.setBytes_frame a bs; e ▸ rfl

@[simp] theorem State.setBytes_zf (a : Nat) (bs : List Byte) : (s.setBytes a bs).zf = s.zf :=
  let ⟨_, _, _, e⟩ := s.setBytes_frame a bs; e ▸ rfl

@[simp] theorem State.setBytes_runState (a : Nat) (bs : List Byte) : (s.setBytes a bs).runState = s.runState :=
  let ⟨_, _, _, e⟩ := s.setBytes_frame a bs; e ▸ rfl

@[simp] theorem State.setBytes_faultCause (a : Nat) (bs : List Byte) : (s.setBytes a bs).faultCause = s.faultCause :=
  let ⟨_, _, _, e⟩ := s.setBytes_frame a bs; e ▸ rfl

@[simp] theorem State.setBytes_faultPc (a : Nat) (bs : List Byte) : (s.setBytes a bs).faultPc = s.faultPc :=
  let ⟨_, _, _, e⟩ := s.setBytes_frame a bs; e ▸ rfl

@[simp] theorem State.setBytes_faultInfo (a : Nat) (bs : List Byte) : (s.setBytes a bs).faultInfo = s.faultInfo :=
  let ⟨_, _, _, e⟩ := s.setBytes_frame a bs; e ▸ rfl

@[simp] theorem State.setBytes_pending (a : Nat) (bs : List Byte) : (s.setBytes a bs).pending = s.pending :=
  let ⟨_, _, _, e⟩ := s.setBytes_frame a bs; e ▸ rfl

@[simp] theorem State.setBytes_prog (a : Nat) (bs : List Byte) : (s.setBytes a bs).prog = s.prog :=
  let ⟨_, _, _, e⟩ := s.setBytes_frame a bs; e ▸ rfl

@[simp] theorem State.setBytes_obfMask (a : Nat) (bs : List Byte) : (s.setBytes a bs).obfMask = s.obfMask :=
  let ⟨_, _, _, e⟩ := s.setBytes_frame a bs; e ▸ rfl

@[simp] theorem State.setBytes_extWindows (a : Nat) (bs : List Byte) : (s.setBytes a bs).extWindows = s.extWindows :=
  let ⟨_, _, _, e⟩ := s.setBytes_frame a bs; e ▸ rfl

@[simp] theorem State.setBytes_hostAnswers (a : Nat) (bs : List Byte) :
    (s.setBytes a bs).hostAnswers = s.hostAnswers :=
  let ⟨_, _, _, e⟩ := s.setBytes_frame a bs; e ▸ rfl

@[simp] theorem State.setBytes_rst (a : Nat) (bs : List Byte) : (s.setBytes a bs).rst = s.rst :=
  let ⟨_, _, _, e⟩ := s.setBytes_frame a bs; e ▸ rfl

end Sys2Proof.Machine
end

