-- ==== Sys2Proof/Laws/Ops.lean ====
section
/-! SUPPORT. The data address space (20_memory.md): admission, bytes after a store, and one lemma per access primitive
that says what it does. -/

namespace Sys2Proof.Machine

/-! ## Congruence: what depends on what -/

theorem extAdmit_congr {s t : State} (h : t.extWindows = s.extWindows) (a n : Nat) : t.extAdmit a n = s.extAdmit a n := by
  simp [State.extAdmit, h]

theorem admitted_congr {s t : State} (hb : t.params = s.params) (hp : t.prog = s.prog)
    (hw : t.extWindows = s.extWindows) (a : Word) (n : Nat) (k : AccessKind) : t.admitted a n k = s.admitted a n k := by
  have hr : t.regionOf a.toNat n = s.regionOf a.toNat n := by
    simp [State.regionOf, State.regions, State.progLen, hp, hb]
  simp only [State.admitted, hr, State.regionServes, extAdmit_congr hw]

theorem hostMayWrite_congr {s t : State} (hb : t.params = s.params) (hw : t.extWindows = s.extWindows) (a : Nat) :
    t.hostMayWrite a = s.hostMayWrite a := by
  simp only [State.hostMayWrite, extAdmit_congr hw, hb]

theorem placed_congr {s t : State} (hb : t.params = s.params) (hw : t.extWindows = s.extWindows) (a : Nat) :
    t.placed a = s.placed a := by
  simp only [State.placed, hostMayWrite_congr hb hw, State.inStack, hb]

theorem byteAt_congr {s t : State} (hb : t.params = s.params) (hx : t.x = s.x) (hp : t.prog = s.prog)
    (hm : t.mem = s.mem) (a : Nat) : t.byteAt a = s.byteAt a := by
  simp [State.byteAt, State.inRegisters, State.regIndex, State.regByte, State.reg, State.inProgram, State.progLen, hb,
    hx, hp, hm]

/-- What keeps the parameters, the register count and the program keeps the state a legal build's. -/
theorem State.Built.congr {s t : State} (h : s.Built) (hb : t.params = s.params) (hx : t.x.length = s.x.length)
    (hp : t.prog = s.prog) : t.Built := by
  simp only [State.Built, State.progLen, hb, hx, hp]
  exact h

/-! ## Admission (R66) -/

/-- The region of a range, written out (R61). -/
theorem regionOf_eq (s : State) (a n : Nat) : s.regionOf a n =
    if s.params.regBase ≤ a ∧ a + n ≤ s.params.regBase + 8 * s.params.nreg then some .registers
    else if s.params.stackBase ≤ a ∧ a + n ≤ s.params.stackEnd then some .stack
    else if s.params.progBase ≤ a ∧ a + n ≤ s.params.progBase + 8 * s.progLen then some .program
    else if s.params.extBase ≤ a ∧ a + n ≤ s.params.extBase + (Config.addressSpace - s.params.extBase) then some .external
    else none := by
  simp only [State.regionOf, State.regions, List.find?_cons, List.find?_nil, Region.holds, ← Bool.decide_and]
  by_cases c1 : s.params.regBase ≤ a ∧ a + n ≤ s.params.regBase + 8 * s.params.nreg
  · simp [c1]
  by_cases c2 : s.params.stackBase ≤ a ∧ a + n ≤ s.params.stackBase + s.params.stackSize
  · simp [c1, c2]
  by_cases c3 : s.params.progBase ≤ a ∧ a + n ≤ s.params.progBase + 8 * s.progLen
  · simp [c1, c2, c3]
  by_cases c4 : s.params.extBase ≤ a ∧ a + n ≤ s.params.extBase + (Config.addressSpace - s.params.extBase)
  · simp [c1, c2, c3, c4]
  · simp only [Params.stackEnd, c1, c2, c3, c4, decide_false, if_false, Option.map_none]

/-- Admission, written out over the regions of R61. -/
theorem admitted_iff {s : State} (hs : s.Built) (a : Word) {n : Nat} (hn : 1 ≤ n) (k : AccessKind) :
    s.admitted a n k = true ↔ a.toNat + n ≤ Config.addressSpace ∧
      ((s.params.regBase ≤ a.toNat ∧ a.toNat + n ≤ s.params.regBase + 8 * s.params.nreg) ∨
       (s.params.stackBase ≤ a.toNat ∧ a.toNat + n ≤ s.params.stackEnd) ∨
       (s.params.progBase ≤ a.toNat ∧ a.toNat + n ≤ s.params.progBase + 8 * s.progLen ∧ k = .read) ∨
       (s.params.extBase ≤ a.toNat ∧ s.extAdmit a.toNat n = true)) := by
  simp only [State.Built, Params.Legal, Params.stackEnd] at hs
  simp only [State.admitted, regionOf_eq, Bool.and_eq_true, decide_eq_true_iff]
  refine and_congr_right fun h0 => ?_
  by_cases c1 : s.params.regBase ≤ a.toNat ∧ a.toNat + n ≤ s.params.regBase + 8 * s.params.nreg
  · simp [c1, State.regionServes]
  by_cases c2 : s.params.stackBase ≤ a.toNat ∧ a.toNat + n ≤ s.params.stackEnd
  · simp only [c1, c2, and_self, if_true, if_false, State.regionServes, true_or, or_true]
  by_cases c3 : s.params.progBase ≤ a.toNat ∧ a.toNat + n ≤ s.params.progBase + 8 * s.progLen
  · have h4 : ¬ s.params.extBase ≤ a.toNat := by omega
    simp only [c1, c2, c3, h4, and_self, if_true, if_false, State.regionServes, decide_eq_true_iff, false_and,
      true_and, false_or, or_false]
  have c3' : ¬ (s.params.progBase ≤ a.toNat ∧ a.toNat + n ≤ s.params.progBase + 8 * s.progLen ∧ k = .read) :=
    fun h => c3 ⟨h.1, h.2.1⟩
  by_cases c4 : s.params.extBase ≤ a.toNat
  · have h5 : a.toNat + n ≤ s.params.extBase + (Config.addressSpace - s.params.extBase) := by
      simp only [Config.addressSpace] at h0 ⊢
      omega
    simp only [c1, c2, c3, c3', c4, h5, and_self, if_true, if_false, State.regionServes, true_and, false_or]
  · simp only [c1, c2, c3, c3', c4, false_and, if_false, or_false, Bool.false_eq_true]

theorem regAddr_toNat {s : State} (hs : s.params.Legal) {i : Nat} (hi : i < s.params.nreg) :
    (s.regAddr i).toNat = s.params.regBase + 8 * i := by
  simp only [Params.Legal, Params.stackEnd] at hs
  simp only [State.regAddr, BitVec.toNat_ofNat]
  omega

/-- A register's own bytes are always admitted (R62, R66). -/
theorem admitted_regAddr {s : State} (hs : s.params.Legal) {i : Nat} (hi : i < s.params.nreg) {n : Nat} (hn : n ≤ 8)
    (k : AccessKind) : s.admitted (s.regAddr i) n k = true := by
  have h1 : s.params.regBase ≤ s.params.regBase + 8 * i ∧
      s.params.regBase + 8 * i + n ≤ s.params.regBase + 8 * s.params.nreg := by omega
  simp only [State.admitted, regionOf_eq, regAddr_toNat hs hi, h1, and_self, if_true, State.regionServes,
    Bool.and_true, decide_eq_true_iff, Config.addressSpace]
  simp only [Params.Legal, Params.stackEnd] at hs
  omega

/-- What a write may reach: registers, the stack, external memory; never the program region (R64, R66). -/
theorem admitted_write_cases {s : State} {a : Word} {n : Nat} (h : s.admitted a n .write = true) {b : Nat}
    (h1 : a.toNat ≤ b) (h2 : b < a.toNat + n) :
    s.inRegisters b = true ∨ s.inStack b = true ∨
      (s.params.extBase ≤ b ∧ s.extAdmit a.toNat n = true ∧ s.params.extBase ≤ a.toNat ∧
        a.toNat + n ≤ Config.addressSpace) := by
  simp only [State.admitted, regionOf_eq, Bool.and_eq_true, decide_eq_true_iff] at h
  obtain ⟨h0, h⟩ := h
  simp only [State.inRegisters, State.inStack, Bool.and_eq_true, decide_eq_true_iff]
  by_cases c1 : s.params.regBase ≤ a.toNat ∧ a.toNat + n ≤ s.params.regBase + 8 * s.params.nreg
  · exact .inl (by omega)
  by_cases c2 : s.params.stackBase ≤ a.toNat ∧ a.toNat + n ≤ s.params.stackEnd
  · exact .inr (.inl (by omega))
  by_cases c3 : s.params.progBase ≤ a.toNat ∧ a.toNat + n ≤ s.params.progBase + 8 * s.progLen
  · simp only [c1, c2, c3, and_self, if_true, if_false, State.regionServes] at h
    cases h
  by_cases c4 : s.params.extBase ≤ a.toNat ∧ a.toNat + n ≤ s.params.extBase + (Config.addressSpace - s.params.extBase)
  · simp only [c1, c2, c3, c4, and_self, if_true, if_false, State.regionServes] at h
    exact .inr (.inr ⟨by omega, h, c4.1, h0⟩)
  · simp only [c1, c2, c3, c4, if_false] at h
    cases h

/-- A byte of an admitted write outside the program region, in a legal build. -/
theorem admitted_write_outside {s : State} (hs : s.Built) {a : Word} {n : Nat} (h : s.admitted a n .write = true)
    {b : Nat} (h1 : a.toNat ≤ b) (h2 : b < a.toNat + n) : s.inRegisters b = true ∨ s.inProgram b = false := by
  simp only [State.Built, Params.Legal, Params.stackEnd] at hs
  rcases admitted_write_cases h h1 h2 with h | h | ⟨h, -⟩
  · exact .inl h
  · right
    simp only [State.inStack, Params.stackEnd, Bool.and_eq_true, decide_eq_true_iff] at h
    simp only [State.inProgram, Bool.and_eq_false_iff, decide_eq_false_iff_not]
    omega
  · right
    simp only [State.inProgram, Bool.and_eq_false_iff, decide_eq_false_iff_not]
    omega

/-- A byte of an admitted write that lies in memory is one that memory may list. -/
theorem admitted_write_placed {s : State} {a : Word} {n : Nat} (hn : n ≤ 8) (h : s.admitted a n .write = true)
    {b : Nat} (h1 : a.toNat ≤ b) (h2 : b < a.toNat + n) : s.inRegisters b = true ∨ s.placed b = true := by
  rcases admitted_write_cases h h1 h2 with h | h | ⟨-, h3, h4, h5⟩
  · exact .inl h
  · exact .inr (by simp [State.placed, h])
  · right
    simp only [State.placed, State.hostMayWrite, Bool.or_eq_true, List.any_eq_true, List.mem_range, Bool.and_eq_true,
      decide_eq_true_iff]
    have e : b - (b - a.toNat) = a.toNat := by omega
    exact .inr ⟨n, by omega, b - a.toNat, by omega, ⟨by omega, by rw [e]; exact h5⟩, by rw [e]; exact h3⟩

/-! ## Bytes after a store (R62, R71) -/

theorem inRegisters_iff (s : State) (a : Nat) :
    s.inRegisters a = true ↔ s.params.regBase ≤ a ∧ a < s.params.regBase + 8 * s.params.nreg := by
  simp only [State.inRegisters, Bool.and_eq_true, decide_eq_true_iff]

/-- A register is the eight bytes of its window (R62). -/
theorem byteAt_reg (s : State) {i k : Nat} (hi : i < s.params.nreg) (hk : k < 8) :
    s.byteAt (s.params.regBase + 8 * i + k) = byteOf (s.reg i) k := by
  have hr : s.inRegisters (s.params.regBase + 8 * i + k) = true := (inRegisters_iff _ _).2 (by omega)
  have h2 : s.regIndex (s.params.regBase + 8 * i + k) = i := by simp only [State.regIndex]; omega
  have h3 : s.regByte (s.params.regBase + 8 * i + k) = k := by simp only [State.regByte]; omega
  simp only [State.byteAt, hr, if_true, h2, h3]

/-- One byte written, for an address outside the program region. -/
theorem byteAt_setByte {s : State} (hx : s.x.length = s.params.nreg) {a : Nat}
    (ha : s.inRegisters a = true ∨ s.inProgram a = false) (v : Byte) (b : Nat) :
    (s.setByte a v).byteAt b = if b = a then v else s.byteAt b := by
  by_cases hr : s.inRegisters a = true
  · have hra := (inRegisters_iff s a).1 hr
    have hia : s.regIndex a < s.x.length := by simp only [State.regIndex]; omega
    have hset : s.setByte a v = s.setReg (s.regIndex a) (withByte (s.reg (s.regIndex a)) (s.regByte a) v) := by
      simp [State.setByte, hr]
    rw [hset]
    by_cases hb : s.inRegisters b = true
    · have hrb := (inRegisters_iff s b).1 hb
      have key : ∀ w, (s.setReg (s.regIndex a) w).byteAt b =
          byteOf ((s.setReg (s.regIndex a) w).reg (s.regIndex b)) (s.regByte b) := by
        intro w
        have hb' : (s.setReg (s.regIndex a) w).inRegisters b = true := hb
        simp only [State.byteAt, hb', if_true]
        rfl
      rw [key, State.reg_setReg _ _ _ hia]
      have hka : s.regByte a < 8 := by simp only [State.regByte]; omega
      have hkb : s.regByte b < 8 := by simp only [State.regByte]; omega
      by_cases hi : s.regIndex b = s.regIndex a
      · rw [if_pos hi]
        by_cases e : b = a
        · subst e; simp [byteOf_withByte_same _ _ hka]
        · rw [if_neg e, byteOf_withByte_ne _ _ hkb hka]
          · simp [State.byteAt, hb, hi]
          · simp only [State.regByte, State.regIndex] at hi ⊢
            omega
      · rw [if_neg hi, if_neg (fun e => hi (by rw [e]))]
        simp [State.byteAt, hb]
    · have e : b ≠ a := fun e => hb (e ▸ hr)
      have hb' : ∀ w, ¬ (s.setReg (s.regIndex a) w).inRegisters b = true := fun _ => hb
      have hp' : ∀ w, (s.setReg (s.regIndex a) w).inProgram b = s.inProgram b := fun _ => rfl
      simp [State.byteAt, hb, hb', hp', e]
  · have hp : s.inProgram a = false := ha.resolve_left hr
    have hset : s.setByte a v = { s with mem := Memory.write s.mem a v } := by simp [State.setByte, hr]
    rw [hset]
    by_cases hb : s.inRegisters b = true
    · have e : b ≠ a := fun e => hr (e ▸ hb)
      have hb' : ({ s with mem := Memory.write s.mem a v } : State).inRegisters b = true := hb
      simp only [State.byteAt, hb, hb', e, if_true, if_false]
      rfl
    · have hb' : ¬ ({ s with mem := Memory.write s.mem a v } : State).inRegisters b = true := hb
      by_cases hbp : s.inProgram b = true
      · have e : b ≠ a := fun e => by rw [e, hp] at hbp; exact absurd hbp (by decide)
        have hbp' : ({ s with mem := Memory.write s.mem a v } : State).inProgram b = true := hbp
        simp [State.byteAt, hb, hb', hbp, hbp', e]
      · have hbp' : ¬ ({ s with mem := Memory.write s.mem a v } : State).inProgram b = true := hbp
        simp only [State.byteAt, hb, hb', hbp, hbp']
        by_cases e : b = a
        · subst e; simp
        · simp [e, Memory.read_write_ne _ _ e]

/-- Bytes written at consecutive addresses outside the program region. -/
theorem byteAt_setBytes {s : State} (hx : s.x.length = s.params.nreg) {a : Nat} {bs : List Byte}
    (ha : ∀ b, a ≤ b → b < a + bs.length → s.inRegisters b = true ∨ s.inProgram b = false) (b : Nat) :
    (s.setBytes a bs).byteAt b = if a ≤ b ∧ b < a + bs.length then bs.getD (b - a) 0 else s.byteAt b := by
  induction bs generalizing s a with
  | nil =>
    simp [State.setBytes]
  | cons v bs ih =>
    simp only [List.length_cons] at ha ⊢
    rw [State.setBytes, ih (s := s.setByte a v) (a := a + 1) (by simpa using hx) (by
      intro c h1 h2
      have := ha c (by omega) (by omega)
      simpa [State.inRegisters, State.inProgram, State.progLen] using this),
      byteAt_setByte hx (ha a (Nat.le_refl _) (by omega))]
    by_cases h1 : a + 1 ≤ b ∧ b < a + 1 + bs.length
    · have h2 : a ≤ b ∧ b < a + (bs.length + 1) := by omega
      have h3 : b - a = (b - (a + 1)) + 1 := by omega
      rw [if_pos h1, if_pos h2, h3, List.getD_cons_succ]
    · rw [if_neg h1]
      by_cases h2 : b = a
      · subst h2
        simp
      · have h3 : ¬ (a ≤ b ∧ b < a + (bs.length + 1)) := by omega
        rw [if_neg h2, if_neg h3]

/-- A register none of whose bytes changed is unchanged. -/
theorem reg_eq_of_bytes {s t : State} (hb : t.params = s.params) {i : Nat} (hi : i < s.params.nreg)
    (h : ∀ k, k < 8 → t.byteAt (s.params.regBase + 8 * i + k) = s.byteAt (s.params.regBase + 8 * i + k)) :
    t.reg i = s.reg i :=
  word_ext fun k hk => by
    rw [← byteAt_reg t (by rw [hb]; exact hi) hk, ← byteAt_reg s hi hk, hb, h k hk]

/-! ## The access primitives (R70 to R73) -/

/-- What `WriteBytes` does where the write is admitted (R71). -/
theorem setBytes_stores {s : State} (hs : s.Built) {a : Word} {bs : List Byte}
    (h : s.admitted a bs.length .write = true) :
    Stores s (s.setBytes a.toNat bs) a.toNat bs.length (fun k => bs.getD k 0) := by
  have hb := byteAt_setBytes (s := s) hs.2.1 (a := a.toNat) (bs := bs)
    (fun b h1 h2 => admitted_write_outside hs h h1 h2)
  have hout : ∀ b, b < a.toNat ∨ a.toNat + bs.length ≤ b → (s.setBytes a.toNat bs).byteAt b = s.byteAt b := by
    intro b hbo
    rw [hb, if_neg (by omega)]
  refine ⟨fun k hk => ?_, hout, fun i hn hi => reg_eq_of_bytes (by simp) hn fun k hk => hout _ ?_⟩
  · rw [hb, if_pos ⟨by omega, by omega⟩, Nat.add_sub_cancel_left]
  · omega

theorem writeBytes_ok {s : State} {a : Word} {bs : List Byte} (h : s.admitted a bs.length .write = true) :
    writeBytes s a bs = .ok (s.setBytes a.toNat bs) := by simp [writeBytes, h]

theorem writeBytes_error {s : State} {a : Word} {bs : List Byte} (h : s.admitted a bs.length .write = false) :
    writeBytes s a bs = .error ⟨.invalidDereference, a⟩ := by simp [writeBytes, h]

/-- Everything `WriteBytes` can do (R71). -/
theorem writeBytes_cases {s w : State} {a : Word} {bs : List Byte} (h : writeBytes s a bs = .ok w) :
    s.admitted a bs.length .write = true ∧ w = s.setBytes a.toNat bs := by
  unfold writeBytes at h
  split at h
  · exact ⟨‹_›, by simpa using h.symm⟩
  · cases h

theorem writeBytes_raises {s : State} {a : Word} {bs : List Byte} {r : Raised} (h : writeBytes s a bs = .error r) :
    s.admitted a bs.length .write = false ∧ r = ⟨.invalidDereference, a⟩ := by
  unfold writeBytes at h
  split at h
  · cases h
  · rename_i hn
    exact ⟨by simpa using hn, by simpa using h.symm⟩

theorem readBytes_ok {s : State} {a : Word} {n : Nat} (h : s.admitted a n .read = true) :
    readBytes s a n = .ok ((List.range n).map (fun k => s.byteAt (a.toNat + k))) := by simp [readBytes, h]

theorem readBytes_error {s : State} {a : Word} {n : Nat} (h : s.admitted a n .read = false) :
    readBytes s a n = .error ⟨.invalidDereference, a⟩ := by simp [readBytes, h]

/-- Everything `ReadBytes` can do (R70). -/
theorem readBytes_cases {s : State} {a : Word} {n : Nat} {bs : List Byte} (h : readBytes s a n = .ok bs) :
    s.admitted a n .read = true ∧ bs = (List.range n).map (fun k => s.byteAt (a.toNat + k)) := by
  unfold readBytes at h
  split at h
  · exact ⟨‹_›, by simpa using h.symm⟩
  · cases h

theorem readBytes_raises {s : State} {a : Word} {n : Nat} {r : Raised} (h : readBytes s a n = .error r) :
    s.admitted a n .read = false ∧ r = ⟨.invalidDereference, a⟩ := by
  unfold readBytes at h
  split at h
  · cases h
  · rename_i hn
    exact ⟨by simpa using hn, by simpa using h.symm⟩

/-- `MemRead` of a word where the read is admitted (R72). -/
theorem memRead_ok {s : State} {a : Word} (h : s.admitted a 8 .read = true) : memRead s a 8 = .ok (s.wordAt a) := by
  simp [memRead, readBytes_ok h, State.wordAt, bind, Except.bind, pure, Except.pure]

theorem memRead_error {s : State} {a : Word} {n : Nat} (h : s.admitted a n .read = false) :
    memRead s a n = .error ⟨.invalidDereference, a⟩ := by
  simp [memRead, readBytes_error h, bind, Except.bind]

/-- Everything an 8-byte `MemRead` can do (R72). -/
theorem memRead_cases {s : State} {a v : Word} (h : memRead s a 8 = .ok v) :
    s.admitted a 8 .read = true ∧ v = s.wordAt a := by
  cases hr : s.admitted a 8 .read with
  | false => rw [memRead_error hr] at h; cases h
  | true => rw [memRead_ok hr] at h; exact ⟨rfl, by simpa using h.symm⟩

theorem memRead_raises {s : State} {a : Word} {n : Nat} {r : Raised} (h : memRead s a n = .error r) :
    s.admitted a n .read = false ∧ r = ⟨.invalidDereference, a⟩ := by
  cases hr : s.admitted a n .read with
  | false => rw [memRead_error hr] at h; exact ⟨rfl, by simpa using h.symm⟩
  | true => simp [memRead, readBytes_ok hr, bind, Except.bind, pure, Except.pure] at h

theorem memWrite_ok {s : State} {a : Word} {n : Nat} (v : Word) (h : s.admitted a n .write = true) :
    memWrite s a n v = .ok (s.setBytes a.toNat (leBytes v n)) := writeBytes_ok (by simpa using h)

theorem memWrite_error {s : State} {a : Word} {n : Nat} (v : Word) (h : s.admitted a n .write = false) :
    memWrite s a n v = .error ⟨.invalidDereference, a⟩ := writeBytes_error (by simpa using h)

theorem memWrite_cases {s w : State} {a v : Word} {n : Nat} (h : memWrite s a n v = .ok w) :
    s.admitted a n .write = true ∧ w = s.setBytes a.toNat (leBytes v n) := by
  simpa using writeBytes_cases h

theorem memWrite_raises {s : State} {a v : Word} {n : Nat} {r : Raised} (h : memWrite s a n v = .error r) :
    s.admitted a n .write = false ∧ r = ⟨.invalidDereference, a⟩ := by
  simpa using writeBytes_raises h

/-- What `MemWrite` stores (R73). -/
theorem memWrite_stores {s : State} (hs : s.Built) {a : Word} {n : Nat} (v : Word)
    (h : s.admitted a n .write = true) :
    Stores s (s.setBytes a.toNat (leBytes v n)) a.toNat n (byteOf v) := by
  have hst := setBytes_stores hs (a := a) (bs := leBytes v n) (by simpa using h)
  rw [leBytes_length] at hst
  refine ⟨fun k hk => ?_, hst.otherBytes, hst.otherRegs⟩
  rw [hst.stored k hk]
  simp [leBytes, List.getD, hk]

/-- The copy of MOV, PUSH and POP where both accesses are admitted (R200, R202). -/
theorem copyBytes_ok {s : State} {sa da : Word} {n : Nat} (hr : s.admitted sa n .read = true)
    (hw : s.admitted da n .write = true) :
    copyBytes s sa da n = .ok (s.setBytes da.toNat ((List.range n).map (fun k => s.byteAt (sa.toNat + k)))) := by
  simp only [copyBytes, readBytes_ok hr, bind, Except.bind]
  exact writeBytes_ok (by simpa using hw)

theorem copyBytes_error_read {s : State} {sa da : Word} {n : Nat} (hr : s.admitted sa n .read = false) :
    copyBytes s sa da n = .error ⟨.invalidDereference, sa⟩ := by
  simp [copyBytes, readBytes_error hr, bind, Except.bind]

theorem copyBytes_error_write {s : State} {sa da : Word} {n : Nat} (hr : s.admitted sa n .read = true)
    (hw : s.admitted da n .write = false) : copyBytes s sa da n = .error ⟨.invalidDereference, da⟩ := by
  simp only [copyBytes, readBytes_ok hr, bind, Except.bind]
  exact writeBytes_error (by simpa using hw)

theorem copyBytes_cases {s w : State} {sa da : Word} {n : Nat} (h : copyBytes s sa da n = .ok w) :
    s.admitted sa n .read = true ∧ s.admitted da n .write = true ∧
      w = s.setBytes da.toNat ((List.range n).map (fun k => s.byteAt (sa.toNat + k))) := by
  cases hr : s.admitted sa n .read with
  | false => rw [copyBytes_error_read hr] at h; cases h
  | true =>
    cases hw : s.admitted da n .write with
    | false => rw [copyBytes_error_write hr hw] at h; cases h
    | true => rw [copyBytes_ok hr hw] at h; exact ⟨rfl, rfl, by simpa using h.symm⟩

theorem copyBytes_raises {s : State} {sa da : Word} {n : Nat} {r : Raised} (h : copyBytes s sa da n = .error r) :
    r.cause = .invalidDereference ∧
      ((r.info = sa ∧ s.admitted sa n .read = false) ∨ (r.info = da ∧ s.admitted da n .write = false)) := by
  cases hr : s.admitted sa n .read with
  | false => rw [copyBytes_error_read hr] at h; cases h; simp
  | true =>
    cases hw : s.admitted da n .write with
    | false => rw [copyBytes_error_write hr hw] at h; cases h; simp
    | true => rw [copyBytes_ok hr hw] at h; cases h

/-- What the copy stores. -/
theorem copyBytes_stores {s : State} (hs : s.Built) {sa da : Word} {n : Nat} (hw : s.admitted da n .write = true) :
    Stores s (s.setBytes da.toNat ((List.range n).map (fun k => s.byteAt (sa.toNat + k)))) da.toNat n
      (fun k => s.byteAt (sa.toNat + k)) := by
  have hst := setBytes_stores hs (a := da) (bs := (List.range n).map (fun k => s.byteAt (sa.toNat + k)))
    (by simpa using hw)
  rw [List.length_map, List.length_range] at hst
  refine ⟨fun k hk => ?_, hst.otherBytes, hst.otherRegs⟩
  rw [hst.stored k hk]
  simp [List.getD, hk]

/-! ## Registers through their window (R62) -/

/-- The word at a register's address is the register (R62). -/
theorem wordAt_regAddr {s : State} (hs : s.params.Legal) {i : Nat} (hi : i < s.params.nreg) :
    s.wordAt (s.regAddr i) = s.reg i := by
  refine word_ext fun k hk => ?_
  rw [State.wordAt, byteOf_leWord _ hk, regAddr_toNat hs hi, byteAt_reg s hi hk]

/-- A register all of whose eight bytes were stored holds the stored word. -/
theorem Stores.reg_eq {s t : State} {v : Nat → Byte} {i : Nat} (hi : i < t.params.nreg)
    (h : Stores s t (t.params.regBase + 8 * i) 8 v) (w : Word) (hv : ∀ k, k < 8 → v k = byteOf w k) : t.reg i = w :=
  word_ext fun k hk => by rw [← byteAt_reg t hi hk, h.stored k hk, hv k hk]

/-- The word at the address that was stored to. -/
theorem Stores.wordAt_eq {s t : State} {a : Word} {v : Nat → Byte} (h : Stores s t a.toNat 8 v) (w : Word)
    (hv : ∀ k, k < 8 → v k = byteOf w k) : t.wordAt a = w :=
  word_ext fun k hk => by rw [State.wordAt, byteOf_leWord _ hk, h.stored k hk, hv k hk]

/-! ## The canonical form and the places of listed bytes -/

theorem setByte_mem_wf {s : State} (h : Memory.wf s.mem = true) (a : Nat) (v : Byte) :
    Memory.wf (s.setByte a v).mem = true := by
  unfold State.setByte
  split
  · exact h
  · exact Memory.wf_write a v h

/-- Every store keeps the canonical form. -/
theorem setBytes_mem_wf {s : State} (h : Memory.wf s.mem = true) (a : Nat) (bs : List Byte) :
    Memory.wf (s.setBytes a bs).mem = true := by
  induction bs generalizing s a with
  | nil => exact h
  | cons b bs ih => exact ih (setByte_mem_wf h a b) (a + 1)

/-- A store lists bytes of its own range only. -/
theorem mem_setBytes {s : State} {a : Nat} {bs : List Byte} {c : Host.Cell} (h : c ∈ (s.setBytes a bs).mem) :
    c ∈ s.mem ∨ (a ≤ c.1 ∧ c.1 < a + bs.length ∧ s.inRegisters c.1 = false) := by
  induction bs generalizing s a with
  | nil => exact .inl h
  | cons b bs ih =>
    rw [State.setBytes] at h
    rcases ih h with h | ⟨h1, h2, h3⟩
    · unfold State.setByte at h
      split at h
      · exact .inl h
      · rename_i hr
        rcases Memory.mem_write h with h | rfl
        · exact .inl h
        · exact .inr ⟨Nat.le_refl _, by simp, by simpa using hr⟩
    · exact .inr ⟨by omega, by simp only [List.length_cons]; omega, by simpa [State.inRegisters] using h3⟩

/-- An admitted store keeps memory's places. -/
theorem setBytes_placed {s : State} (hm : ∀ c ∈ s.mem, s.placed c.1 = true) {a : Word} {bs : List Byte}
    (hn : bs.length ≤ 8) (h : s.admitted a bs.length .write = true) :
    ∀ c ∈ (s.setBytes a.toNat bs).mem, s.placed c.1 = true := by
  intro c hc
  rcases mem_setBytes hc with hc | ⟨h1, h2, h3⟩
  · exact hm c hc
  · rcases admitted_write_placed hn h h1 h2 with h | h
    · rw [h3] at h; cases h
    · exact h

end Sys2Proof.Machine
end

