-- ==== Sys2Proof/Laws/Operands.lean ====
section
/-! SUPPORT. What the checks and the resolver do (40_control_unit.md R168 to R176), against the operand forms of R126. -/

namespace Sys2Proof.Machine

/-! ## The Except monad, peeled -/

theorem bind_ok {α β : Type} {x : Except Raised α} {g : α → Except Raised β} {b : β} (h : x >>= g = .ok b) :
    ∃ a, x = .ok a ∧ g a = .ok b := by
  cases x with
  | error e => cases h
  | ok a => exact ⟨a, rfl, h⟩

theorem bind_error {α β : Type} {x : Except Raised α} {g : α → Except Raised β} {r : Raised}
    (h : x >>= g = .error r) : x = .error r ∨ ∃ a, x = .ok a ∧ g a = .error r := by
  cases x with
  | error e => exact .inl (by cases h; rfl)
  | ok a => exact .inr ⟨a, rfl, h⟩

@[simp] theorem ok_bind {α β : Type} (a : α) (g : α → Except Raised β) : ((Except.ok a : Except Raised α) >>= g) = g a :=
  rfl

@[simp] theorem error_bind {α β : Type} (r : Raised) (g : α → Except Raised β) :
    ((Except.error r : Except Raised α) >>= g) = .error r := rfl

@[simp] theorem pure_eq_ok {α : Type} (a : α) : (pure a : Except Raised α) = .ok a := rfl

/-! ## The checks -/

theorem checkTruncated_eq (f : Fields) (s : State) : checkTruncated f s =
    if literalPresent f s then .ok () else .error ⟨.truncatedImmediate, s.pc⟩ := by
  unfold checkTruncated literalPresent
  by_cases hi : f.imm = true
  · by_cases hl : s.progLen ≤ s.pc.toNat + 1
    · simp [hi, hl, Nat.not_lt.2 hl]
    · simp [hi, hl, Nat.not_le.1 hl]
  · simp [hi]

theorem checkTruncated_ok {f : Fields} {s : State} : checkTruncated f s = .ok () ↔ literalPresent f s = true := by
  rw [checkTruncated_eq]
  split <;> simp_all

theorem checkIndex_ok {s : State} {i : BitVec 4} : checkIndex s i = .ok () ↔ i.toNat < s.params.nreg := by
  unfold checkIndex
  split <;> simp_all

theorem checkIndex_raises {s : State} {i : BitVec 4} {r : Raised} (h : checkIndex s i = .error r) :
    s.params.nreg ≤ i.toNat ∧ r = ⟨.invalidRegister, i.setWidth 64⟩ := by
  unfold checkIndex at h
  split at h
  · exact ⟨‹_›, by simpa using h.symm⟩
  · cases h

theorem checkIndex_error {s : State} {i : BitVec 4} (h : s.params.nreg ≤ i.toNat) :
    checkIndex s i = .error ⟨.invalidRegister, i.setWidth 64⟩ := by
  simp [checkIndex, h]

/-! ## Program slots as data (R64) -/

theorem slotAddr_toNat {s : State} (hs : s.Built) (h : s.pc.toNat + 1 < s.progLen) :
    (s.slotAddr (s.pc + 1#64)).toNat = s.params.progBase + 8 * (s.pc.toNat + 1) := by
  simp only [State.Built, Params.Legal, Params.stackEnd] at hs
  have h1 : (s.pc + 1#64).toNat = s.pc.toNat + 1 := by
    rw [BitVec.toNat_add]
    simp
    omega
  have h8 : (8#64).toNat = 8 := rfl
  have hp : (BitVec.ofNat 64 s.params.progBase).toNat = s.params.progBase := by
    rw [BitVec.toNat_ofNat]
    exact Nat.mod_eq_of_lt (by omega)
  rw [State.slotAddr, BitVec.toNat_add, BitVec.toNat_mul, h1, h8, hp]
  omega

/-- The literal's bytes can be read, up to the whole word (R64, R66). -/
theorem admitted_literal {s : State} (hs : s.Built) (h : s.pc.toNat + 1 < s.progLen) {n : Nat} (h1 : 1 ≤ n)
    (h8 : n ≤ 8) : s.admitted (s.slotAddr (s.pc + 1#64)) n .read = true := by
  rw [admitted_iff hs _ h1, slotAddr_toNat hs h]
  simp only [State.Built, Params.Legal, Params.stackEnd] at hs
  simp only [Params.stackEnd, Config.addressSpace, and_true]
  omega

theorem byteAt_slot {s : State} (hs : s.params.Legal) {j k : Nat} (hj : j < s.progLen) (hk : k < 8) :
    s.byteAt (s.params.progBase + 8 * j + k) = byteOf (s.prog.getD j 0#64) k := by
  simp only [Params.Legal, Params.stackEnd] at hs
  have hr : ¬ s.inRegisters (s.params.progBase + 8 * j + k) = true := by rw [inRegisters_iff]; omega
  have hp : s.inProgram (s.params.progBase + 8 * j + k) = true := by
    simp only [State.inProgram, Bool.and_eq_true, decide_eq_true_iff]
    omega
  have h1 : (s.params.progBase + 8 * j + k - s.params.progBase) / 8 = j := by omega
  have h2 : (s.params.progBase + 8 * j + k - s.params.progBase) % 8 = k := by omega
  simp only [State.byteAt, hr, hp, if_true, h1, h2]
  simp

/-- The word at the literal's data address is the literal, unmasked (R102, R125). -/
theorem wordAt_literal {s : State} (hs : s.Built) (h : s.pc.toNat + 1 < s.progLen) :
    s.wordAt (s.slotAddr (s.pc + 1#64)) = s.literal :=
  word_ext fun k hk => by
    rw [State.wordAt, byteOf_leWord _ hk, slotAddr_toNat hs h, byteAt_slot hs.1 h hk, State.literal]

/-! ## Indirection (R176) -/

theorem deref_reg {s : State} (hs : s.params.Legal) {i : Nat} (hi : i < s.params.nreg) (bit : Bool) :
    deref bit s (s.regAddr i) = .ok (if bit then s.reg i else s.regAddr i) := by
  cases bit
  · simp [deref]
  · simp [deref, memRead_ok (admitted_regAddr hs hi (Nat.le_refl 8) .read), wordAt_regAddr hs hi]

theorem deref_literal {s : State} (hs : s.Built) (h : s.pc.toNat + 1 < s.progLen) (bit : Bool) :
    deref bit s (s.slotAddr (s.pc + 1#64)) = .ok (if bit then s.literal else s.slotAddr (s.pc + 1#64)) := by
  cases bit
  · simp [deref]
  · simp [deref, memRead_ok (admitted_literal hs h (by decide) (Nat.le_refl 8)), wordAt_literal hs h]

/-- Everything an indirection can do. -/
theorem deref_cases {s : State} {a a' : Word} {bit : Bool} (h : deref bit s a = .ok a') :
    a' = (if bit then s.wordAt a else a) ∧ (bit = true → s.admitted a 8 .read = true) := by
  cases bit
  · exact ⟨by simpa [deref] using h.symm, by simp⟩
  · simp only [deref, if_true] at h
    obtain ⟨h1, h2⟩ := memRead_cases h
    exact ⟨by simpa using h2, fun _ => h1⟩

theorem deref_raises {s : State} {a : Word} {bit : Bool} {r : Raised} (h : deref bit s a = .error r) :
    r = ⟨.invalidDereference, a⟩ ∧ s.admitted a 8 .read = false := by
  cases bit
  · cases h
  · simp only [deref, if_true] at h
    exact (memRead_raises h).symm

theorem deref_ok {s : State} {a : Word} {bit : Bool} (h : bit = true → s.admitted a 8 .read = true) :
    deref bit s a = .ok (if bit then s.wordAt a else a) := by
  cases bit
  · simp [deref]
  · simp [deref, memRead_ok (h rfl)]

/-! ## The operand forms (R126) -/

/-- A source operand in one of its four forms resolves to its address (R126). -/
theorem resolveSource_ok {f : Fields} {s : State} (hs : s.Built) {sa : Word} (h : sourceAddress f s = some sa) :
    resolveSource f s = .ok sa := by
  unfold sourceAddress at h
  unfold resolveSource checkRs resolveSrc
  cases hi : f.imm
  · have ht : checkTruncated f s = .ok () := checkTruncated_ok.2 (by simp [literalPresent, hi])
    simp only [hi, Bool.false_eq_true, if_false] at h ⊢
    split at h
    · rename_i hr
      simpa [ht, checkIndex_ok.2 hr, deref_reg hs.1 hr] using h
    · cases h
  · simp only [hi, if_true] at h ⊢
    split at h
    · rename_i hl
      have ht : checkTruncated f s = .ok () := checkTruncated_ok.2 (by simp [literalPresent, hl])
      simpa [ht, deref_literal hs hl] using h
    · cases h

/-- A destination register operand resolves to its register's address (R174). -/
theorem destinationAddress_some {f : Fields} {s : State} {da : Word} (h : destinationAddress f s = some da) :
    f.rd.toNat < s.params.nreg ∧ da = (if f.dm.derefsDestination then s.reg f.rd.toNat else s.regAddr f.rd.toNat) := by
  unfold destinationAddress at h
  split at h
  · exact ⟨‹_›, by simpa using h.symm⟩
  · cases h

theorem sourceAddress_literalPresent {f : Fields} {s : State} {sa : Word} (h : sourceAddress f s = some sa) :
    literalPresent f s = true ∧ (f.imm = false → f.rs.toNat < s.params.nreg) := by
  unfold sourceAddress at h
  cases hi : f.imm
  · simp only [hi, Bool.false_eq_true, if_false] at h
    split at h
    · exact ⟨by simp [literalPresent, hi], fun _ => ‹_›⟩
    · cases h
  · simp only [hi, if_true] at h
    split at h
    · exact ⟨by simp [literalPresent, *], by simp⟩
    · cases h

/-- The source steps of R172 and R176 in any working state with the same program counter and program. -/
theorem resolveSrc_deref_ok {f : Fields} {s : State} (hs : s.Built) {sa : Word} (h : sourceAddress f s = some sa) :
    resolveSrc .regOrImm f s = .ok (if f.imm then s.slotAddr (s.pc + 1#64) else s.regAddr f.rs.toNat) ∧
      deref f.dm.derefsSource s (if f.imm then s.slotAddr (s.pc + 1#64) else s.regAddr f.rs.toNat) = .ok sa := by
  refine ⟨rfl, ?_⟩
  unfold sourceAddress at h
  cases hi : f.imm
  · simp only [hi, Bool.false_eq_true, if_false] at h ⊢
    split at h
    · rename_i hr
      simpa [deref_reg hs.1 hr] using h
    · cases h
  · simp only [hi, if_true] at h ⊢
    split at h
    · rename_i hl
      simpa [deref_literal hs hl] using h
    · cases h

/-- R168 and R171 pass for a source operand that has an address. -/
theorem checks_source_ok {f : Fields} {s : State} {sa : Word} (h : sourceAddress f s = some sa) :
    checkTruncated f s = .ok () ∧ checkRs .regOrImm f s = .ok () := by
  obtain ⟨h1, h2⟩ := sourceAddress_literalPresent h
  refine ⟨checkTruncated_ok.2 h1, ?_⟩
  cases hi : f.imm
  · simp [checkRs, hi, checkIndex_ok.2 (h2 hi)]
  · simp [checkRs, hi]

/-- Both operands of MOV, ADD, SUB, AND, XOR, LEA, CMP resolve to their addresses (R126). -/
theorem resolveBoth_reg_ok {f : Fields} {s : State} (hs : s.Built) {sa da : Word}
    (h : sourceAddress f s = some sa) (hd : destinationAddress f s = some da) :
    resolveBoth .regOrImm .reg f s = .ok ⟨s, sa, da⟩ := by
  obtain ⟨h1, h2⟩ := checks_source_ok h
  obtain ⟨h3, h4⟩ := resolveSrc_deref_ok hs h
  obtain ⟨hr, rfl⟩ := destinationAddress_some hd
  have hc : checkRd .reg f s = .ok () := checkIndex_ok.2 hr
  simp only [resolveBoth, h1, h2, h3, hc, ok_bind, resolveDst, pure_eq_ok, h4, deref_reg hs.1 hr]

/-- PUSH's operands (R172, R174, R176): the source and both pointers are read after `SP` has been decremented. -/
theorem resolveBoth_push_ok {f : Fields} {s : State} (hs : s.Built) {sa : Word}
    (h1 : s.params.stackBase + f.size ≤ s.spReg.toNat)
    (h2 : s.spReg.toNat ≤ s.params.stackEnd)
    (h : sourceAddress f (s.setSp (s.spReg - BitVec.ofNat 64 f.size)) = some sa)
    (hd : f.dm.derefsDestination = true →
      (s.setSp (s.spReg - BitVec.ofNat 64 f.size)).admitted (s.spReg - BitVec.ofNat 64 f.size) 8 .read = true) :
    resolveBoth .regOrImm .newTop f s = .ok ⟨s.setSp (s.spReg - BitVec.ofNat 64 f.size), sa,
      if f.dm.derefsDestination then
        (s.setSp (s.spReg - BitVec.ofNat 64 f.size)).wordAt (s.spReg - BitVec.ofNat 64 f.size)
      else s.spReg - BitVec.ofNat 64 f.size⟩ := by
  obtain ⟨h3, h4⟩ := checks_source_ok h
  obtain ⟨h5, h6⟩ := resolveSrc_deref_ok (s := s.setSp (s.spReg - BitVec.ofNat 64 f.size))
    (hs.congr rfl (by simp) rfl) h
  have hp : checkPush s f.size = .ok () := by
    simp only [checkPush, Params.stackEnd] at *
    rw [if_neg (by omega)]
  have h3' : checkTruncated f s = .ok () := h3
  have h4' : checkRs .regOrImm f s = .ok () := h4
  have h5' : resolveSrc .regOrImm f s = .ok (if f.imm then s.slotAddr (s.pc + 1#64) else s.regAddr f.rs.toNat) := rfl
  have h6' : deref f.dm.derefsSource (s.setSp (s.spReg - BitVec.ofNat 64 f.size))
      (if f.imm then s.slotAddr (s.pc + 1#64) else s.regAddr f.rs.toNat) = .ok sa := h6
  simp only [resolveBoth, h3', h4', h5', ok_bind, checkRd, resolveDst, hp, pure_eq_ok, h6', deref_ok hd]

/-- POP's operands (R172, R174, R176). -/
theorem resolveBoth_pop_ok {f : Fields} {s : State} (hs : s.params.Legal) {da : Word} (hl : literalPresent f s = true)
    (h1 : s.params.stackBase ≤ s.spReg.toNat) (h2 : s.spReg.toNat + f.size ≤ s.params.stackEnd)
    (hsrc : f.dm.derefsSource = true → s.admitted s.spReg 8 .read = true)
    (hd : destinationAddress f s = some da) :
    resolveBoth .stackTop .reg f s = .ok ⟨s, if f.dm.derefsSource then s.wordAt s.spReg else s.spReg, da⟩ := by
  obtain ⟨hr, rfl⟩ := destinationAddress_some hd
  have hc : checkRd .reg f s = .ok () := checkIndex_ok.2 hr
  have hp : checkPop s f.size = .ok () := by
    simp only [checkPop, Params.stackEnd] at *
    rw [if_neg (by omega)]
  simp only [resolveBoth, checkTruncated_ok.2 hl, hc, checkRs, ok_bind, resolveSrc, hp, pure_eq_ok, resolveDst,
    deref_ok hsrc, deref_reg hs hr]

/-! ## Everything the resolver can do -/

theorem resolveSrc_cases {u : SrcUse} {f : Fields} {w : State} {a : Word} (h : resolveSrc u f w = .ok a) :
    a = (match u with
      | .stackTop => w.spReg
      | .regOrImm => if f.imm then w.slotAddr (w.pc + 1#64) else w.regAddr f.rs.toNat) := by
  cases u
  · simpa [resolveSrc] using h.symm
  · obtain ⟨_, -, h⟩ := bind_ok h
    simpa using h.symm

theorem resolveDst_cases {d : DstUse} {f : Fields} {w w' : State} {a : Word} (h : resolveDst d f w = .ok (w', a)) :
    (d = .reg ∧ w' = w ∧ a = w.regAddr f.rd.toNat) ∨
      (d = .newTop ∧ checkPush w f.size = .ok () ∧ a = w.spReg - BitVec.ofNat 64 f.size ∧ w' = w.setSp a) := by
  cases d
  · have := Except.ok.inj h
    rw [Prod.mk.injEq] at this
    exact .inl ⟨rfl, this.1.symm, this.2.symm⟩
  · obtain ⟨_, h0, h⟩ := bind_ok h
    have := Except.ok.inj h
    rw [Prod.mk.injEq] at this
    obtain ⟨rfl, rfl⟩ := this
    exact .inr ⟨rfl, h0, rfl, rfl⟩

/-- Where the resolver answers, every check has passed, and the addresses are the operands' places, through their
pointers where the mode says so. -/
theorem resolveBoth_inv {u : SrcUse} {d : DstUse} {f : Fields} {s : State} {r : Resolved}
    (h : resolveBoth u d f s = .ok r) :
    checkTruncated f s = .ok () ∧ checkRd d f s = .ok () ∧ checkRs u f s = .ok () ∧
      ∃ sp dp, resolveSrc u f s = .ok sp ∧ resolveDst d f s = .ok (r.w, dp) ∧
        deref f.dm.derefsSource r.w sp = .ok r.sa ∧ deref f.dm.derefsDestination r.w dp = .ok r.da := by
  obtain ⟨⟨⟩, h1, h⟩ := bind_ok h
  obtain ⟨⟨⟩, h2, h⟩ := bind_ok h
  obtain ⟨⟨⟩, h3, h⟩ := bind_ok h
  obtain ⟨sp, h4, h⟩ := bind_ok h
  obtain ⟨⟨w, dp⟩, h5, h⟩ := bind_ok h
  obtain ⟨sa, h6, h⟩ := bind_ok h
  obtain ⟨da, h7, h⟩ := bind_ok h
  obtain rfl := Except.ok.inj h
  exact ⟨h1, h2, h3, sp, dp, h4, h5, h6, h7⟩

/-- Where the resolver answers, the literal is present and the working state is the state, or the state with the
decremented stack pointer (PUSH). -/
theorem resolveBoth_cases {u : SrcUse} {d : DstUse} {f : Fields} {s : State} {r : Resolved}
    (h : resolveBoth u d f s = .ok r) :
    literalPresent f s = true ∧
      ((d = .reg ∧ r.w = s) ∨ (d = .newTop ∧ r.w = s.setSp (s.spReg - BitVec.ofNat 64 f.size))) := by
  obtain ⟨h1, -, -, sp, dp, -, h5, -⟩ := resolveBoth_inv h
  refine ⟨checkTruncated_ok.1 h1, ?_⟩
  rcases resolveDst_cases h5 with ⟨hd, hw, -⟩ | ⟨hd, -, ha, hw⟩
  · exact .inl ⟨hd, hw⟩
  · exact .inr ⟨hd, by rw [hw, ha]⟩

theorem resolveSource_cases {f : Fields} {s : State} {sa : Word} (h : resolveSource f s = .ok sa) :
    literalPresent f s = true := by
  obtain ⟨⟨⟩, h1, -⟩ := bind_ok h
  exact checkTruncated_ok.1 h1

theorem checkTruncated_raises {f : Fields} {s : State} {r : Raised} (h : checkTruncated f s = .error r) :
    f.imm = true ∧ s.progLen ≤ s.pc.toNat + 1 ∧ r = ⟨.truncatedImmediate, s.pc⟩ := by
  unfold checkTruncated at h
  split at h
  · rename_i hc
    simp only [Bool.and_eq_true, decide_eq_true_iff] at hc
    exact ⟨hc.1, hc.2, by simpa using h.symm⟩
  · cases h

theorem checkRd_raises {d : DstUse} {f : Fields} {s : State} {r : Raised} (h : checkRd d f s = .error r) :
    d = .reg ∧ s.params.nreg ≤ f.rd.toNat ∧ r = ⟨.invalidRegister, f.rd.setWidth 64⟩ := by
  cases d
  · exact ⟨rfl, checkIndex_raises h⟩
  · cases h

theorem checkRs_raises {u : SrcUse} {f : Fields} {s : State} {r : Raised} (h : checkRs u f s = .error r) :
    u = .regOrImm ∧ f.imm = false ∧ s.params.nreg ≤ f.rs.toNat ∧ r = ⟨.invalidRegister, f.rs.setWidth 64⟩ := by
  cases u
  · simp only [checkRs] at h
    split at h
    · cases h
    · rename_i hi
      exact ⟨rfl, by simpa using hi, checkIndex_raises h⟩
  · cases h

theorem resolveSrc_raises {u : SrcUse} {f : Fields} {w : State} {r : Raised} (h : resolveSrc u f w = .error r) :
    u = .stackTop ∧ (w.spReg.toNat < w.params.stackBase ∨ w.params.stackEnd < w.spReg.toNat + f.size) ∧
      r = ⟨.stackUnderflow, w.spReg⟩ := by
  cases u
  · cases h
  · rcases bind_error h with h | ⟨_, -, h⟩
    · unfold checkPop at h
      split at h
      · exact ⟨rfl, ‹_›, by simpa using h.symm⟩
      · cases h
    · cases h

theorem resolveDst_raises {d : DstUse} {f : Fields} {w : State} {r : Raised} (h : resolveDst d f w = .error r) :
    d = .newTop ∧ (w.spReg.toNat < w.params.stackBase + f.size ∨ w.params.stackEnd < w.spReg.toNat) ∧
      r = ⟨.stackOverflow, w.spReg⟩ := by
  cases d
  · cases h
  · rcases bind_error h with h | ⟨_, -, h⟩
    · unfold checkPush at h
      split at h
      · exact ⟨rfl, ‹_›, by simpa using h.symm⟩
      · cases h
    · cases h

/-- A pointer read that is not admitted: the source's, or the destination's after the source's passed (R302, 6). -/
def PointerFault (f : Fields) (s : State) (sp dp info : Word) : Prop :=
  (f.dm.derefsSource = true ∧ info = sp ∧ s.admitted sp 8 .read = false) ∨
    ((f.dm.derefsSource = true → s.admitted sp 8 .read = true) ∧ f.dm.derefsDestination = true ∧ info = dp ∧
      s.admitted dp 8 .read = false)

/-- The faults the resolver can raise, in the order of R302. -/
theorem resolveBoth_raises {u : SrcUse} {d : DstUse} {f : Fields} {s : State} {r : Raised}
    (h : resolveBoth u d f s = .error r) :
    (f.imm = true ∧ s.progLen ≤ s.pc.toNat + 1 ∧ r = ⟨.truncatedImmediate, s.pc⟩) ∨
    (d = .reg ∧ s.params.nreg ≤ f.rd.toNat ∧ r = ⟨.invalidRegister, f.rd.setWidth 64⟩) ∨
    (u = .regOrImm ∧ f.imm = false ∧ s.params.nreg ≤ f.rs.toNat ∧ r = ⟨.invalidRegister, f.rs.setWidth 64⟩) ∨
    (u = .stackTop ∧ (s.spReg.toNat < s.params.stackBase ∨ s.params.stackEnd < s.spReg.toNat + f.size) ∧
      r = ⟨.stackUnderflow, s.spReg⟩) ∨
    (d = .newTop ∧ (s.spReg.toNat < s.params.stackBase + f.size ∨ s.params.stackEnd < s.spReg.toNat) ∧
      r = ⟨.stackOverflow, s.spReg⟩) ∨
    (r.cause = .invalidDereference ∧ checkTruncated f s = .ok () ∧ checkRd d f s = .ok () ∧ checkRs u f s = .ok () ∧
      ∃ sp w dp, resolveSrc u f s = .ok sp ∧ resolveDst d f s = .ok (w, dp) ∧ PointerFault f s sp dp r.info) := by
  rcases bind_error h with h | ⟨⟨⟩, h1, h⟩
  · exact .inl (checkTruncated_raises h)
  rcases bind_error h with h | ⟨⟨⟩, h2, h⟩
  · exact .inr (.inl (checkRd_raises h))
  rcases bind_error h with h | ⟨⟨⟩, h3, h⟩
  · exact .inr (.inr (.inl (checkRs_raises h)))
  rcases bind_error h with h | ⟨sp, h4, h⟩
  · exact .inr (.inr (.inr (.inl (resolveSrc_raises h))))
  rcases bind_error h with h | ⟨⟨w, dp⟩, hd, h⟩
  · exact .inr (.inr (.inr (.inr (.inl (resolveDst_raises h)))))
  refine .inr (.inr (.inr (.inr (.inr ?_))))
  have hw : ∀ a n k, w.admitted a n k = s.admitted a n k := by
    rcases resolveDst_cases hd with ⟨-, rfl, -⟩ | ⟨-, -, -, rfl⟩
    · exact fun _ _ _ => rfl
    · exact fun a n k => admitted_congr rfl rfl rfl a n k
  rcases bind_error h with h | ⟨sa, h6, h⟩
  · obtain ⟨rfl, h'⟩ := deref_raises h
    have hb : f.dm.derefsSource = true := by
      cases e : f.dm.derefsSource
      · rw [e] at h; cases h
      · rfl
    exact ⟨rfl, h1, h2, h3, sp, w, dp, h4, hd, .inl ⟨hb, rfl, by rw [← hw]; exact h'⟩⟩
  rcases bind_error h with h | ⟨da, -, h⟩
  · obtain ⟨rfl, h'⟩ := deref_raises h
    have hb : f.dm.derefsDestination = true := by
      cases e : f.dm.derefsDestination
      · rw [e] at h; cases h
      · rfl
    exact ⟨rfl, h1, h2, h3, sp, w, dp, h4, hd,
      .inr ⟨fun hs => by rw [← hw]; exact (deref_cases h6).2 hs, hb, rfl, by rw [← hw]; exact h'⟩⟩
  · cases h

/-- The faults a source-only opcode's resolution can raise. -/
theorem resolveSource_raises {f : Fields} {s : State} {r : Raised} (h : resolveSource f s = .error r) :
    (f.imm = true ∧ s.progLen ≤ s.pc.toNat + 1 ∧ r = ⟨.truncatedImmediate, s.pc⟩) ∨
    (f.imm = false ∧ s.params.nreg ≤ f.rs.toNat ∧ r = ⟨.invalidRegister, f.rs.setWidth 64⟩) ∨
    (checkTruncated f s = .ok () ∧ checkRs .regOrImm f s = .ok () ∧ f.dm.derefsSource = true ∧
      ∃ sp, resolveSrc .regOrImm f s = .ok sp ∧ r = ⟨.invalidDereference, sp⟩ ∧ s.admitted sp 8 .read = false) := by
  rcases bind_error h with h | ⟨⟨⟩, h1, h⟩
  · exact .inl (checkTruncated_raises h)
  rcases bind_error h with h | ⟨⟨⟩, h2, h⟩
  · exact .inr (.inl (checkRs_raises h).2)
  rcases bind_error h with h | ⟨sp, h3, h⟩
  · exact absurd (resolveSrc_raises h).1 (by simp)
  · obtain ⟨rfl, h'⟩ := deref_raises h
    have hb : f.dm.derefsSource = true := by
      cases e : f.dm.derefsSource
      · rw [e] at h; cases h
      · rfl
    exact .inr (.inr ⟨h1, h2, hb, sp, h3, rfl, h'⟩)

/-- Where a source-only opcode's resolution answers. -/
theorem resolveSource_inv {f : Fields} {s : State} {sa : Word} (h : resolveSource f s = .ok sa) :
    checkTruncated f s = .ok () ∧ checkRs .regOrImm f s = .ok () ∧
      ∃ sp, resolveSrc .regOrImm f s = .ok sp ∧ deref f.dm.derefsSource s sp = .ok sa := by
  obtain ⟨⟨⟩, h1, h⟩ := bind_ok h
  obtain ⟨⟨⟩, h2, h⟩ := bind_ok h
  obtain ⟨sp, h3, h⟩ := bind_ok h
  exact ⟨h1, h2, sp, h3, h⟩

/-! ## The operands' places, as the accesses of an instruction name them (R172, R174) -/

theorem sourcePlace_eq {i : Instr} {s : State} {sp : Word} {u : SrcUse}
    (hu : u = .stackTop ∧ i.opcode = .pop ∨ u = .regOrImm ∧ i.opcode ≠ .pop ∧ readsSourceOperand i.opcode = true)
    (h1 : checkTruncated i.fields s = .ok ()) (h2 : checkRs u i.fields s = .ok ())
    (h3 : resolveSrc u i.fields s = .ok sp) : sourcePlace i s = some sp := by
  have he := resolveSrc_cases h3
  have hl := checkTruncated_ok.1 h1
  rcases hu with ⟨rfl, ho⟩ | ⟨rfl, ho, hr⟩
  · simp [sourcePlace, ho, he]
  · simp only [sourcePlace, ho, hr, if_false, Bool.true_eq_false, he]
    cases hi : i.fields.imm
    · simp only [checkRs, hi, Bool.false_eq_true, if_false, checkIndex_ok] at h2
      simp [h2]
    · simp only [literalPresent, hi, Bool.not_true, Bool.false_or, decide_eq_true_iff] at hl
      simp [hl]

theorem destinationPlace_eq {i : Instr} {s w : State} {dp : Word} {d : DstUse}
    (hd : d = .newTop ∧ i.opcode = .push ∨ d = .reg ∧ i.opcode ≠ .push ∧ checksRd i.opcode = true)
    (h2 : checkRd d i.fields s = .ok ()) (h3 : resolveDst d i.fields s = .ok (w, dp)) :
    w = workingState i s ∧ destinationPlace i s = some dp := by
  rcases hd with ⟨rfl, ho⟩ | ⟨rfl, ho, hr⟩
  · rcases resolveDst_cases h3 with ⟨h, -⟩ | ⟨-, -, ha, hw⟩
    · cases h
    · exact ⟨by simp [workingState, ho, hw, ha], by simp [destinationPlace, ho, ha]⟩
  · rcases resolveDst_cases h3 with ⟨-, hw, ha⟩ | ⟨h, -⟩
    · have := checkIndex_ok.1 h2
      exact ⟨by simp [workingState, ho, hw], by simp [destinationPlace, ho, hr, ha, this]⟩
    · cases h

end Sys2Proof.Machine
end

