-- ==== Sys2Proof/Laws/Exec.lean ====
section
/-! SUPPORT. What an instruction can do: commit's two cases, what a working state may differ in from the state it came
from, and one inversion lemma for `exec` and one for `step` from which invariants follow. -/

namespace Sys2Proof.Machine

/-! ## Commit (R190) -/

@[simp] theorem commit_ok (f : Fields) (s w : State) (nc : NextControl) :
    commit f s (.ok (w, nc)) = .next (advance f w nc) := rfl

@[simp] theorem commit_error (f : Fields) (s : State) (r : Raised) : commit f s (.error r) = .next (s.takeFault r) := rfl

/-- Everything commit can do. -/
theorem commit_cases {f : Fields} {s t : State} {x : Except Raised (State × NextControl)} (h : commit f s x = .next t) :
    (∃ r, x = .error r ∧ t = s.takeFault r) ∨ (∃ w nc, x = .ok (w, nc) ∧ t = advance f w nc) := by
  match x, h with
  | .error r, h => exact .inl ⟨r, rfl, by cases h; rfl⟩
  | .ok (w, nc), h => exact .inr ⟨w, nc, rfl, by cases h; rfl⟩

/-! ## Working states -/

/-- How far a working state may have moved from the state of the instruction's start. -/
structure WorkingOf (s w : State) : Prop where
  pc : w.pc = s.pc
  record : SameRecord s w
  memWf : Memory.wf s.mem = true → Memory.wf w.mem = true
  memPlaced : (∀ c ∈ s.mem, s.placed c.1 = true) → ∀ c ∈ w.mem, s.placed c.1 = true
  bytes : s.Built → ∀ b, w.byteAt b ≠ s.byteAt b → s.inRegisters b = true ∨ s.placed b = true

theorem SameRecord.refl (s : State) : SameRecord s s := ⟨rfl, rfl, rfl, rfl, rfl, rfl, rfl, rfl, rfl, rfl, rfl, rfl⟩

theorem SameRecord.trans {s t u : State} (h : SameRecord s t) (k : SameRecord t u) : SameRecord s u :=
  ⟨k.1.trans h.1, k.2.trans h.2, k.3.trans h.3, k.4.trans h.4, k.5.trans h.5, k.6.trans h.6, k.7.trans h.7,
    k.8.trans h.8, k.9.trans h.9, k.10.trans h.10, k.11.trans h.11, k.12.trans h.12⟩

theorem SameRecord.setReg (s : State) (i : Nat) (v : Word) : SameRecord s (s.setReg i v) :=
  ⟨rfl, by simp, rfl, rfl, rfl, rfl, rfl, rfl, rfl, rfl, rfl, rfl⟩

theorem SameRecord.setBytes (s : State) (a : Nat) (bs : List Byte) : SameRecord s (s.setBytes a bs) :=
  ⟨by simp, by simp, by simp, by simp, by simp, by simp, by simp, by simp, by simp, by simp, by simp, by simp⟩

theorem WorkingOf.refl (s : State) : WorkingOf s s :=
  ⟨rfl, .refl s, id, id, fun _ _ h => absurd rfl h⟩

theorem WorkingOf.trans {s t u : State} (h : WorkingOf s t) (k : WorkingOf t u) : WorkingOf s u := by
  have hp : ∀ a, t.placed a = s.placed a := fun a => placed_congr h.record.params h.record.extWindows a
  refine ⟨k.pc.trans h.pc, h.record.trans k.record, k.memWf ∘ h.memWf, fun hm c hc => ?_, fun hs b hb => ?_⟩
  · rw [← hp]
    exact k.memPlaced (fun c hc => by rw [hp]; exact h.memPlaced hm c hc) c hc
  · by_cases e : u.byteAt b = t.byteAt b
    · rw [e] at hb
      exact h.bytes hs b hb
    · have hs' : t.Built := hs.congr h.record.params h.record.regCount h.record.prog
      simpa [hp, State.inRegisters, h.record.params] using k.bytes hs' b e

theorem WorkingOf.setReg (s : State) (i : Nat) (v : Word) : WorkingOf s (s.setReg i v) := by
  refine ⟨rfl, .setReg s i v, id, id, fun _ b hb => .inl ?_⟩
  by_contra hr
  have hr' : ¬ (s.setReg i v).inRegisters b = true := hr
  have hp : (s.setReg i v).inProgram b = s.inProgram b := rfl
  exact hb (by simp [State.byteAt, hr, hr', hp])

theorem WorkingOf.setBytes {s : State} {a : Word} {bs : List Byte} (hn : bs.length ≤ 8)
    (h : s.admitted a bs.length .write = true) : WorkingOf s (s.setBytes a.toNat bs) := by
  refine ⟨by simp, .setBytes s _ _, fun hm => setBytes_mem_wf hm _ _, fun hm => setBytes_placed hm hn h,
    fun hs b hb => ?_⟩
  by_cases hr : a.toNat ≤ b ∧ b < a.toNat + bs.length
  · exact admitted_write_placed hn h hr.1 hr.2
  · exact absurd ((setBytes_stores hs h).otherBytes b (by omega)) hb

theorem WorkingOf.setZf (s : State) (z : Bool) : WorkingOf s { s with zf := z } :=
  ⟨rfl, ⟨rfl, rfl, rfl, rfl, rfl, rfl, rfl, rfl, rfl, rfl, rfl, rfl⟩, id, id,
    fun _ b h => absurd (byteAt_congr (s := s) rfl rfl rfl rfl b) h⟩

theorem resolveBoth_working {u : SrcUse} {d : DstUse} {f : Fields} {s : State} {r : Resolved}
    (h : resolveBoth u d f s = .ok r) : WorkingOf s r.w := by
  rcases (resolveBoth_cases h).2 with ⟨-, hw⟩ | ⟨-, hw⟩
  · rw [hw]; exact .refl s
  · rw [hw]; exact .setReg s _ _

theorem copyBytes_working {s w : State} {sa da : Word} {n : Nat} (hn : n ≤ 8) (h : copyBytes s sa da n = .ok w) :
    WorkingOf s w := by
  obtain ⟨-, hw, rfl⟩ := copyBytes_cases h
  exact .setBytes (by simpa using hn) (by simpa using hw)

theorem memWrite_working {s w : State} {a v : Word} (h : memWrite s a 8 v = .ok w) : WorkingOf s w := by
  obtain ⟨hw, rfl⟩ := memWrite_cases h
  exact .setBytes (by simp) (by simpa using hw)

/-! ## What an instruction can do -/

/-- A next state that an instruction other than CALL reaches without a fault: an advance of a working state, the
literal present, a jump inside the program. -/
structure Completes (i : Instr) (s t : State) : Prop where
  literal : literalPresent i.fields s = true
  done : ∃ w nc, WorkingOf s w ∧ t = advance i.fields w nc ∧
    (∀ a, nc = .jump a → a.toNat ≤ s.progLen ∧ (i.opcode = .jmp ∨ i.opcode = .jne)) ∧ (nc = .halt → i.opcode = .ret)

theorem copy_completes {u : SrcUse} {d : DstUse} {f : Fields} {s : State} (hf : f.wf = true)
    {g : State → State} (hg : ∀ w, WorkingOf w (g w)) {w : State} {nc : NextControl}
    (h : (do let r ← resolveBoth u d f s
             let w ← copyBytes r.w r.sa r.da f.size
             pure (g w, NextControl.fall)) = (.ok (w, nc) : Except Raised _)) :
    literalPresent f s = true ∧ WorkingOf s w ∧ nc = .fall := by
  obtain ⟨r, h1, h⟩ := bind_ok h
  obtain ⟨w', h2, h⟩ := bind_ok h
  have he := Except.ok.inj h
  rw [Prod.mk.injEq] at he
  obtain ⟨rfl, rfl⟩ := he
  have hn : f.size ≤ 8 := by
    simp only [Fields.wf, Bool.and_eq_true, decide_eq_true_iff] at hf
    exact hf.2
  exact ⟨(resolveBoth_cases h1).1, ((resolveBoth_working h1).trans (copyBytes_working hn h2)).trans (hg w'), rfl⟩

theorem readModifyWrite_cases {op : Word → Word → Word} {f : Fields} {s w : State} {nc : NextControl}
    (h : readModifyWrite op f s = .ok (w, nc)) : literalPresent f s = true ∧ WorkingOf s w ∧ nc = .fall := by
  obtain ⟨r, h1, h⟩ := bind_ok h
  obtain ⟨b, -, h⟩ := bind_ok h
  obtain ⟨a, -, h⟩ := bind_ok h
  obtain ⟨w', h2, h⟩ := bind_ok h
  have he := Except.ok.inj h
  rw [Prod.mk.injEq] at he
  obtain ⟨rfl, rfl⟩ := he
  exact ⟨(resolveBoth_cases h1).1, (resolveBoth_working h1).trans (memWrite_working h2), rfl⟩

theorem sourceValue_literal {f : Fields} {s : State} {t : Word} (h : sourceValue f s = .ok t) :
    literalPresent f s = true := by
  obtain ⟨sa, h1, -⟩ := bind_ok h
  exact resolveSource_cases h1

theorem checkTarget_ok {s : State} {t : Word} (h : checkTarget s t = .ok ()) : t.toNat ≤ s.progLen := by
  unfold checkTarget at h
  split at h
  · cases h
  · exact Nat.not_lt.1 ‹_›

/-- Everything an instruction other than CALL can do: it takes a fault, which keeps all but the record, or completes. -/
theorem exec_cases {i : Instr} {s t : State} (hi : i.wf = true) (hc : i.opcode ≠ .call) (h : exec i s = .next t) :
    (∃ r, t = s.takeFault r) ∨ Completes i s t := by
  have fin : ∀ {x : Except Raised (State × NextControl)}, commit i.fields s x = .next t →
      (∀ w nc, x = .ok (w, nc) → literalPresent i.fields s = true ∧ WorkingOf s w ∧
        (∀ a, nc = .jump a → a.toNat ≤ s.progLen ∧ (i.opcode = .jmp ∨ i.opcode = .jne)) ∧ (nc = .halt → i.opcode = .ret)) →
      (∃ r, t = s.takeFault r) ∨ Completes i s t := by
    intro x hx hok
    rcases commit_cases hx with ⟨r, -, rfl⟩ | ⟨w, nc, hw, rfl⟩
    · exact .inl ⟨r, rfl⟩
    · obtain ⟨h1, h2, h3, h4⟩ := hok w nc hw
      exact .inr ⟨h1, w, nc, h2, rfl, h3, h4⟩
  have fall : ∀ {w : State} {nc : NextControl}, literalPresent i.fields s = true ∧ WorkingOf s w ∧ nc = .fall →
      literalPresent i.fields s = true ∧ WorkingOf s w ∧
        (∀ a, nc = .jump a → a.toNat ≤ s.progLen ∧ (i.opcode = .jmp ∨ i.opcode = .jne)) ∧ (nc = .halt → i.opcode = .ret) := by
    rintro w nc ⟨h1, h2, rfl⟩
    exact ⟨h1, h2, by simp, by simp⟩
  cases i with
  | mov f => exact fin h fun w nc hx => fall (copy_completes hi (g := id) .refl hx)
  | push f => exact fin h fun w nc hx => fall (copy_completes hi (g := id) .refl hx)
  | pop f => exact fin h fun w nc hx => fall (copy_completes hi (fun w => .setReg w _ _) hx)
  | add f => exact fin h fun w nc hx => fall (readModifyWrite_cases hx)
  | sub f => exact fin h fun w nc hx => fall (readModifyWrite_cases hx)
  | and f => exact fin h fun w nc hx => fall (readModifyWrite_cases hx)
  | xor f => exact fin h fun w nc hx => fall (readModifyWrite_cases hx)
  | lea f =>
    refine fin h fun w nc hx => fall ?_
    obtain ⟨r, h1, hx⟩ := bind_ok hx
    obtain ⟨w', h2, hx⟩ := bind_ok hx
    have he := Except.ok.inj hx
    rw [Prod.mk.injEq] at he
    obtain ⟨rfl, rfl⟩ := he
    exact ⟨(resolveBoth_cases h1).1, (resolveBoth_working h1).trans (memWrite_working h2), rfl⟩
  | cmp f =>
    refine fin h fun w nc hx => fall ?_
    obtain ⟨r, h1, hx⟩ := bind_ok hx
    obtain ⟨b, -, hx⟩ := bind_ok hx
    obtain ⟨a, -, hx⟩ := bind_ok hx
    have he := Except.ok.inj hx
    rw [Prod.mk.injEq] at he
    obtain ⟨rfl, rfl⟩ := he
    exact ⟨(resolveBoth_cases h1).1, (resolveBoth_working h1).trans (.setZf _ _), rfl⟩
  | jmp f =>
    refine fin h fun w nc hx => ?_
    obtain ⟨a, h1, hx⟩ := bind_ok hx
    obtain ⟨⟨⟩, h2, hx⟩ := bind_ok hx
    have he := Except.ok.inj hx
    rw [Prod.mk.injEq] at he
    obtain ⟨rfl, rfl⟩ := he
    exact ⟨sourceValue_literal h1, .refl _, by rintro _ ⟨⟩; exact ⟨checkTarget_ok h2, .inl rfl⟩, by simp⟩
  | jne f =>
    refine fin h fun w nc hx => ?_
    obtain ⟨a, h1, hx⟩ := bind_ok hx
    split at hx
    · have he := Except.ok.inj hx
      rw [Prod.mk.injEq] at he
      obtain ⟨rfl, rfl⟩ := he
      exact ⟨sourceValue_literal h1, .refl _, by simp, by simp⟩
    · obtain ⟨⟨⟩, h2, hx⟩ := bind_ok hx
      have he := Except.ok.inj hx
      rw [Prod.mk.injEq] at he
      obtain ⟨rfl, rfl⟩ := he
      exact ⟨sourceValue_literal h1, .refl _, by rintro _ ⟨⟩; exact ⟨checkTarget_ok h2, .inr rfl⟩, by simp⟩
  | call f => exact absurd rfl hc
  | ret f =>
    refine fin h fun w nc hx => ?_
    obtain ⟨⟨⟩, h1, hx⟩ := bind_ok hx
    have he := Except.ok.inj hx
    rw [Prod.mk.injEq] at he
    obtain ⟨rfl, rfl⟩ := he
    exact ⟨checkTruncated_ok.1 h1, .refl _, by simp, fun _ => rfl⟩

/-- Everything a CALL that steps can do: it takes a fault of its own, INVALID_CALL, or the host's lawful answer. -/
theorem execCall_cases {f : Fields} {s t : State} (h : execCall f s = .next t) :
    (∃ r, callRequest f s = .error r ∧ t = s.takeFault r) ∨
    (∃ req, callRequest f s = .ok req ∧
      ((∃ rest, s.hostAnswers = .noRoutine :: rest ∧
          t = ({ s with pending := none, hostAnswers := rest } : State).takeFault ⟨.invalidCall, req.routine⟩) ∨
       (∃ r cs rest, s.hostAnswers = .ret r cs :: rest ∧ (∀ c ∈ cs, s.hostMayWrite c.1 = true) ∧
          t = advance f (s.takeReturn r cs rest) .fall))) := by
  unfold execCall at h
  split at h
  · rename_i r hr
    exact .inl ⟨r, hr, by cases h; rfl⟩
  · rename_i req hr
    refine .inr ⟨req, hr, ?_⟩
    unfold answerRequest at h
    split at h
    · cases h
    · rename_i rest ha
      exact .inl ⟨rest, ha, by cases h; rfl⟩
    · rename_i r cs rest ha
      split at h
      · rename_i hall
        exact .inr ⟨r, cs, rest, ha, by simpa using hall, by cases h; rfl⟩
      · cases h

theorem callRequest_literal {f : Fields} {s : State} {req : NativeRequest} (h : callRequest f s = .ok req) :
    literalPresent f s = true := by
  obtain ⟨a, h1, -⟩ := bind_ok h
  exact sourceValue_literal h1

/-- Everything a step can do. -/
theorem step_cases {s t : State} (h : step s = .next t) :
    s.rst = false ∧ s.runState = .running ∧
      ((s.fetchSlot = none ∧ t = s.haltAtEnd) ∨
       (∃ stored why, s.fetchSlot = some stored ∧ decode s.obfMask stored = .error why ∧
          t = s.takeIllegal (unmask s.obfMask stored)) ∨
       (∃ stored i, s.fetchSlot = some stored ∧ decode s.obfMask stored = .ok i ∧ exec i s = .next t)) := by
  unfold step fetch at h
  cases hr : s.rst with
  | true => simp [hr] at h
  | false =>
    cases hs : s.runState with
    | halted => simp [hr, hs] at h
    | faulted => simp [hr, hs] at h
    | running =>
      refine ⟨rfl, rfl, ?_⟩
      simp only [hr, hs, Bool.false_eq_true, if_false, State.decodeAtPc] at h
      cases hf : s.fetchSlot with
      | none =>
        simp only [hf] at h
        exact .inl ⟨rfl, by cases h; rfl⟩
      | some stored =>
        cases hd : decode s.obfMask stored with
        | error why =>
          simp only [hf, hd] at h
          exact .inr (.inl ⟨stored, why, rfl, hd, by cases h; rfl⟩)
        | ok i =>
          simp only [hf, hd] at h
          exact .inr (.inr ⟨stored, i, rfl, hd, h⟩)

theorem fetchSlot_some {s : State} {w : Word} (h : s.fetchSlot = some w) : s.pc.toNat < s.progLen := by
  unfold State.fetchSlot at h
  exact (List.getElem?_eq_some_iff.1 h).1

theorem fetchSlot_none {s : State} : s.fetchSlot = none ↔ s.progLen ≤ s.pc.toNat := by
  simp [State.fetchSlot]

/-- Everything presenting a request can do: at a CALL whose identifier can be read and that has no answer, it makes the
request pending. -/
theorem presentRequest_iff {s t : State} : s.presentRequest = some t ↔
    ∃ f req, fetch s = .instr (.call f) ∧ s.hostAnswers = [] ∧ callRequest f s = .ok req ∧
      t = { s with pending := some req } := by
  unfold State.presentRequest State.waitingRequest
  constructor
  · intro h
    split at h
    · rename_i f hf ha
      cases hc : callRequest f s with
      | error r => simp [hc, Except.toOption] at h
      | ok req => exact ⟨f, req, hf, ha, hc, by simpa [hc, Except.toOption] using h.symm⟩
    · cases h
  · rintro ⟨f, req, hf, ha, hc, rfl⟩
    simp [hf, ha, hc, Except.toOption]

/-- A core that presents a request has no step until the host answers (R160). -/
theorem step_presentRequest {s t : State} (h : s.presentRequest = some t) :
    step s = .fault .waitingForHost ∧ step t = .fault .waitingForHost := by
  obtain ⟨f, req, hf, ha, hc, rfl⟩ := presentRequest_iff.1 h
  have w : ∀ u, fetch u = .instr (.call f) → callRequest f u = .ok req → u.hostAnswers = [] →
      step u = .fault .waitingForHost := fun u h1 h2 h3 => by
    simp [step, h1, exec, execCall, h2, answerRequest, h3]
  exact ⟨w _ hf hc ha, w _ hf hc ha⟩

end Sys2Proof.Machine
end

