-- ==== Sys2Proof/Laws/PerInstr.lean ====
section
/-! SUPPORT. Statements about every instruction, one lemma per constructor. -/

/-- The opcode field of an instruction's plain word is its row's value (R104, R130). -/
def Sys2Proof.Laws.EncodedOpcode.Statement (i : Sys2Proof.Instr) : Prop :=
  Sys2Proof.opcField (Sys2Proof.encodePlain i) = (Sys2Proof.Instr.opcode i).value

theorem Sys2Proof.Laws.EncodedOpcode.mov (f : Sys2Proof.Fields) :
    Sys2Proof.Laws.EncodedOpcode.Statement (.mov f) := Sys2Proof.opcField_encodePlain _

theorem Sys2Proof.Laws.EncodedOpcode.push (f : Sys2Proof.Fields) :
    Sys2Proof.Laws.EncodedOpcode.Statement (.push f) := Sys2Proof.opcField_encodePlain _

theorem Sys2Proof.Laws.EncodedOpcode.pop (f : Sys2Proof.Fields) :
    Sys2Proof.Laws.EncodedOpcode.Statement (.pop f) := Sys2Proof.opcField_encodePlain _

theorem Sys2Proof.Laws.EncodedOpcode.add (f : Sys2Proof.Fields) :
    Sys2Proof.Laws.EncodedOpcode.Statement (.add f) := Sys2Proof.opcField_encodePlain _

theorem Sys2Proof.Laws.EncodedOpcode.sub (f : Sys2Proof.Fields) :
    Sys2Proof.Laws.EncodedOpcode.Statement (.sub f) := Sys2Proof.opcField_encodePlain _

theorem Sys2Proof.Laws.EncodedOpcode.and (f : Sys2Proof.Fields) :
    Sys2Proof.Laws.EncodedOpcode.Statement (.and f) := Sys2Proof.opcField_encodePlain _

theorem Sys2Proof.Laws.EncodedOpcode.xor (f : Sys2Proof.Fields) :
    Sys2Proof.Laws.EncodedOpcode.Statement (.xor f) := Sys2Proof.opcField_encodePlain _

theorem Sys2Proof.Laws.EncodedOpcode.lea (f : Sys2Proof.Fields) :
    Sys2Proof.Laws.EncodedOpcode.Statement (.lea f) := Sys2Proof.opcField_encodePlain _

theorem Sys2Proof.Laws.EncodedOpcode.cmp (f : Sys2Proof.Fields) :
    Sys2Proof.Laws.EncodedOpcode.Statement (.cmp f) := Sys2Proof.opcField_encodePlain _

theorem Sys2Proof.Laws.EncodedOpcode.jmp (f : Sys2Proof.Fields) :
    Sys2Proof.Laws.EncodedOpcode.Statement (.jmp f) := Sys2Proof.opcField_encodePlain _

theorem Sys2Proof.Laws.EncodedOpcode.jne (f : Sys2Proof.Fields) :
    Sys2Proof.Laws.EncodedOpcode.Statement (.jne f) := Sys2Proof.opcField_encodePlain _

theorem Sys2Proof.Laws.EncodedOpcode.call (f : Sys2Proof.Fields) :
    Sys2Proof.Laws.EncodedOpcode.Statement (.call f) := Sys2Proof.opcField_encodePlain _

theorem Sys2Proof.Laws.EncodedOpcode.ret (f : Sys2Proof.Fields) :
    Sys2Proof.Laws.EncodedOpcode.Statement (.ret f) := Sys2Proof.opcField_encodePlain _
end

