-- ==== Sys2Proof/Tests/Slice0.lean ====
section
/-! SUPPORT. Tests: the spec's own vectors (95_test_vectors.md) and worked examples, and for every statement with
hypotheses a state and operands that meet them. Every expected value is the spec's. -/

open Sys2Proof Sys2Proof.Machine

namespace Sys2Proof.Tests

/-- The start state of 95_test_vectors.md, with the listed registers and program. -/
def st (regs : List (Nat × Word)) (prog : List Word) : State :=
  regs.foldl (fun s c => s.setReg c.1 c.2) { State.reset with prog := prog }

/-- The same with an external window of 64 bytes at `EXT_BASE`, accesses of 1 and 8 bytes. -/
def ext (regs : List (Nat × Word)) (prog : List Word) : State :=
  { st regs prog with extWindows := [⟨0x100000000, 64, [1, 8]⟩] }

def after (o : Outcome) : Option State :=
  match o with
  | .next t => some t
  | .fault _ => none
  | .refused _ => none

def reg (o : Outcome) (i : Nat) : Option Word := (after o).map (fun t => t.reg i)

def pc (o : Outcome) : Option Word := (after o).map State.pc

/-- Cause, slot and info of a step that ended in FAULTED. -/
def fault (o : Outcome) : Option (FaultCause × Word × Word) :=
  match after o with
  | none => none
  | some t => if t.runState = .faulted then some (t.faultCause, t.faultPc, t.faultInfo) else none

def decoded (mask w : Word) : Option Instr :=
  match decode mask w with
  | .ok i => some i
  | .error _ => none

/-! ## Parameters (00_scope.md R8) -/

/-- R8's constraints hold of R8's values; they are refused where one fails: 9 registers, a register window that runs into
the stack, a base of 0. -/
theorem test_parameters : Config.params.Legal ∧ Config.params.stackEnd = 0x11000 ∧ Config.params.sp = 7 ∧
    Config.params.nargs = 6 ∧ ¬ ({ Config.params with nreg := 9 } : Params).Legal ∧
    ¬ ({ Config.params with regBase := 0xFFC8 } : Params).Legal ∧ ¬ ({ Config.params with regBase := 0 } : Params).Legal := by
  decide

/-- Another legal build (R8, I16, I17): 6 registers, 16 bytes of stack at 64, 4 slots at 80. -/
def small : Params := ⟨6, 16, 8, 64, 80, 4, 128⟩

/-- After reset in a build. -/
def stOf (p : Params) (regs : List (Nat × Word)) (prog : List Word) : State :=
  regs.foldl (fun s c => s.setReg c.1 c.2) { State.resetOf p with prog := prog }

/-- There `SP` is R5, the stack ends at 80, R6 names no register, and `LEA R1, #v` gives 80 + 8. -/
theorem test_small_build : small.Legal ∧ reg (step (stOf small [(1, 5)] [0x400102])) 5 = some 72 ∧
    fault (step (stOf small [] [0x406102])) = none ∧ fault (step (stOf small [] [0x406003])) = some (.invalidRegister, 0, 6) ∧
    reg (step (stOf small [] [0x441F08, 0x99])) 1 = some 88 := by decide

/-- There a CALL has four arguments. -/
theorem test_small_build_call : (stOf small [(1, 3), (4, 9)] [0x40030C]).presentRequest.map State.pending =
    some (some ⟨0, [3, 0, 0, 9]⟩) := by decide

/-! ## Well-formedness (R110) -/

theorem test_wf_size_zero_refused : (Instr.mov ⟨1, 2, .none, false, 0⟩).wf = false := by decide

theorem test_wf_size_nine_refused : (Instr.push ⟨1, 2, .none, true, 9⟩).wf = false := by decide

theorem test_wf_size_bounds : (Instr.ret ⟨0, 0, .none, false, 1⟩).wf = true ∧
    (Instr.ret ⟨15, 15, .both, true, 8⟩).wf = true := by decide

/-! ## Decoding: words written out from R104, `SZ I DM RD RS OPC` -/

theorem test_decode_mov : decoded 0 0b1000_1_00_0001_1111_00000001 = some (.mov ⟨15, 1, .none, true, 8⟩) := by decide

theorem test_decode_push : decoded 0 0b0100_1_00_0000_1111_00000010 = some (.push ⟨15, 0, .none, true, 4⟩) := by decide

theorem test_decode_pop : decoded 0 0b1000_0_10_0010_0000_00000011 = some (.pop ⟨0, 2, .destination, false, 8⟩) := by
  decide

theorem test_decode_add : decoded 0 0b1000_0_00_0001_0010_00000100 = some (.add ⟨2, 1, .none, false, 8⟩) := by decide

theorem test_decode_sub : decoded 0 0b1000_0_00_0001_0010_00000101 = some (.sub ⟨2, 1, .none, false, 8⟩) := by decide

theorem test_decode_and : decoded 0 0b0001_0_11_0001_0010_00000110 = some (.and ⟨2, 1, .both, false, 1⟩) := by decide

theorem test_decode_xor : decoded 0 0b1000_0_00_0001_0010_00000111 = some (.xor ⟨2, 1, .none, false, 8⟩) := by decide

theorem test_decode_lea : decoded 0 0b1000_0_01_0001_0010_00001000 = some (.lea ⟨2, 1, .source, false, 8⟩) := by decide

theorem test_decode_cmp : decoded 0 0b1000_0_00_0001_0010_00001001 = some (.cmp ⟨2, 1, .none, false, 8⟩) := by decide

theorem test_decode_jmp : decoded 0 0b1000_1_00_0000_1111_00001010 = some (.jmp ⟨15, 0, .none, true, 8⟩) := by decide

theorem test_decode_jne : decoded 0 0b1000_0_01_0000_0010_00001011 = some (.jne ⟨2, 0, .source, false, 8⟩) := by decide

theorem test_decode_call : decoded 0 0b1000_0_00_0000_0011_00001100 = some (.call ⟨3, 0, .none, false, 8⟩) := by decide

theorem test_decode_ret : decoded 0 0b1000_0_00_0000_0000_00001101 = some (.ret ⟨0, 0, .none, false, 8⟩) := by decide

/-- D-1 to D-5. -/
theorem test_decode_illegal : ([0, 0x40000E, 0xC00001, 0x000001, 0x480001] : List Word).all
    (fun w => (decoded 0 w).isNone && (decoderBlock 0 w).illegal) = true := by decide

/-- D-7, and the opcode table's words through `decodeTableWord`. -/
theorem test_decode_masked : (decoderBlock 0xA5A5A5A5A5A5A5A5 0xA5A5A5A5A5E1BAA4).opc = 1 ∧
    decodeTableWord 64 0x40030C = some (.call ⟨3, 0, .none, false, 8⟩) ∧ decodeTableWord 64 0 = none := by decide

/-- E-1, E-3, E-4 (by kind), E-5, E-5b, E-7. -/
theorem test_encoder :
    encoderBlock 0xA5A5A5A5A5A5A5A5 ⟨1, 2, 0, false, 8, 0, 0, 0⟩ = ⟨0xA5A5A5A5A5E1BAA4, true, false⟩ ∧
    encoderBlock 0 ⟨1, 2, 1, false, 4, 2, 0, 0⟩ = ⟨0x221001, false, false⟩ ∧
    encoderBlock 0 ⟨1, 3, 4, true, 0, 0, 3, 4⟩ = ⟨0x232301, false, false⟩ ∧
    encoderBlock 0 ⟨1, 2, 3, false, 16, 0, 0, 0⟩ = ⟨0x401201, false, false⟩ ∧
    (encoderBlock 0 ⟨1, 2, 3, false, 0, 0, 0, 0⟩).err = true ∧
    (encoderBlock 0 ⟨0x0E, 1, 1, false, 8, 0, 0, 0⟩).err = true := by decide

/-! ## One step -/

/-- M-5. -/
theorem test_mov_partial : reg (step (st [(1, 0xFFFFFFFFFFFFFFFF)] [0x141F01, 0x11223344])) 1 =
    some 0xFFFFFFFFFFFF3344 := by decide

/-- M-19. -/
theorem test_mov_overlap : reg (step (st [(0, 0x0807060504030201), (1, 0x1001)] [0x221001])) 0 =
    some 0x0807060403020101 := by decide

/-- M-9. -/
theorem test_push_immediate : (after (step (st [] [0x240F02, 0xAABBCCDD]))).map (fun t => (t.mem, t.spReg, t.pc)) =
    some ([(0x10FFC, 0xDD), (0x10FFD, 0xCC), (0x10FFE, 0xBB), (0x10FFF, 0xAA)], 0x10FFC, 2) := by decide

/-- M-11. -/
theorem test_push_overflow : fault (step (st [(7, 0x10004)] [0x400102])) = some (.stackOverflow, 0, 0x10004) := by
  decide

/-- M-14. -/
theorem test_pop_sp : reg (step { st [(7, 0x10FF8)] [0x407003] with
    mem := [(0x10FF8, 0xF0), (0x10FF9, 0x0F), (0x10FFA, 1)] }) 7 = some 0x10FF8 := by decide

/-- M-13. -/
theorem test_pop_underflow : fault (step (st [] [0x402003])) = some (.stackUnderflow, 0, 0x11000) := by decide

/-- A-1: the source is the destination. -/
theorem test_add_wraps : reg (step (st [(2, 0x8000000000000001)] [0x402204])) 2 = some 2 := by decide

/-- A-4: the read of the program region passes, the write faults. -/
theorem test_add_program_region : fault (step (st [(1, 0x100000)] [0x461F04, 0])) =
    some (.invalidDereference, 0, 0x100000) := by decide

/-- A-12. -/
theorem test_sub_wraps : reg (step (st [(2, 1)] [0x401205])) 1 = some 0xFFFFFFFFFFFFFFFF := by decide

/-- A-13. -/
theorem test_and : reg (step (st [(1, 0xF0F0), (2, 0xFF00)] [0x401206])) 1 = some 0xF000 := by decide

/-- A-14. -/
theorem test_xor : reg (step (st [(1, 0xF0F0), (2, 0xFF00)] [0x401207])) 1 = some 0x0FF0 := by decide

/-- M-16, M-17. -/
theorem test_lea_literal : reg (step (st [] [0x441F08, 0x99])) 1 = some 0x100008 ∧
    reg (step (st [] [0x451F08, 0x99])) 1 = some 0x99 := by decide

/-- M-18: the address is unmapped and never read. -/
theorem test_lea_pointer : reg (step (st [(2, 0x4242)] [0x411208])) 1 = some 0x4242 := by decide

/-- A-5. -/
theorem test_cmp_unequal : (after (step { st [(1, 5), (2, 6)] [0x401209] with zf := true })).map State.zf = some false := by
  decide

/-- A-5b. -/
theorem test_cmp_equal : (after (step (st [(1, 5), (2, 5)] [0x401209]))).map State.zf = some true := by decide

/-- C-3: a jump to `PROG_LEN` is legal. -/
theorem test_jmp_to_end : pc (step (st [] [0x440F0A, 2])) = some 2 := by decide

/-- C-4. -/
theorem test_jmp_out_of_bounds : fault (step (st [] [0x440F0A, 3])) = some (.outOfBoundsJump, 0, 3) := by decide

/-- C-9: not taken, the target is not checked. -/
theorem test_jne_not_taken : pc (step { st [] [0x440F0B, 0x64] with zf := true }) = some 2 := by decide

/-- C-8: not taken, the target is read. -/
theorem test_jne_reads_target : fault (step { st [] [0x41020B] with zf := true }) =
    some (.invalidDereference, 0, 0) := by decide

/-- C-12. -/
theorem test_call : reg (step { st [(1, 0xFFFFFFFFFFFFFFFF), (2, 2)] [0x440F0C, 0xA0D] with
    hostAnswers := [.ret 1 []] }) 0 = some 1 := by decide

/-- C-17: no step. -/
theorem test_call_waits : step (st [] [0x440F0C, 0xA0D]) = .fault .waitingForHost := rfl

/-- The request of C-11. -/
theorem test_call_request : (st [(1, 3), (2, 4), (3, 0xA0D)] [0x40030C]).presentRequest.map
    (fun t => (t.pending, t.pc)) = some (some ⟨0xA0D, [3, 4, 0xA0D, 0, 0, 0]⟩, 0) := by decide

/-- R150: a negative decimal v means 2^64 + v, down to -2^64; the next one is no 64-bit word. -/
theorem test_negative_decimals : ["-0", "-1", "-9223372036854775809", "-18446744073709551616", "-18446744073709551617"].map
    (fun v => assembleText Config.params 0 ("MOV R1, #" ++ v).toList) =
    [some [0x441F01, 0], some [0x441F01, 0xFFFFFFFFFFFFFFFF], some [0x441F01, 0x7FFFFFFFFFFFFFFF], some [0x441F01, 0],
      none] := by decide

/-- C-15. -/
theorem test_ret : (after (step (st [] [0x40000D, 0x441F01, 1]))).map (fun t => (t.runState, t.pc)) =
    some (.halted, 0) := by decide

/-- C-16. -/
theorem test_ret_truncated : fault (step (st [] [0x440F0D])) = some (.truncatedImmediate, 0, 0) := by decide

/-- F-4's RD = 15, and an illegal word: the plain word is recorded (R166). -/
theorem test_fetch_faults : fault (step (st [] [0x40F201])) = some (.invalidRegister, 0, 15) ∧
    fault (step { st [] [0xFF] with obfMask := 0xFF }) = some (.illegalInstruction, 0, 0) := by decide

/-- R45's fields after a fault with the zero-flag set. -/
theorem test_status_word : (after (step { st [] [0x41020B] with zf := true })).map State.statusWord = some 0x162 := by
  decide

/-- P1m: the text of P1 under the mask. -/
theorem test_assemble_p1 : assembleText Config.params 0xA5A5A5A5A5A5A5A5
    ("MOV R1, #5\nMOV R2, #5 ; equal\nCMP R1, R2\nJNE #end\nMOV R0, #1\nend:".toList) =
    some [0xA5A5A5A5A5E1BAA4, 5, 0xA5A5A5A5A5E18AA4, 5, 0xA5A5A5A5A5E5B7AC, 0xA5A5A5A5A5E1AAAE, 9,
      0xA5A5A5A5A5E1AAA4, 1] := by decide

/-- Refused (R152): a wrong operand count, an immediate destination, a size of 9, register 8. -/
theorem test_assemble_refuses : ["RET R1", "MOV #1, R2", "POP.9 R1", "MOV R8, R1", "JMP #nowhere"].all
    (fun l => (assembleText Config.params 0 l.toList).isNone) = true := by decide

/-! ## Witnesses: a state and operands that meet every hypothesis of a statement, each clause at a boundary value -/

theorem witness_DecodeOfEncode : (Instr.mov ⟨0, 15, .both, true, 1⟩).wf = true ∧
    (Instr.ret ⟨15, 0, .none, false, 8⟩).wf = true := by decide

theorem witness_EncodeOfDecode : decode 0xFF (0x40000D ^^^ 0xFF) = .ok (.ret ⟨0, 0, .none, false, 8⟩) := rfl

/-- Sizes 1 and 255, the first and the last opcode. -/
theorem witness_EncoderThenDecoder :
    (∃ e : EncoderIn, 0x01 ≤ e.opc.toNat ∧ e.opc.toNat ≤ 0x0D ∧ 1 ≤ e.sizeIn ∧ e.sel1 = 0 ∧ e.sel2 = 1) ∧
    (∃ e : EncoderIn, 0x01 ≤ e.opc.toNat ∧ e.opc.toNat ≤ 0x0D ∧ 1 ≤ e.sizeIn ∧ e.sel1 = 1 ∧ e.sel2 = 0) :=
  ⟨⟨⟨1, 0, 1, false, 1, 0, 0, 0⟩, by decide⟩, ⟨⟨13, 1, 0, true, 0, 0, 3, 255⟩, by decide⟩⟩

/-- An illegal word and a legal one. -/
theorem witness_IllegalWordExactly : (∃ (s : State) (w : Word), s.rst = false ∧ s.runState = .running ∧
      s.prog[s.pc.toNat]? = some w ∧ (decoderBlock s.obfMask w).illegal = true) ∧
    (∃ (s : State) (w : Word), s.rst = false ∧ s.runState = .running ∧
      s.prog[s.pc.toNat]? = some w ∧ (decoderBlock s.obfMask w).illegal = false) :=
  ⟨⟨st [] [0x480001], 0x480001, by decide⟩, ⟨st [] [0x40000D], 0x40000D, by decide⟩⟩

/-- `PUSH [#x]` with its literal, `POP.1 [SP]`, `CALL R7`, `RET`: every operand shape, at the last register. -/
theorem witness_AssembledWordsDecode : Config.params.Legal ∧
    asmInstr Config.params 0 [(['x'], 3)] ⟨.push, 8, [.abs (.label ['x'])]⟩ = some [0x450F02, 3] ∧
    asmInstr Config.params 0 [] ⟨.pop, 1, [.ind 7]⟩ = some [0x0A7003] ∧
    asmInstr Config.params 0 [] ⟨.mov, 8, [.ind 2, .reg 7]⟩ = some [0x422701] ∧
    asmInstr Config.params 0 [] ⟨.ret, 8, []⟩ = some [0x40000D] := by decide

/-- Refused, each ground at its boundary: two operands, an immediate destination, sizes 0 and 9, register 8; and one
instruction that is not refused. -/
theorem witness_AssemblerRefusesExactly :
    [(⟨.ret, 8, [.reg 0]⟩ : AsmInstr), ⟨.pop, 8, [.imm (.number 0)]⟩, ⟨.ret, 0, []⟩, ⟨.ret, 9, []⟩, ⟨.jmp, 8, [.ind 8]⟩].all
      (fun a => (asmEncoderIn Config.params a).isNone) = true ∧
    (asmEncoderIn Config.params ⟨.jmp, 8, [.ind 7]⟩).isSome = true := by decide

theorem witness_AssembledLabels : (assembleText Config.params 0 "JMP #x\nx: RET".toList) = some [0x440F0A, 2, 0x40000D] := by
  decide

/-- Each region's first and last admitted byte, and one byte past it. -/
theorem witness_AccessAdmission : (st [] [0]).Built ∧ (ext [] [0]).admitted 0x1000 8 .write = true ∧
    (ext [] [0]).admitted 0x103F 1 .read = true ∧ (ext [] [0]).admitted 0x1040 1 .read = false ∧
    (ext [] [0]).admitted 0x10FF8 8 .write = true ∧ (ext [] [0]).admitted 0x10FF9 8 .write = false ∧
    (ext [] [0]).admitted 0x100007 1 .read = true ∧ (ext [] [0]).admitted 0x100007 1 .write = false ∧
    (ext [] [0]).admitted 0x100008 1 .read = false ∧ (ext [] [0]).admitted 0x100000038 8 .write = true ∧
    (ext [] [0]).admitted 0x100000039 8 .write = false ∧
    (ext [] [0]).admitted 0xFFFFFFFFFFFFFFFF 8 .read = false := by decide

theorem witness_WriteBytesStores : (∃ (s : State) (a : Word) (bs : List Byte), s.Built ∧ 1 ≤ bs.length ∧
      bs.length ≤ 8 ∧ s.admitted a bs.length .write = true) ∧
    (∃ (s : State) (a : Word) (bs : List Byte), s.Built ∧ 1 ≤ bs.length ∧ bs.length ≤ 8 ∧
      s.admitted a bs.length .write = false) :=
  ⟨⟨st [] [0], 0x10FFF, [7], by decide⟩, ⟨st [] [0], 0x100000, [1, 2, 3, 4, 5, 6, 7, 8], by decide⟩⟩

theorem witness_MemReadIsLittleEndianSum :
    (∃ (s : State) (a : Word) (n : Nat), 1 ≤ n ∧ n ≤ 8 ∧ s.admitted a n .read = true) ∧
    (∃ (s : State) (a : Word) (n : Nat), 1 ≤ n ∧ n ≤ 8 ∧ s.admitted a n .read = false) :=
  ⟨⟨st [] [0], 0x100000, 8, by decide⟩, ⟨st [] [0], 0xFFF, 1, by decide⟩⟩

theorem witness_MemWriteThenMemRead : ∃ (s : State) (a : Word) (n : Nat), s.Built ∧ 1 ≤ n ∧ n ≤ 8 ∧
    s.admitted a n .write = true := ⟨st [] [0], 0x103F, 1, by decide⟩

/-- `MOV.4 [R2], [#v]` (memory to memory). -/
theorem witness_MovCopiesBytes : ∃ (f : Fields) (s : State) (sa da : Word), f.wf = true ∧ s.Built ∧
    sourceAddress f s = some sa ∧ destinationAddress f s = some da ∧
    s.admitted sa f.size .read = true ∧ s.admitted da f.size .write = true :=
  ⟨⟨15, 2, .both, true, 4⟩, st [(2, 0x10000)] [0, 0x100004], 0x100004, 0x10000, by decide⟩

theorem witness_MovPartialWidth : ∃ (f : Fields) (s : State) (sa da : Word), f.wf = true ∧ f.size < 8 ∧ s.Built ∧
    sourceAddress f s = some sa ∧ destinationAddress f s = some da ∧
    s.admitted sa f.size .read = true ∧ s.admitted da f.size .write = true ∧ da = s.regAddr 7 :=
  ⟨⟨0, 7, .none, false, 7⟩, st [] [0], 0x1000, 0x1038, by decide⟩

/-- The last byte of the stack, without and with DM[1]. -/
theorem witness_PushCopiesToNewTop : (∃ (f : Fields) (s w : State) (top sa da : Word), f.wf = true ∧ s.Built ∧
      s.params.stackBase + f.size ≤ s.spReg.toNat ∧ s.spReg.toNat ≤ s.params.stackEnd ∧ top = s.spReg - BitVec.ofNat 64 f.size ∧
      w = s.setSp top ∧ sourceAddress f w = some sa ∧ da = top ∧ f.dm.derefsDestination = false ∧
      w.admitted sa f.size .read = true) ∧
    (∃ (f : Fields) (s w : State) (top sa da : Word), f.wf = true ∧ s.Built ∧
      s.params.stackBase + f.size ≤ s.spReg.toNat ∧ s.spReg.toNat ≤ s.params.stackEnd ∧ top = s.spReg - BitVec.ofNat 64 f.size ∧
      w = s.setSp top ∧ sourceAddress f w = some sa ∧ f.dm.derefsDestination = true ∧ da = w.wordAt top ∧
      w.admitted top 8 .read = true ∧ w.admitted sa f.size .read = true ∧ w.admitted da f.size .write = true) :=
  ⟨⟨⟨15, 0, .none, true, 8⟩, st [(7, 0x10008)] [0, 0], (st [(7, 0x10008)] [0, 0]).setSp 0x10000, 0x10000, 0x100008,
      0x10000, by decide⟩,
    ⟨⟨7, 0, .destination, false, 8⟩, { st [] [0] with mem := [(0x10FF9, 0x10)] },
      ({ st [] [0] with mem := [(0x10FF9, 0x10)] } : State).setSp 0x10FF8, 0x10FF8, 0x1038, 0x1000, by decide⟩⟩

theorem witness_PushSpPushesDecremented : ∃ (f g : Fields) (s : State), f.wf = true ∧ g.wf = true ∧ s.Built ∧
    s.params.stackBase + f.size ≤ s.spReg.toNat ∧ s.spReg.toNat ≤ s.params.stackEnd ∧ f.imm = false ∧ f.rs.toNat = s.params.sp ∧ f.dm = .none ∧
    s.params.stackBase + g.size ≤ s.spReg.toNat ∧ g.imm = false ∧ g.rs.toNat = s.params.sp ∧ g.dm = .source :=
  ⟨⟨7, 0, .none, false, 8⟩, ⟨7, 0, .source, false, 1⟩, st [] [0], by decide⟩

/-- One byte too low, and one byte too high. -/
theorem witness_PushOverflowExactly : ∃ (f : Fields) (s t : State), literalPresent f s = true ∧
    literalPresent f t = true ∧ (f.imm = false → f.rs.toNat < s.params.nreg) ∧ s.spReg.toNat = s.params.stackBase + f.size - 1 ∧
    t.spReg.toNat = 0x11001 := ⟨⟨1, 0, .none, false, 8⟩, st [(7, 0x10007)] [0], st [(7, 0x11001)] [0], by decide⟩

/-- Without and with DM[0], the pointer in the stack's last eight bytes. -/
theorem witness_PopCopiesFromTop : (∃ (f : Fields) (s : State) (sa da : Word), f.wf = true ∧ s.Built ∧
      literalPresent f s = true ∧ s.params.stackBase ≤ s.spReg.toNat ∧ s.spReg.toNat + f.size ≤ s.params.stackEnd ∧ sa = s.spReg ∧
      f.dm.derefsSource = false ∧ destinationAddress f s = some da ∧ s.admitted da f.size .write = true) ∧
    (∃ (f : Fields) (s : State) (sa da : Word), f.wf = true ∧ s.Built ∧
      literalPresent f s = true ∧ s.params.stackBase ≤ s.spReg.toNat ∧ s.spReg.toNat + f.size ≤ s.params.stackEnd ∧
      f.dm.derefsSource = true ∧ sa = s.wordAt s.spReg ∧ s.admitted s.spReg 8 .read = true ∧
      destinationAddress f s = some da ∧ s.admitted sa f.size .read = true ∧ s.admitted da f.size .write = true) :=
  ⟨⟨⟨0, 2, .none, false, 1⟩, st [(7, 0x10FFF)] [0], 0x10FFF, 0x1010, by decide⟩,
    ⟨⟨0, 2, .both, false, 8⟩, { st [(2, 0x10000), (7, 0x10FF8)] [0] with mem := [(0x10FF9, 0x10)] }, 0x1000, 0x10000,
      by decide⟩⟩

theorem witness_PopSpAddsAfterWrite : ∃ (f g : Fields) (s : State), f.wf = true ∧ g.wf = true ∧ s.Built ∧
    literalPresent f s = true ∧ literalPresent g s = true ∧ s.params.stackBase ≤ s.spReg.toNat ∧
    s.spReg.toNat + f.size ≤ s.params.stackEnd ∧ f.size = 8 ∧ g.size = 1 ∧ f.rd.toNat = s.params.sp ∧ g.rd.toNat = s.params.sp ∧ f.dm = .none ∧ g.dm = .none :=
  ⟨⟨0, 7, .none, false, 8⟩, ⟨0, 7, .none, false, 1⟩, st [(7, 0x10FF8)] [0], by decide⟩

theorem witness_PopUnderflowExactly : ∃ (f : Fields) (s t : State), f.wf = true ∧ literalPresent f s = true ∧
    literalPresent f t = true ∧ f.rd.toNat < s.params.nreg ∧ s.spReg.toNat = 0xFFFF ∧ t.spReg.toNat = t.params.stackEnd :=
  ⟨⟨0, 2, .none, false, 1⟩, st [(7, 0xFFFF)] [0], st [] [0], by decide⟩

/-- PUSH: the pointer runs past the stack's end; a source that is not admitted; a target that is not admitted. -/
theorem witness_StackCopyFaultOrder_push : (∃ (f : Fields) (s w : State) (top sa : Word), f.wf = true ∧ s.Built ∧
      s.params.stackBase + f.size ≤ s.spReg.toNat ∧ s.spReg.toNat ≤ s.params.stackEnd ∧ top = s.spReg - BitVec.ofNat 64 f.size ∧
      w = s.setSp top ∧ sourceAddress f w = some sa ∧ f.dm.derefsDestination = true ∧ top.toNat + 8 = 0x11001) ∧
    (∃ (f : Fields) (s w : State) (top sa : Word), f.wf = true ∧ s.Built ∧
      s.params.stackBase + f.size ≤ s.spReg.toNat ∧ s.spReg.toNat ≤ s.params.stackEnd ∧ top = s.spReg - BitVec.ofNat 64 f.size ∧
      w = s.setSp top ∧ sourceAddress f w = some sa ∧ f.dm.derefsDestination = false ∧
      w.admitted sa f.size .read = false) ∧
    (∃ (f : Fields) (s w : State) (top sa : Word), f.wf = true ∧ s.Built ∧
      s.params.stackBase + f.size ≤ s.spReg.toNat ∧ s.spReg.toNat ≤ s.params.stackEnd ∧ top = s.spReg - BitVec.ofNat 64 f.size ∧
      w = s.setSp top ∧ sourceAddress f w = some sa ∧ f.dm.derefsDestination = true ∧ top.toNat + 8 = 0x11000 ∧
      w.admitted sa f.size .read = true ∧ w.admitted (w.wordAt top) f.size .write = false) :=
  ⟨⟨⟨1, 0, .destination, false, 7⟩, st [] [0], (st [] [0]).setSp 0x10FF9, 0x10FF9, 0x1008, by decide⟩,
    ⟨⟨1, 0, .source, false, 1⟩, st [] [0], (st [] [0]).setSp 0x10FFF, 0x10FFF, 0, by decide⟩,
    ⟨⟨1, 0, .destination, false, 8⟩, st [] [0], (st [] [0]).setSp 0x10FF8, 0x10FF8, 0x1008, by decide⟩⟩

/-- POP: the same three. -/
theorem witness_StackCopyFaultOrder_pop : (∃ (f : Fields) (s : State) (da : Word), f.wf = true ∧ s.Built ∧
      literalPresent f s = true ∧ s.params.stackBase ≤ s.spReg.toNat ∧ s.spReg.toNat + f.size ≤ s.params.stackEnd ∧
      destinationAddress f s = some da ∧ f.dm.derefsSource = true ∧ s.spReg.toNat + 8 = 0x11001) ∧
    (∃ (f : Fields) (s : State) (sa da : Word), f.wf = true ∧ s.Built ∧
      literalPresent f s = true ∧ s.params.stackBase ≤ s.spReg.toNat ∧ s.spReg.toNat + f.size ≤ s.params.stackEnd ∧
      destinationAddress f s = some da ∧ f.dm.derefsSource = true ∧ sa = s.wordAt s.spReg ∧
      s.spReg.toNat + 8 = 0x11000 ∧ s.admitted sa f.size .read = false) ∧
    (∃ (f : Fields) (s : State) (sa da : Word), f.wf = true ∧ s.Built ∧
      literalPresent f s = true ∧ s.params.stackBase ≤ s.spReg.toNat ∧ s.spReg.toNat + f.size ≤ s.params.stackEnd ∧
      destinationAddress f s = some da ∧ f.dm.derefsSource = false ∧ sa = s.spReg ∧
      s.admitted sa f.size .read = true ∧ s.admitted da f.size .write = false) :=
  ⟨⟨⟨0, 1, .source, false, 1⟩, st [(7, 0x10FF9)] [0], 0x1008, by decide⟩,
    ⟨⟨0, 1, .source, false, 8⟩, st [(7, 0x10FF8)] [0], 0, 0x1008, by decide⟩,
    ⟨⟨0, 1, .destination, false, 8⟩, st [(7, 0x10FF8)] [0], 0x10FF8, 0, by decide⟩⟩

theorem witness_PushThenPop : ∃ (s : State) (a b : BitVec 4), s.Built ∧ a.toNat < s.params.sp ∧ b.toNat < s.params.sp ∧
    s.params.stackBase + 8 ≤ s.spReg.toNat ∧ s.spReg.toNat ≤ s.params.stackEnd := ⟨st [(7, 0x10008)] [0, 0], 0, 6, by decide⟩

/-- `LEA [R7], [R2]`: the source's address is not readable. -/
theorem witness_LeaWritesSourceAddress : ∃ (f : Fields) (s : State) (sa da : Word), s.Built ∧
    sourceAddress f s = some sa ∧ destinationAddress f s = some da ∧ s.admitted da 8 .write = true ∧
    s.admitted sa 1 .read = false :=
  ⟨⟨2, 7, .both, false, 8⟩, st [(2, 0x4242), (7, 0x10FF8)] [0], 0x4242, 0x10FF8, by decide⟩

/-- A literal source and a destination in external memory. -/
theorem witness_ArithmeticStoresResult : ∃ (f : Fields) (s : State) (sa da : Word), s.Built ∧
    sourceAddress f s = some sa ∧ destinationAddress f s = some da ∧ s.admitted sa 8 .read = true ∧
    s.admitted da 8 .read = true ∧ s.admitted da 8 .write = true :=
  ⟨⟨15, 1, .destination, true, 8⟩, ext [(1, 0x100000038)] [0, 5], 0x100008, 0x100000038, by decide⟩

theorem witness_AddThenSub : ∃ (s : State) (a b : BitVec 4), s.Built ∧ a.toNat < s.params.nreg ∧ b.toNat < s.params.nreg ∧ a ≠ b ∧
    s.reg a.toNat = 0 ∧ s.reg b.toNat = 1 :=
  ⟨st [(7, 1)] [0, 0], 0, 7, by decide⟩

/-- A destination in the program region (A-10). -/
theorem witness_CmpSetsZeroFlag : ∃ (f : Fields) (s : State) (sa da : Word), s.Built ∧
    sourceAddress f s = some sa ∧ destinationAddress f s = some da ∧ s.admitted sa 8 .read = true ∧
    s.admitted da 8 .read = true ∧ s.admitted da 8 .write = false :=
  ⟨⟨15, 1, .destination, true, 8⟩, st [(1, 0x100000)] [0x461F09, 0x100000], 0x100008, 0x100000, by decide⟩

theorem witness_ZeroFlagWritersAndReaders : (∃ (i : Instr) (s : State), i.opcode ≠ .cmp ∧ (after (exec i s)).isSome) ∧
    (∃ i : Instr, i.opcode ≠ .jne) :=
  ⟨⟨.sub ⟨1, 1, .none, false, 8⟩, st [] [0], by decide⟩, ⟨.cmp ⟨0, 0, .none, false, 8⟩, by decide⟩⟩

/-- Targets below `PROG_LEN`, at it, and one past it. -/
theorem witness_JumpTargets : ∃ (f : Fields) (s t u : State), s.Built ∧ s.zf = false ∧ s.rst = false ∧
    s.runState = .running ∧ s.progLen = 2 ∧ t.progLen = 2 ∧ u.progLen = 2 ∧
    sourceAddress f s = some 0x100008 ∧ s.admitted 0x100008 8 .read = true ∧ s.wordAt 0x100008 = 1 ∧
    sourceAddress f t = some 0x100008 ∧ t.admitted 0x100008 8 .read = true ∧ t.wordAt 0x100008 = 2 ∧
    sourceAddress f u = some 0x100008 ∧ u.admitted 0x100008 8 .read = true ∧ u.wordAt 0x100008 = 3 :=
  ⟨⟨15, 0, .none, true, 8⟩, st [] [0, 1], st [] [0, 2], st [] [0, 3], by decide⟩

theorem witness_JneNotTakenFallsThrough : ∃ (f : Fields) (s : State) (sa : Word), s.Built ∧
    sourceAddress f s = some sa ∧ s.admitted sa 8 .read = true ∧ s.zf = true :=
  ⟨⟨15, 0, .none, true, 8⟩, { st [] [0x440F0B, 0x64] with zf := true }, 0x100008, by decide⟩

/-- Two changes to the first and the last byte the platform serves. -/
theorem witness_CallTakesReturn : ∃ (f : Fields) (s : State) (sa r : Word) (changes : List Host.Cell)
    (rest : List HostAnswer), s.Built ∧ sourceAddress f s = some sa ∧ s.admitted sa 8 .read = true ∧
    s.hostAnswers = .ret r changes :: rest ∧ (∀ c ∈ changes, s.hostMayWrite c.1 = true) ∧ changes.length = 2 :=
  ⟨⟨3, 0, .none, false, 8⟩,
    { ext [(3, 0xA0D)] [0x40030C] with hostAnswers := [.ret 7 [(0x100000000, 1), (0x10000003F, 0)]] }, 0x1018, 7,
    [(0x100000000, 1), (0x10000003F, 0)], [], by decide⟩

theorem witness_CallWithoutAnswerWaits : ∃ (f : Fields) (s : State) (sa : Word), s.Built ∧ s.rst = false ∧
    s.runState = .running ∧ s.prog[s.pc.toNat]? = some (encode s.obfMask (.call f)) ∧ f.wf = true ∧
    sourceAddress f s = some sa ∧ s.admitted sa 8 .read = true ∧ s.hostAnswers = [] :=
  ⟨⟨3, 0, .none, false, 8⟩, st [(3, 0xA0D)] [0x40030C], 0x1018, by decide⟩

theorem witness_CallAnsweredLater : ∃ (f : Fields) (s : State), s.rst = false ∧ s.runState = .running ∧
    s.prog[s.pc.toNat]? = some (encode s.obfMask (.call f)) ∧ f.wf = true ∧ s.pending = none ∧ s.hostAnswers = [] ∧
    ((s.presentRequest.bind (fun t => t.answerCall .noRoutine)).isSome) ∧
    ((s.presentRequest.bind (fun t => t.answerCall (.ret 7 [(0x100000000, 1)]))).isSome) :=
  ⟨⟨3, 0, .none, false, 8⟩, ext [(3, 0xA0D)] [0x40030C], by decide⟩

theorem witness_CallWithoutRoutineFaults : ∃ (f : Fields) (s : State) (sa : Word) (rest : List HostAnswer),
    s.Built ∧ sourceAddress f s = some sa ∧ s.admitted sa 8 .read = true ∧ s.hostAnswers = .noRoutine :: rest :=
  ⟨⟨3, 0, .none, false, 8⟩, { st [(3, 0xBAD)] [0x40030C] with hostAnswers := [.noRoutine] }, 0x1018, [], by decide⟩

/-- A change to a byte of the stack. -/
theorem witness_CallRefusesUnlawfulAnswer : ∃ (f : Fields) (s : State) (sa r : Word) (changes : List Host.Cell)
    (rest : List HostAnswer), s.Built ∧ sourceAddress f s = some sa ∧ s.admitted sa 8 .read = true ∧
    s.hostAnswers = .ret r changes :: rest ∧ (∃ c ∈ changes, s.hostMayWrite c.1 = false) :=
  ⟨⟨3, 0, .none, false, 8⟩, { ext [] [0x40030C] with hostAnswers := [.ret 7 [(0x10FFF, 1)]] }, 0x1018, 7,
    [(0x10FFF, 1)], [], by decide⟩

theorem witness_RetHalts : (∃ (f : Fields) (s : State), f.imm = true ∧ literalPresent f s = true) ∧
    (∃ (f : Fields) (s : State), literalPresent f s = false) :=
  ⟨⟨⟨0, 0, .none, true, 8⟩, st [] [0x44000D, 0], by decide⟩, ⟨⟨0, 0, .none, true, 8⟩, st [] [0x44000D], by decide⟩⟩

theorem witness_TruncatedImmediate : (∃ (i : Instr) (s : State), i.fields.imm = true ∧ s.progLen = s.pc.toNat + 1) ∧
    (∃ s : State, s.Built ∧ s.pc.toNat ≤ s.progLen ∧ (after (step s)).isSome) :=
  ⟨⟨.pop ⟨0, 0, .none, true, 8⟩, st [] [0x440003], by decide⟩, ⟨st [] [0x40000D], by decide⟩⟩

/-- Index 8 in RD, and in RS with RD = 7. -/
theorem witness_InvalidRegister : (∃ (i : Instr) (s : State), literalPresent i.fields s = true ∧
      checksRd i.opcode = true ∧ i.fields.rd.toNat = s.params.nreg) ∧
    (∃ (i : Instr) (s : State), literalPresent i.fields s = true ∧ checksRd i.opcode = true ∧
      i.fields.rd.toNat < s.params.nreg ∧ readsSourceOperand i.opcode = true ∧ i.fields.imm = false ∧ i.fields.rs.toNat = s.params.nreg) :=
  ⟨⟨.mov ⟨15, 8, .none, false, 8⟩, st [] [0], by decide⟩, ⟨.mov ⟨8, 7, .none, false, 8⟩, st [] [0], by decide⟩⟩

/-- A source that cannot be read; a destination that cannot be written; one that can be read and not written. -/
theorem witness_DataAccessFaultOrder : (∃ (f : Fields) (s : State) (sa da : Word), s.Built ∧
      sourceAddress f s = some sa ∧ destinationAddress f s = some da ∧ s.admitted sa 8 .read = false ∧
      s.admitted sa f.size .read = false) ∧
    (∃ (f : Fields) (s : State) (sa da : Word), s.Built ∧ sourceAddress f s = some sa ∧
      destinationAddress f s = some da ∧ s.admitted sa f.size .read = true ∧ s.admitted da f.size .write = false ∧
      s.admitted sa 8 .read = true ∧ s.admitted da 8 .read = false ∧ s.admitted da 8 .write = false) ∧
    (∃ (f : Fields) (s : State) (sa da : Word), s.Built ∧ sourceAddress f s = some sa ∧
      destinationAddress f s = some da ∧ s.admitted sa 8 .read = true ∧ s.admitted da 8 .read = true ∧
      s.admitted da 8 .write = false) :=
  ⟨⟨⟨2, 1, .source, false, 1⟩, st [(2, 0xFFF)] [0], 0xFFF, 0x1008, by decide⟩,
    ⟨⟨2, 1, .destination, false, 8⟩, st [(1, 0x1039)] [0], 0x1010, 0x1039, by decide⟩,
    ⟨⟨2, 1, .destination, false, 8⟩, st [(1, 0x100000)] [0], 0x1010, 0x100000, by decide⟩⟩

/-- R69, R174, R176: `PUSH` with DM[1] reads the pointer at the new top, then its source, then writes through the pointer. -/
theorem test_accesses_push : accesses (.push ⟨1, 0, .destination, false, 4⟩) (st [] [0]) =
    [⟨0x10FFC, 8, .read⟩, ⟨0x1008, 4, .read⟩, ⟨0, 4, .write⟩] := by decide

/-- A fault of fetch and INVALID_CALL. -/
theorem witness_FaultTable : (fault (step (st [] [0]))).map Prod.fst = some .illegalInstruction ∧
    (fault (step { st [] [0x40030C] with hostAnswers := [.noRoutine] })).map Prod.fst = some .invalidCall := by
  decide

/-- The same two serve here. -/
theorem witness_FaultsArePrecise : ∃ s t : State, step s = .next t ∧ t.runState = .faulted :=
  ⟨st [] [0], _, rfl, rfl⟩

theorem witness_StepRunsDecoded : ∃ (s : State) (w : Word) (i : Instr), s.rst = false ∧ s.runState = .running ∧
    s.prog[s.pc.toNat]? = some w ∧ decode s.obfMask w = .ok i :=
  ⟨{ st [] [0x40000D ^^^ 0xA5] with obfMask := 0xA5 }, 0x40000D ^^^ 0xA5, .ret ⟨0, 0, .none, false, 8⟩, rfl, rfl, rfl, rfl⟩

theorem witness_HaltAtProgramEnd : (∃ s : State, s.rst = false ∧ s.runState = .running ∧ s.progLen = s.pc.toNat ∧
    s.prog ≠ []) ∧ State.reset.rst = false ∧ State.reset.runState = .running ∧ State.reset.prog = [] :=
  ⟨⟨{ st [] [0] with pc := 1 }, by decide⟩, by decide⟩

theorem witness_TerminalStates : ({ State.reset with runState := .halted } : State).runState = .halted ∧
    ({ State.reset with runState := .faulted } : State).runState = .faulted := by decide

/-- A step into each of the three run states. -/
theorem witness_RunStateMachine : ([st [] [0x440F0A, 0], st [] [0x40000D], st [] [0], st [] []].map
    (fun s => (after (step s)).map State.runState)) = [some .running, some .halted, some .faulted, some .halted] := by
  decide

theorem witness_ProgramIsReadOnly : (after (step (st [] [0x40000D]))).isSome ∧
    ((State.reset.assertReset []).loadProgram [0x40000D]).isSome := by decide

/-- A byte of each writable region changes. -/
theorem witness_StepChangesWritableBytesOnly :
    (∃ s t : State, s.Built ∧ step s = .next t ∧ t.byteAt 0x10FF8 ≠ s.byteAt 0x10FF8 ∧
      t.byteAt 0x1038 ≠ s.byteAt 0x1038) ∧
    (∃ s t : State, s.Built ∧ step s = .next t ∧ t.byteAt 0x10000003F ≠ s.byteAt 0x10000003F) :=
  ⟨⟨st [(1, 1)] [0x400102], _, by decide, rfl, by decide⟩,
    ⟨ext [(1, 0x10000003F), (2, 9)] [0x0A1201], _, by decide, rfl, by decide⟩⟩

/-- The invariant holds at reset, where the step halts. -/
theorem witness_StepKeepsInvariant : State.reset.Inv ∧ (after (step State.reset)).isSome :=
  ⟨⟨rfl, by simp [State.reset, State.resetOf], by decide, by decide, by decide, by decide,
    by simp [State.reset, State.resetOf], by decide⟩, by decide⟩

/-- This hardware, and another build. -/
theorem witness_ResetValues : (st [] [0]).params.Legal ∧ (stOf small [] []).params.Legal := by decide

/-- The same two serve here. -/
theorem witness_ResetInAnyState : (st [] [0]).params.Legal ∧ (stOf small [] []).params.Legal := witness_ResetValues

theorem witness_ResetHasInvariant : Config.params.Legal ∧ small.Legal := by decide

theorem witness_EntryPoint : (st [] [0x40000D]).params.Legal ∧ State.reset.params.Legal ∧ State.reset.progLen = 0 ∧ (st [] [0x40000D]).prog[0]? = some 0x40000D ∧
    decode (st [] [0x40000D]).obfMask 0x40000D = .ok (.ret ⟨0, 0, .none, false, 8⟩) :=
  ⟨by decide, by decide, rfl, rfl, rfl⟩

theorem witness_BootStartsProgram : State.reset.Inv ∧ (State.reset.boot [1, 2] [0x40000D] []).isSome :=
  ⟨witness_StepKeepsInvariant.1, by decide⟩

theorem witness_StatusFields : State.reset.Inv := witness_StepKeepsInvariant.1

/-- The four moves that can be turned away succeed in states with the invariant. -/
theorem witness_HostMovesKeepInvariant : (∃ s t u : State, s.Inv ∧ s.loadProgram [0x40000D] = some t ∧
      s.loadExternal [] = some u) ∧
    (∃ s t u : State, s.Inv ∧ s.presentRequest = some u ∧ s.answerCall .noRoutine = some t) :=
  ⟨⟨{ State.reset with rst := true }, _, _,
      ⟨rfl, by simp [State.reset, State.resetOf], by decide, by decide, by decide, by decide,
        by simp [State.reset, State.resetOf], by decide⟩,
      rfl, rfl⟩,
    ⟨{ st [] [0x40030C] with pending := some ⟨0, [0, 0, 0, 0, 0, 0]⟩ }, _, _,
      ⟨rfl, by simp [st, State.reset, State.resetOf], by decide, by decide, by decide, by decide,
        by rintro _ ⟨⟩; exact ⟨rfl, ⟨3, 0, .none, false, 8⟩, rfl, rfl⟩, by decide⟩, rfl, rfl⟩⟩

theorem witness_StoredWordRunsNext : decodePlain 0x40000D = .ok (.ret ⟨0, 0, .none, false, 8⟩) := rfl

end Sys2Proof.Tests
end

namespace Sys2Proof.Machine

/-! ## The rule that MOV, PUSH and POP share -/

/-- Resolve, copy SZ bytes, and end with `g` on the working state (R200, R210, R220). -/
def copyRule (u : SrcUse) (d : DstUse) (g : State → State) (f : Fields) (s : State) :
    Except Raised (State × NextControl) := do
  let r ← resolveBoth u d f s
  let w ← copyBytes r.w r.sa r.da f.size
  pure (g w, .fall)

/-- POP's increment of `SP`, read after the copy (R223). -/
def popSp (f : Fields) (w : State) : State := w.setSp (w.spReg + BitVec.ofNat 64 f.size)

theorem execMov_eq (f : Fields) (s : State) : execMov f s = commit f s (copyRule .regOrImm .reg id f s) := rfl

theorem execPush_eq (f : Fields) (s : State) : execPush f s = commit f s (copyRule .regOrImm .newTop id f s) := rfl

theorem execPop_eq (f : Fields) (s : State) : execPop f s = commit f s (copyRule .stackTop .reg (popSp f) f s) := rfl

/-! ## What an instruction's rule answers: a value with a property, or a fault with a cause -/

/-- A computation that answers a value with `P` or raises a fault that names its cause (R300). -/
def Answers {α : Type} (P : α → Prop) : Except Raised α → Prop
  | .ok a => P a
  | .error r => r.cause ≠ .none

@[simp] theorem answers_ok {α : Type} {P : α → Prop} {a : α} : Answers P (.ok a) ↔ P a := Iff.rfl

@[simp] theorem answers_error {α : Type} {P : α → Prop} {r : Raised} :
    Answers P (.error r : Except Raised α) ↔ r.cause ≠ .none := Iff.rfl

theorem Answers.bind {α β : Type} {P : α → Prop} {Q : β → Prop} {x : Except Raised α} {g : α → Except Raised β}
    (hx : Answers P x) (hg : ∀ a, P a → Answers Q (g a)) : Answers Q (x >>= g) := by
  cases x with
  | ok a => exact hg a hx
  | error r => exact hx

/-- The two sides of `Answers`, as the inversion lemmas of the operations state them. -/
theorem answers_of {α : Type} {P : α → Prop} {x : Except Raised α} (hok : ∀ a, x = .ok a → P a)
    (herr : ∀ r, x = .error r → r.cause ≠ .none) : Answers P x := by
  cases x with
  | ok a => exact hok a rfl
  | error r => exact herr r rfl

theorem memRead_answers (s : State) (a : Word) (n : Nat) : Answers (fun _ => True) (memRead s a n) :=
  answers_of (fun _ _ => trivial) fun r h => by simp [(memRead_raises h).2]

theorem checkTruncated_answers (f : Fields) (s : State) : Answers (fun _ => True) (checkTruncated f s) :=
  answers_of (fun _ _ => trivial) fun r h => by simp [(checkTruncated_raises h).2.2]

theorem checkTarget_answers (s : State) (t : Word) : Answers (fun _ => True) (checkTarget s t) := by
  unfold checkTarget
  split <;> simp

theorem memWrite_answers (s : State) (a : Word) (n : Nat) (v : Word) :
    Answers (fun w => w.runState = s.runState) (memWrite s a n v) :=
  answers_of (fun w h => by simp [(memWrite_cases h).2]) fun r h => by simp [(memWrite_raises h).2]

theorem copyBytes_answers (s : State) (sa da : Word) (n : Nat) :
    Answers (fun w => w.runState = s.runState) (copyBytes s sa da n) :=
  answers_of (fun w h => by simp [(copyBytes_cases h).2.2]) fun r h => by simp [(copyBytes_raises h).1]

theorem resolveBoth_answers (u : SrcUse) (d : DstUse) (f : Fields) (s : State) :
    Answers (fun r => r.w.runState = s.runState) (resolveBoth u d f s) := by
  refine answers_of (fun r h => (resolveBoth_working h).record.runState) fun r h => ?_
  rcases resolveBoth_raises h with ⟨-, -, rfl⟩ | ⟨-, -, rfl⟩ | ⟨-, -, -, rfl⟩ | ⟨-, -, rfl⟩ | ⟨-, -, rfl⟩ | ⟨hc, -⟩
  any_goals simp
  simp [hc]

theorem sourceValue_answers (f : Fields) (s : State) : Answers (fun _ => True) (sourceValue f s) := by
  have hsrc : Answers (fun _ => True) (resolveSource f s) := by
    refine answers_of (fun _ _ => trivial) fun r h => ?_
    rcases resolveSource_raises h with ⟨-, -, rfl⟩ | ⟨-, -, rfl⟩ | ⟨-, -, -, sp, -, rfl, -⟩ <;> simp
  exact hsrc.bind fun sa _ => memRead_answers s sa 8

theorem callRequest_answers (f : Fields) (s : State) : Answers (fun _ => True) (callRequest f s) :=
  (sourceValue_answers f s).bind fun _ _ => trivial

/-- An instruction's rule answers a working state that has not touched `run_state`, or raises a named cause. -/
abbrev RuleAnswers (s : State) : Except Raised (State × NextControl) → Prop :=
  Answers fun p => p.1.runState = s.runState

theorem copyRule_answers (u : SrcUse) (d : DstUse) {g : State → State} (f : Fields) (s : State)
    (hg : ∀ w, (g w).runState = w.runState) : RuleAnswers s (copyRule u d g f s) :=
  (resolveBoth_answers u d f s).bind fun _ hr =>
    (copyBytes_answers _ _ _ _).bind fun w hw => (hg w).trans (hw.trans hr)

theorem readModifyWrite_answers (op : Word → Word → Word) (f : Fields) (s : State) :
    RuleAnswers s (readModifyWrite op f s) :=
  (resolveBoth_answers _ _ f s).bind fun _ hr => (memRead_answers _ _ _).bind fun _ _ =>
    (memRead_answers _ _ _).bind fun _ _ => (memWrite_answers _ _ _ _).bind fun _ hw => hw.trans hr

/-- Every instruction other than CALL commits what its rule answers (R190). -/
theorem exec_commits {i : Instr} (s : State) (hc : i.opcode ≠ .call) :
    ∃ x, exec i s = commit i.fields s x ∧ RuleAnswers s x := by
  cases i with
  | mov f => exact ⟨_, execMov_eq f s, copyRule_answers _ _ f s fun _ => rfl⟩
  | push f => exact ⟨_, execPush_eq f s, copyRule_answers _ _ f s fun _ => rfl⟩
  | pop f => exact ⟨_, execPop_eq f s, copyRule_answers _ _ f s fun _ => rfl⟩
  | add f => exact ⟨_, rfl, readModifyWrite_answers _ f s⟩
  | sub f => exact ⟨_, rfl, readModifyWrite_answers _ f s⟩
  | and f => exact ⟨_, rfl, readModifyWrite_answers _ f s⟩
  | xor f => exact ⟨_, rfl, readModifyWrite_answers _ f s⟩
  | lea f =>
    exact ⟨_, rfl, (resolveBoth_answers _ _ f s).bind fun _ hr =>
      (memWrite_answers _ _ _ _).bind fun _ hw => hw.trans hr⟩
  | cmp f =>
    exact ⟨_, rfl, (resolveBoth_answers _ _ f s).bind fun _ hr =>
      (memRead_answers _ _ _).bind fun _ _ => (memRead_answers _ _ _).bind fun _ _ => hr⟩
  | jmp f =>
    exact ⟨_, rfl, (sourceValue_answers f s).bind fun t _ => (checkTarget_answers s t).bind fun _ _ => rfl⟩
  | jne f =>
    refine ⟨_, rfl, (sourceValue_answers f s).bind fun t _ => ?_⟩
    split
    · rfl
    · exact (checkTarget_answers s t).bind fun _ _ => rfl
  | call f => exact absurd rfl hc
  | ret f => exact ⟨_, rfl, (checkTruncated_answers f s).bind fun _ _ => rfl⟩

/-- A running core's instruction other than CALL takes a fault with a named cause, or completes. -/
theorem exec_named_cases {i : Instr} {s t : State} (hi : i.wf = true) (hc : i.opcode ≠ .call)
    (hrun : s.runState = .running) (h : exec i s = .next t) :
    (∃ r, r.cause ≠ .none ∧ t = s.takeFault r) ∨ Completes i s t := by
  refine (exec_cases hi hc h).imp_left ?_
  rintro ⟨r, ht⟩
  obtain ⟨x, hx, hans⟩ := exec_commits s hc
  rcases commit_cases (hx.symm.trans h) with ⟨r', rfl, ht'⟩ | ⟨w, nc, rfl, ht'⟩
  · exact ⟨r', hans, ht'⟩
  · have hw : w.runState = .running := hans.trans hrun
    have hf : (advance i.fields w nc).runState = .faulted := by rw [← ht', ht]; rfl
    cases nc <;> simp [hw] at hf

/-- An instruction is the one its operation and its fields make. -/
theorem eq_make_of_opcode {i : Instr} {o : Opcode} (h : i.opcode = o) : i = Instr.make o i.fields := by
  rw [← h, Instr.make_opcode_fields]

/-! ## The invariant (R35, R38, R39), kept by each part of a step -/

/-- The halt transition keeps the invariant (R162). -/
theorem State.Inv.haltAtEnd {s : State} (h : s.Inv) (hrun : s.runState = .running) (hpend : s.pending = none)
    (hrst : s.rst = false) : s.haltAtEnd.Inv := by
  have hcause : s.faultCause = .none := by simpa [hrun] using h.causeIffFaulted
  exact { h with
    causeIffFaulted := by simp [hcause]
    noRecord := fun _ => h.noRecord (by simp [hrun])
    pendingIsCall := by simp [hpend]
    heldInReset := by simp [hrst] }

/-- Commit's advance keeps the invariant where the next slot is in `0 .. PROG_LEN` (R35, R192). -/
theorem State.Inv.advance {f : Fields} {w : State} {nc : NextControl} (h : w.Inv) (hrun : w.runState = .running)
    (hpend : w.pending = none) (hrst : w.rst = false) (hlit : literalPresent f w = true)
    (hpc : w.pc.toNat < w.progLen) (hjump : ∀ a, nc = .jump a → a.toNat ≤ w.progLen) :
    (advance f w nc).Inv := by
  cases nc with
  | fall =>
    refine { h with pcInProgram := ?_, pendingIsCall := by simp [hpend], heldInReset := by simp [hrst] }
    show (w.pc + if f.imm then 2#64 else 1#64).toNat ≤ w.progLen
    rw [BitVec.toNat_add]
    refine (Nat.mod_le _ _).trans ?_
    cases hi : f.imm
    · exact hpc
    · exact Nat.succ_le_of_lt (by simpa [literalPresent, hi] using hlit)
  | jump a =>
    exact { h with pcInProgram := hjump a rfl, pendingIsCall := by simp [hpend], heldInReset := by simp [hrst] }
  | halt => exact h.haltAtEnd hrun hpend hrst

/-- Taking a fault with a cause keeps the invariant, where no native call is pending (R306). -/
theorem State.Inv.takeFault {s : State} {r : Raised} (h : s.Inv) (hr : r.cause ≠ .none) (hpend : s.pending = none)
    (hrst : s.rst = false) : (s.takeFault r).Inv :=
  { h with
    causeIffFaulted := by simp [hr]
    noRecord := by simp
    pendingIsCall := by simp [hpend]
    heldInReset := by simp [hrst] }

/-- A working state keeps the invariant, where no native call is pending. -/
theorem State.Inv.working {s w : State} (h : s.Inv) (hw : WorkingOf s w) (hpend : s.pending = none)
    (hrst : s.rst = false) : w.Inv where
  memCanonical := hw.memWf h.memCanonical
  memPlaced c hc := by
    rw [placed_congr hw.record.params hw.record.extWindows]
    exact hw.memPlaced h.memPlaced c hc
  built := h.built.congr hw.record.params hw.record.regCount hw.record.prog
  pcInProgram := by simpa only [State.progLen, hw.pc, hw.record.prog] using h.pcInProgram
  causeIffFaulted := by simpa only [hw.record.faultCause, hw.record.runState] using h.causeIffFaulted
  noRecord := by simpa only [hw.record.faultPc, hw.record.faultInfo, hw.record.runState] using h.noRecord
  pendingIsCall := by simp [hw.record.pending, hpend]
  heldInReset := by simp [hw.record.rst, hrst]

/-- The end of a native call keeps the invariant: none is pending any more, and its answer is used up. -/
theorem State.Inv.callOver {s : State} (h : s.Inv) (hrst : s.rst = false) (rest : List HostAnswer) :
    ({ s with pending := none, hostAnswers := rest } : State).Inv :=
  { h with pendingIsCall := by simp, heldInReset := by simp [hrst] }

/-- Taking a lawful answer of the host keeps the invariant (R320). -/
theorem State.Inv.takeReturn {s : State} (h : s.Inv) (hrst : s.rst = false) (r : Word) {cs : List Host.Cell}
    (rest : List HostAnswer) (hcs : ∀ c ∈ cs, s.hostMayWrite c.1 = true) : (s.takeReturn r cs rest).Inv where
  memCanonical := Memory.wf_writeCells cs h.memCanonical
  memPlaced c hc := by
    rw [placed_congr (s.takeReturn_params r cs rest) (s.takeReturn_extWindows r cs rest)]
    rcases Memory.mem_writeCells hc with hc | hc
    · exact h.memPlaced c hc
    · simp [State.placed, hcs c hc]
  built := h.built.congr rfl (by simp) rfl
  pcInProgram := h.pcInProgram
  causeIffFaulted := h.causeIffFaulted
  noRecord := h.noRecord
  pendingIsCall := by simp
  heldInReset := by simp [hrst]

/-- A native call is pending only at a CALL whose request can be formed (R39). -/
theorem State.Inv.pending_none {s : State} (h : s.Inv)
    (hno : ∀ f req, s.decodeAtPc = .instr (.call f) → callRequest f s ≠ .ok req) : s.pending = none := by
  cases hp : s.pending with
  | none => rfl
  | some req =>
    obtain ⟨-, f, hd, hr⟩ := h.pendingIsCall req hp
    exact absurd hr (hno f req hd)

/-- A legal instruction other than CALL keeps the invariant. -/
theorem State.Inv.after_exec {s t : State} {i : Instr} (h : s.Inv) (hrun : s.runState = .running) (hrst : s.rst = false)
    (hpend : s.pending = none) (hpc : s.pc.toNat < s.progLen) (hi : i.wf = true) (hc : i.opcode ≠ .call)
    (ht : exec i s = .next t) : t.Inv := by
  rcases exec_named_cases hi hc hrun ht with ⟨r, hr, rfl⟩ | ⟨hlit, w, nc, hw, rfl, hjump, -⟩
  · exact h.takeFault hr hpend hrst
  · have hlen : w.progLen = s.progLen := congrArg List.length hw.record.prog
    refine (h.working hw hpend hrst).advance (hw.record.runState.trans hrun) (hw.record.pending.trans hpend)
      (hw.record.rst.trans hrst) ?_ (by rw [hw.pc, hlen]; exact hpc) fun a ha => by rw [hlen]; exact (hjump a ha).1
    simpa only [literalPresent, hw.pc, hlen] using hlit

/-- A CALL that steps keeps the invariant: whatever its end, no native call is pending after it. -/
theorem State.Inv.after_execCall {s t : State} {f : Fields} (h : s.Inv) (hrun : s.runState = .running)
    (hrst : s.rst = false) (hpc : s.pc.toNat < s.progLen) (hd : s.decodeAtPc = .instr (.call f))
    (ht : execCall f s = .next t) : t.Inv := by
  rcases execCall_cases ht with ⟨r, hr, rfl⟩ | ⟨req, hreq, ⟨rest, -, rfl⟩ | ⟨r, cs, rest, -, hcs, rfl⟩⟩
  · have hcause : r.cause ≠ .none := by simpa [hr] using callRequest_answers f s
    refine h.takeFault hcause (h.pending_none fun f' req hd' => ?_) hrst
    obtain rfl : f = f' := by simpa [hd] using hd'
    simp [hr]
  · exact (h.callOver hrst rest).takeFault (by simp) rfl hrst
  · have hlit : literalPresent f s = true := callRequest_literal hreq
    exact (h.takeReturn hrst r rest hcs).advance hrun rfl hrst hlit hpc (by simp)

/-- Settles O49: each of the transitions of `step_cases` keeps the invariant. -/
theorem stepKeepsInvariant : Obligations.StepKeepsInvariant := by
  intro s t h ht
  obtain ⟨hrst, hrun, ⟨hend, rfl⟩ | ⟨stored, why, hf, hdec, rfl⟩ | ⟨stored, i, hf, hdec, hexec⟩⟩ := step_cases ht
  · exact h.haltAtEnd hrun (h.pending_none (by simp [State.decodeAtPc, hend])) hrst
  · exact h.takeFault (by simp) (h.pending_none (by simp [State.decodeAtPc, hf, hdec])) hrst
  · have hd : s.decodeAtPc = .instr i := by simp [State.decodeAtPc, hf, hdec]
    by_cases hc : i.opcode = .call
    · obtain ⟨f, rfl⟩ : ∃ f, i = .call f := ⟨_, eq_make_of_opcode hc⟩
      exact h.after_execCall hrun hrst (fetchSlot_some hf) hd hexec
    · have hpend : s.pending = none := h.pending_none fun f req hd' => by
        obtain rfl : i = .call f := by simpa [hd] using hd'
        exact absurd rfl hc
      exact h.after_exec hrun hrst hpend (fetchSlot_some hf) (decode_wf hdec) hc hexec

/-! ## The zero-flag: an instruction that neither reads nor writes it commutes with changing it (R36) -/

/-- The state with another zero-flag. -/
def State.withZf (s : State) (z : Bool) : State := { s with zf := z }

@[simp] theorem State.withZf_zf (s : State) (z : Bool) : (s.withZf z).zf = z := rfl

@[simp] theorem State.withZf_self (s : State) : s.withZf s.zf = s := rfl

/-- The resolver's answer with another zero-flag in its working state. -/
def Resolved.withZf (r : Resolved) (z : Bool) : Resolved := { r with w := r.w.withZf z }

/-- A rule's answer with another zero-flag in its working state. -/
def ruleWithZf (z : Bool) (p : State × NextControl) : State × NextControl := (p.1.withZf z, p.2)

/-- An outcome with another zero-flag in its next state. -/
def outcomeWithZf (z : Bool) : Outcome → Outcome
  | .next t => .next (t.withZf z)
  | .fault r => .fault r
  | .refused r => .refused r

@[simp] theorem eraseZf_outcomeWithZf (z : Bool) (o : Outcome) : eraseZf (outcomeWithZf z o) = eraseZf o := by
  cases o <;> rfl

section
variable (s : State) (z : Bool)

/-! ### The operations over registers and memory -/

theorem memRead_withZf (a : Word) (n : Nat) : memRead (s.withZf z) a n = memRead s a n := rfl

theorem readBytes_withZf (a : Word) (n : Nat) : readBytes (s.withZf z) a n = readBytes s a n := rfl

theorem setByte_withZf (a : Nat) (v : Byte) : (s.withZf z).setByte a v = (s.setByte a v).withZf z := by
  by_cases h : s.inRegisters a = true
  · have h' : (s.withZf z).inRegisters a = true := h
    simp only [State.setByte, h, h', if_true]
    rfl
  · have h' : ¬ (s.withZf z).inRegisters a = true := h
    simp only [State.setByte, h, h']
    rfl

theorem setBytes_withZf (a : Nat) (bs : List Byte) : (s.withZf z).setBytes a bs = (s.setBytes a bs).withZf z := by
  induction bs generalizing s a with
  | nil => rfl
  | cons b bs ih => rw [State.setBytes, setByte_withZf, ih, State.setBytes]

theorem writeBytes_withZf (a : Word) (bs : List Byte) :
    writeBytes (s.withZf z) a bs = (·.withZf z) <$> writeBytes s a bs := by
  cases h : s.admitted a bs.length .write with
  | false => rw [writeBytes_error h, writeBytes_error (s := s.withZf z) h]; rfl
  | true => rw [writeBytes_ok h, writeBytes_ok (s := s.withZf z) h, setBytes_withZf]; rfl

theorem memWrite_withZf (a : Word) (n : Nat) (v : Word) :
    memWrite (s.withZf z) a n v = (·.withZf z) <$> memWrite s a n v := writeBytes_withZf s z a _

theorem copyBytes_withZf (sa da : Word) (n : Nat) :
    copyBytes (s.withZf z) sa da n = (·.withZf z) <$> copyBytes s sa da n := by
  simp only [copyBytes, readBytes_withZf, writeBytes_withZf, map_bind]

/-! ### The resolver and the rules over it -/

theorem resolveDst_withZf (d : DstUse) (f : Fields) :
    resolveDst d f (s.withZf z) = (fun p => (p.1.withZf z, p.2)) <$> resolveDst d f s := by
  cases d with
  | reg => rfl
  | newTop =>
    simp only [resolveDst, map_bind]
    rfl

theorem resolveBoth_withZf (u : SrcUse) (d : DstUse) (f : Fields) :
    resolveBoth u d f (s.withZf z) = (·.withZf z) <$> resolveBoth u d f s := by
  simp only [resolveBoth, resolveDst_withZf, map_bind, bind_map_left]
  rfl

theorem sourceValue_withZf (f : Fields) : sourceValue f (s.withZf z) = sourceValue f s := rfl

theorem copyRule_withZf (u : SrcUse) (d : DstUse) {g : State → State} (f : Fields)
    (hg : ∀ w, g (w.withZf z) = (g w).withZf z) :
    copyRule u d g f (s.withZf z) = ruleWithZf z <$> copyRule u d g f s := by
  simp only [copyRule, resolveBoth_withZf, map_bind, bind_map_left, Resolved.withZf, copyBytes_withZf, hg]
  rfl

theorem readModifyWrite_withZf (op : Word → Word → Word) (f : Fields) :
    readModifyWrite op f (s.withZf z) = ruleWithZf z <$> readModifyWrite op f s := by
  simp only [readModifyWrite, resolveBoth_withZf, map_bind, bind_map_left, Resolved.withZf, memRead_withZf,
    memWrite_withZf]
  rfl

/-! ### Commit and the instructions -/

theorem advance_withZf (f : Fields) (nc : NextControl) : advance f (s.withZf z) nc = (advance f s nc).withZf z := by
  cases nc <;> rfl

theorem commit_withZf (f : Fields) (x : Except Raised (State × NextControl)) :
    commit f (s.withZf z) (ruleWithZf z <$> x) = outcomeWithZf z (commit f s x) := by
  match x with
  | .ok (w, nc) => exact congrArg Host.Outcome.next (advance_withZf w z f nc)
  | .error r => rfl

theorem execCall_withZf (f : Fields) : execCall f (s.withZf z) = outcomeWithZf z (execCall f s) := by
  have hreq : callRequest f (s.withZf z) = callRequest f s := rfl
  unfold execCall
  rw [hreq]
  cases callRequest f s with
  | error r => rfl
  | ok req =>
    have hans : (s.withZf z).hostAnswers = s.hostAnswers := rfl
    simp only [answerRequest, hans]
    cases s.hostAnswers with
    | nil => rfl
    | cons a rest =>
      cases a with
      | noRoutine => rfl
      | ret r changes =>
        have hall : changes.all (fun c => (s.withZf z).hostMayWrite c.1) =
            changes.all (fun c => s.hostMayWrite c.1) := rfl
        simp only [hall]
        split <;> rfl

/-- An instruction other than CMP and JNE gives, from a state with another zero-flag, the same outcome with that
zero-flag. -/
theorem exec_withZf {i : Instr} (hcmp : i.opcode ≠ .cmp) (hjne : i.opcode ≠ .jne) :
    exec i (s.withZf z) = outcomeWithZf z (exec i s) := by
  have fin : ∀ {x y : Except Raised (State × NextControl)}, y = ruleWithZf z <$> x →
      commit i.fields (s.withZf z) y = outcomeWithZf z (commit i.fields s x) := by
    rintro x _ rfl
    exact commit_withZf s z _ x
  cases i with
  | mov f => exact fin (copyRule_withZf s z _ _ (g := id) f fun _ => rfl)
  | push f => exact fin (copyRule_withZf s z _ _ (g := id) f fun _ => rfl)
  | pop f => exact fin (copyRule_withZf s z _ _ (g := popSp f) f fun _ => rfl)
  | add f => exact fin (readModifyWrite_withZf s z _ f)
  | sub f => exact fin (readModifyWrite_withZf s z _ f)
  | and f => exact fin (readModifyWrite_withZf s z _ f)
  | xor f => exact fin (readModifyWrite_withZf s z _ f)
  | lea f =>
    refine fin ?_
    simp only [resolveBoth_withZf, map_bind, bind_map_left, Resolved.withZf, memWrite_withZf]
    rfl
  | cmp f => exact absurd rfl hcmp
  | jmp f =>
    refine fin ?_
    simp only [sourceValue_withZf, map_bind]
    rfl
  | jne f => exact absurd rfl hjne
  | call f => exact execCall_withZf s z f
  | ret f =>
    refine fin ?_
    simp only [map_bind]
    rfl

/-- CMP does not look at the zero-flag it overwrites (R256): its rule answers the same, and only a fault leaves the two
zero-flags apart. -/
theorem execCmp_withZf (f : Fields) : eraseZf (execCmp f (s.withZf z)) = eraseZf (execCmp f s) := by
  have hcommit : ∀ x, eraseZf (commit f (s.withZf z) x) = eraseZf (commit f s x) := by
    rintro (r | ⟨w, nc⟩) <;> rfl
  unfold execCmp
  rw [hcommit]
  simp only [resolveBoth_withZf, bind_map_left, Resolved.withZf, memRead_withZf]
  rfl

end

/-- JNE leaves the zero-flag it reads as it was (R276). -/
theorem execJne_zf {f : Fields} {s t : State} (h : execJne f s = .next t) : t.zf = s.zf := by
  rcases commit_cases h with ⟨r, -, rfl⟩ | ⟨w, nc, hx, rfl⟩
  · rfl
  · obtain ⟨a, -, hx⟩ := bind_ok hx
    split at hx
    · cases hx; rfl
    · obtain ⟨⟨⟩, -, hx⟩ := bind_ok hx
      cases hx; rfl

/-- An instruction other than CMP leaves the zero-flag as it was: JNE by its rule, and the others because they commute
with setting the flag to the value it has. -/
theorem exec_zf {i : Instr} {s t : State} (hcmp : i.opcode ≠ .cmp) (h : exec i s = .next t) : t.zf = s.zf := by
  by_cases hjne : i.opcode = .jne
  · obtain ⟨f, rfl⟩ : ∃ f, i = .jne f := ⟨_, eq_make_of_opcode hjne⟩
    exact execJne_zf h
  · have hz := exec_withZf s s.zf hcmp hjne
    rw [State.withZf_self, h] at hz
    have ht : t = t.withZf s.zf := Host.Outcome.next.inj hz
    rw [ht, State.withZf_zf]

/-- Settles O28: `exec_zf` for the writers, `exec_withZf` and `execCmp_withZf` for the readers. -/
theorem zeroFlagWritersAndReaders : Obligations.ZeroFlagWritersAndReaders := by
  refine ⟨fun i s t hcmp h => exec_zf hcmp h, fun i s z hjne => ?_, fun p => rfl⟩
  change eraseZf (exec i (s.withZf z)) = _
  by_cases hcmp : i.opcode = .cmp
  · obtain ⟨f, rfl⟩ : ∃ f, i = .cmp f := ⟨_, eq_make_of_opcode hcmp⟩
    exact execCmp_withZf s z f
  · rw [exec_withZf s z hcmp hjne, eraseZf_outcomeWithZf]

/-! ## The status words (R44, R45) -/

/-- `NONE` is the only cause whose code is 0 (R300). -/
theorem FaultCause.ne_none_of_code {c : FaultCause} (h : c.code.toNat ≠ 0) : c ≠ .none := by
  rintro rfl
  exact h rfl

/-- Words put side by side, as a number. -/
theorem toNat_append_eq_add {m n : Nat} (a : BitVec m) (b : BitVec n) : (a ++ b).toNat = a.toNat * 2 ^ n + b.toNat := by
  rw [BitVec.toNat_append, ← Nat.shiftLeft_add_eq_or_of_lt b.isLt, Nat.shiftLeft_eq]

/-- The status word as a number, from its fields (R45). -/
theorem statusWord_toNat (s : State) :
    s.statusWord.toNat = 256 * s.zf.toNat + 16 * s.faultCause.code.toNat + s.runState.code.toNat := by
  simp only [State.statusWord, toNat_append_eq_add, BitVec.toNat_ofBool, BitVec.ofNat_eq_ofNat, BitVec.toNat_ofNat,
    Nat.zero_mod]
  omega

/-- Settles O55: each field is read off the status word's number; CAUSE is nonzero only in FAULTED by the invariant. -/
theorem statusFields : Obligations.StatusFields := by
  intro s h
  have hcauseLt := s.faultCause.code.isLt
  have hrunLt := s.runState.code.isLt
  have hzfLt := s.zf.toNat_lt
  have hword := statusWord_toNat s
  have hstate : s.statusWord.toNat % 4 = s.runState.code.toNat := by omega
  have hcause : s.statusWord.toNat / 16 % 16 = s.faultCause.code.toNat := by omega
  have hzf : s.zf.toNat = 1 ↔ s.zf = true := by cases s.zf <;> decide
  refine ⟨rfl, ?_, ?_, ?_, fun hne => ?_, ?_, ?_⟩
  · rw [hstate]
    cases s.runState <;> rfl
  · omega
  · rw [hcause]
    cases s.faultCause <;> rfl
  · exact h.causeIffFaulted.1 (FaultCause.ne_none_of_code (hcause ▸ hne))
  · rw [← hzf]
    omega
  · omega

/-- The status words from 5 on are the registers (R44). -/
theorem hostRead_register (s : State) (i : Nat) :
    s.hostRead (5 + i) = if i < s.params.nreg then some (s.reg i) else none := by
  rw [Nat.add_comm]
  rfl

/-- Settles O56: HS0 to HS4 are `hostRead`'s own cases, and the numbers from 5 on are the registers'. -/
theorem statusWords : Obligations.StatusWords := by
  refine fun s => ⟨rfl, rfl, rfl, rfl, fun i hi => ?_, fun n hn => ?_⟩
  · rw [hostRead_register, if_pos hi]
  · obtain ⟨i, rfl⟩ : ∃ i, n = 5 + i := ⟨n - 5, by omega⟩
    rw [hostRead_register, if_neg (by omega)]

/-! ## Reset (R46) -/

/-- The register file after reset has `NREG` words (R30). -/
theorem resetRegs_length {p : Params} (hp : p.Legal) : (resetRegs p).length = p.nreg := by
  obtain ⟨⟨hn, -⟩, -⟩ := hp
  simp only [resetRegs, Params.sp, List.length_append, List.length_replicate, List.length_singleton]
  omega

/-- `SP` is at the end of the stack after reset. -/
theorem resetRegs_sp (p : Params) : (resetRegs p).getD p.sp 0#64 = BitVec.ofNat 64 p.stackEnd := by
  simp [resetRegs]

/-- Every other register is 0 after reset. -/
theorem resetRegs_ne_sp (p : Params) {i : Nat} (hi : i ≠ p.sp) : (resetRegs p).getD i 0#64 = 0#64 := by
  change (List.replicate p.sp 0#64 ++ [BitVec.ofNat 64 p.stackEnd]).getD i 0#64 = 0#64
  rcases Nat.lt_or_gt_of_ne hi with h | h
  · rw [List.getD_append _ _ _ _ (by simpa using h), List.getD_replicate _ h]
  · have hlen : (List.replicate p.sp 0#64 ++ [BitVec.ofNat 64 p.stackEnd]).length ≤ i := by
      rw [List.length_append, List.length_replicate]
      exact h
    rw [List.getD_eq_default _ _ hlen]

/-- The state after reset has the invariant in every legal build. -/
theorem resetOf_inv {p : Params} (hp : p.Legal) : (State.resetOf p).Inv where
  memCanonical := Memory.wf_nil
  memPlaced _ hc := nomatch hc
  built := ⟨hp, resetRegs_length hp, Nat.zero_le _⟩
  pcInProgram := Nat.le_refl 0
  causeIffFaulted := by simp [State.resetOf]
  noRecord _ := ⟨rfl, rfl⟩
  pendingIsCall _ h := nomatch h
  heldInReset h := nomatch h

/-- Settles O50: this hardware is the legal build of R8's values. -/
theorem resetHasInvariant : Obligations.ResetHasInvariant :=
  ⟨resetOf_inv (by decide), fun _ hp => resetOf_inv hp⟩

/-- A byte whose address a filter keeps reads as before. -/
theorem Memory.read_filter_of_keeps (m : Memory) {p : Nat → Bool} {a : Nat} (ha : p a = true) :
    Memory.read (m.filter (fun c => p c.1)) a = Memory.read m a := by
  induction m with
  | nil => rfl
  | cons c m ih =>
    by_cases hc : p c.1 = true
    · simp [hc, Memory.read, ih]
    · have hne : ¬ a = c.1 := fun e => hc (e ▸ ha)
      simp [hc, Memory.read, ih, hne]

/-- A launch image lists bytes of the stack buffer only (R63). -/
theorem stackCells_in_stack {p : Params} {bytes : List Byte} {c : Host.Cell} (h : c ∈ stackCells p bytes) :
    p.stackBase ≤ c.1 ∧ c.1 < p.stackEnd := by
  obtain ⟨⟨b, k⟩, hk, rfl⟩ := List.mem_map.1 h
  have hlt := List.snd_lt_of_mem_zipIdx hk
  simp only [List.length_take] at hlt
  simp only [Params.stackEnd]
  omega

/-- Asserting `rst` keeps every listed byte outside the stack buffer. -/
theorem read_assertReset (s : State) (stack : List Byte) {b : Nat} (hb : s.inStack b = false) :
    Memory.read (s.assertReset stack).mem b = Memory.read s.mem b := by
  rw [State.assertReset_mem, Memory.read_writeCells_ne]
  · exact Memory.read_filter_of_keeps s.mem (p := fun a => !s.inStack a) (by simp [hb])
  · rintro c hc rfl
    simp [State.inStack, stackCells_in_stack hc] at hb

/-- Asserting `rst` does not change external memory (R46). -/
theorem byteAt_assertReset_external {s : State} (hp : s.params.Legal) (stack : List Byte) {b : Nat}
    (hb : s.params.extBase ≤ b) : (s.assertReset stack).byteAt b = s.byteAt b := by
  simp only [Params.Legal, Params.stackEnd] at hp
  have hreg : s.inRegisters b = false := by
    simp only [State.inRegisters, Bool.and_eq_false_iff, decide_eq_false_iff_not]
    omega
  have hstack : s.inStack b = false := by
    simp only [State.inStack, Params.stackEnd, Bool.and_eq_false_iff, decide_eq_false_iff_not]
    omega
  have hreg' : (s.assertReset stack).inRegisters b = false := hreg
  have hprog' : (s.assertReset stack).inProgram b = s.inProgram b := rfl
  simp only [State.byteAt, hreg, hreg', hprog', read_assertReset s stack hstack]
  rfl

/-- Settles O51: both states have the register file of `resetRegs`, and asserting `rst` touches no external byte. -/
theorem resetValues : Obligations.ResetValues := by
  refine ⟨rfl, fun s stack hp => ⟨fun r hr => ?_, rfl, rfl, fun b => byteAt_assertReset_external hp stack⟩⟩
  have hlen := resetRegs_length hp
  have hsp := resetRegs_sp s.params
  have hne := fun i => resetRegs_ne_sp s.params (i := i)
  simp only [List.mem_cons, List.not_mem_nil, or_false] at hr
  rcases hr with rfl | rfl <;> exact ⟨rfl, hlen, hne, hsp, rfl, rfl, rfl, rfl, rfl, rfl, rfl⟩

end Sys2Proof.Machine

namespace Sys2Proof.Machine

/-! ## The access primitives and admission (R66, R71 to R73) -/

/-- `ReadBytes` raises exactly where the read is not admitted (R70). -/
theorem readBytes_ne_error_iff {s : State} {a : Word} {n : Nat} :
    readBytes s a n ≠ .error ⟨.invalidDereference, a⟩ ↔ s.admitted a n .read = true := by
  cases h : s.admitted a n .read with
  | false => simp [readBytes_error h]
  | true => simp [readBytes_ok h]

/-- `WriteBytes` raises exactly where the write is not admitted (R71). -/
theorem writeBytes_ne_error_iff {s : State} {a : Word} {bs : List Byte} :
    writeBytes s a bs ≠ .error ⟨.invalidDereference, a⟩ ↔ s.admitted a bs.length .write = true := by
  cases h : s.admitted a bs.length .write with
  | false => simp [writeBytes_error h]
  | true => simp [writeBytes_ok h]

/-- Settles O10: the primitives raise where admission fails, which `admitted_iff` writes out over the regions. -/
theorem accessAdmission : Obligations.AccessAdmission := by
  intro s a n hs hn _
  refine ⟨?_, fun bs hlen => ?_⟩
  · rw [readBytes_ne_error_iff, admitted_iff hs a hn]
    simp
  · rw [writeBytes_ne_error_iff, hlen, admitted_iff hs a hn]
    simp

/-- Settles O11: `setBytes_stores` for an admitted write. -/
theorem writeBytesStores : Obligations.WriteBytesStores := by
  intro s a bs hs _ _
  refine ⟨writeBytes_error, fun hw => ⟨_, writeBytes_ok hw, fun k hk => ?_, (setBytes_stores hs hw).otherBytes⟩⟩
  rw [(setBytes_stores hs hw).stored k hk, List.getD_eq_getElem bs 0 hk]

/-- `MemRead` of any width where the read is admitted (R72). -/
theorem memRead_eq_leValue {s : State} {a : Word} {n : Nat} (h : s.admitted a n .read = true) :
    memRead s a n = .ok (BitVec.ofNat 64 (leValue ((List.range n).map (fun k => s.byteAt (a.toNat + k))))) := by
  simp [memRead, readBytes_ok h]

/-- At most eight bytes make a 64-bit value. -/
theorem leValue_lt_word {bs : List Byte} (h : bs.length ≤ 8) : leValue bs < 2 ^ 64 :=
  calc leValue bs < 256 ^ bs.length := leValue_lt bs
    _ ≤ 256 ^ 8 := Nat.pow_le_pow_right (by decide) h
    _ = 2 ^ 64 := by decide

/-- Settles O12: eight bytes do not overflow the word, and `leValue_map_range` is the sum. -/
theorem memReadIsLittleEndianSum : Obligations.MemReadIsLittleEndianSum := by
  intro s a n _ hn
  refine ⟨memRead_error, fun hr => ⟨_, memRead_eq_leValue hr, ?_⟩⟩
  rw [BitVec.toNat_ofNat, Nat.mod_eq_of_lt (leValue_lt_word (by simpa using hn)), leValue_map_range]

/-- The low `n` bytes of a word have its value modulo `256 ^ n` (R73). -/
theorem leValue_leBytes (v : Word) (n : Nat) : leValue (leBytes v n) = v.toNat % 256 ^ n := by
  rw [leBytes, leValue_map_range]
  induction n with
  | zero => simp [Nat.mod_one]
  | succ n ih => rw [Finset.sum_range_succ, ih, byteOf_toNat, Nat.mod_pow_succ, Nat.mul_comm (256 ^ n)]

/-- Where a write is admitted, so is a read: only the program region tells the kinds apart (R66). -/
theorem admitted_read_of_write {s : State} (hs : s.Built) {a : Word} {n : Nat} (hn : 1 ≤ n)
    (h : s.admitted a n .write = true) : s.admitted a n .read = true := by
  obtain ⟨hend, hreg | hstack | ⟨-, -, hk⟩ | hext⟩ := (admitted_iff hs a hn .write).1 h
  · exact (admitted_iff hs a hn .read).2 ⟨hend, .inl hreg⟩
  · exact (admitted_iff hs a hn .read).2 ⟨hend, .inr (.inl hstack)⟩
  · cases hk
  · exact (admitted_iff hs a hn .read).2 ⟨hend, .inr (.inr (.inr hext))⟩

/-- `MemRead` where the low bytes of a word were stored gives their value. -/
theorem Stores.memRead_eq {s t : State} {a v : Word} {n : Nat} (h : Stores s t a.toNat n (byteOf v))
    (hr : t.admitted a n .read = true) : memRead t a n = .ok (BitVec.ofNat 64 (v.toNat % 256 ^ n)) := by
  have hbytes : (List.range n).map (fun k => t.byteAt (a.toNat + k)) = leBytes v n :=
    List.map_congr_left fun k hk => h.stored k (List.mem_range.1 hk)
  rw [memRead_eq_leValue hr, hbytes, leValue_leBytes]

/-- Settles O13: `memWrite_stores`, and the read-back of what it stored, admitted as the write was. -/
theorem memWriteThenMemRead : Obligations.MemWriteThenMemRead := by
  intro s a v n hs hn _ hw
  have hst := memWrite_stores hs v hw
  have hadm : (s.setBytes a.toNat (leBytes v n)).admitted a n .read = true := by
    rw [admitted_congr (s := s) (by simp) (by simp) (by simp)]
    exact admitted_read_of_write hs hn hw
  refine ⟨_, memWrite_ok v hw, fun k hk => ?_, hst.otherBytes, hst.memRead_eq hadm⟩
  rw [hst.stored k hk, byteOf_toNat]

/-! ## What every step leaves alone (R41, R42, R61, R66, R81) -/

/-- What a step may not touch: the program, the parameters of build and launch, `rst`, and, in a legal build, every byte
outside the register window, the stack and admitted external memory. -/
structure StepFrame (s t : State) : Prop where
  prog : t.prog = s.prog
  params : t.params = s.params
  obfMask : t.obfMask = s.obfMask
  extWindows : t.extWindows = s.extWindows
  rst : t.rst = s.rst
  bytes : s.Built → ∀ b, t.byteAt b ≠ s.byteAt b → s.inRegisters b = true ∨ s.placed b = true

theorem WorkingOf.stepFrame {s w : State} (h : WorkingOf s w) : StepFrame s w :=
  ⟨h.record.prog, h.record.params, h.record.obfMask, h.record.extWindows, h.record.rst, h.bytes⟩

theorem StepFrame.refl (s : State) : StepFrame s s := (WorkingOf.refl s).stepFrame

/-- Taking a fault writes the fault record and `run_state` only (R306). -/
theorem StepFrame.takeFault {s w : State} (h : StepFrame s w) (r : Raised) : StepFrame s (w.takeFault r) :=
  ⟨h.prog, h.params, h.obfMask, h.extWindows, h.rst, h.bytes⟩

/-- Commit's advance writes `pc` or `run_state` only (R192). -/
theorem StepFrame.advance {s w : State} (h : StepFrame s w) (f : Fields) (nc : NextControl) :
    StepFrame s (advance f w nc) := by
  cases nc <;> exact ⟨h.prog, h.params, h.obfMask, h.extWindows, h.rst, h.bytes⟩

/-- The halt transition writes `run_state` only (R162). -/
theorem StepFrame.haltAtEnd {s w : State} (h : StepFrame s w) : StepFrame s w.haltAtEnd :=
  ⟨h.prog, h.params, h.obfMask, h.extWindows, h.rst, h.bytes⟩

/-- The end of a native call writes the port's two fields only (R318). -/
theorem StepFrame.callOver {s w : State} (h : StepFrame s w) (rest : List HostAnswer) :
    StepFrame s { w with pending := none, hostAnswers := rest } :=
  ⟨h.prog, h.params, h.obfMask, h.extWindows, h.rst, h.bytes⟩

/-- A byte that a native call's return changes is a register's or one of the cells the host names (R280). -/
theorem byteAt_takeReturn_ne {s : State} {r : Word} {cs : List Host.Cell} {rest : List HostAnswer} {b : Nat}
    (hb : (s.takeReturn r cs rest).byteAt b ≠ s.byteAt b) : s.inRegisters b = true ∨ ∃ c ∈ cs, c.1 = b := by
  by_contra! h
  obtain ⟨hr, hcs⟩ := h
  have hr' : ¬ (s.takeReturn r cs rest).inRegisters b = true := hr
  have hp : (s.takeReturn r cs rest).inProgram b = s.inProgram b := rfl
  exact hb (by simp [State.byteAt, hr, hr', hp, Memory.read_writeCells_ne cs s.mem hcs])

/-- A lawful return of the host changes `ACC` and admitted external memory (R280, R320). -/
theorem StepFrame.takeReturn {s : State} {r : Word} {cs : List Host.Cell} {rest : List HostAnswer}
    (hcs : ∀ c ∈ cs, s.hostMayWrite c.1 = true) : StepFrame s (s.takeReturn r cs rest) := by
  refine ⟨rfl, rfl, rfl, rfl, rfl, fun _ b hb => (byteAt_takeReturn_ne hb).imp_right ?_⟩
  rintro ⟨c, hc, rfl⟩
  simp [State.placed, hcs c hc]

/-- A CALL that steps stays inside the frame: a fault, or the host's lawful answer. -/
theorem execCall_frame {f : Fields} {s t : State} (h : execCall f s = .next t) : StepFrame s t := by
  rcases execCall_cases h with ⟨r, -, rfl⟩ | ⟨req, -, ⟨rest, -, rfl⟩ | ⟨r, cs, rest, -, hcs, rfl⟩⟩
  · exact (StepFrame.refl s).takeFault r
  · exact ((StepFrame.refl s).callOver rest).takeFault _
  · exact (StepFrame.takeReturn hcs).advance f .fall

/-- Every legal instruction stays inside the frame. -/
theorem exec_frame {i : Instr} {s t : State} (hi : i.wf = true) (h : exec i s = .next t) : StepFrame s t := by
  by_cases hc : i.opcode = .call
  · obtain ⟨f, rfl⟩ : ∃ f, i = .call f := ⟨_, eq_make_of_opcode hc⟩
    exact execCall_frame h
  · rcases exec_cases hi hc h with ⟨r, rfl⟩ | ⟨-, w, nc, hw, rfl, -, -⟩
    · exact (StepFrame.refl s).takeFault r
    · exact hw.stepFrame.advance _ nc

/-- Every step stays inside the frame. -/
theorem step_frame {s t : State} (h : step s = .next t) : StepFrame s t := by
  obtain ⟨-, -, ⟨-, rfl⟩ | ⟨stored, why, -, -, rfl⟩ | ⟨stored, i, -, hdec, hexec⟩⟩ := step_cases h
  · exact (StepFrame.refl s).haltAtEnd
  · exact (StepFrame.refl s).takeFault _
  · exact exec_frame (decode_wf hdec) hexec

/-- Everything a program load can do: while `rst` is asserted, it puts a program that fits in place (R350). -/
theorem loadProgram_cases {s t : State} {slots : List Word} (h : s.loadProgram slots = some t) :
    s.rst = true ∧ slots.length ≤ s.params.progMaxSlots ∧ t = { s with prog := slots } := by
  unfold State.loadProgram at h
  split at h
  · rename_i hc
    simp only [Bool.and_eq_true, decide_eq_true_iff] at hc
    exact ⟨hc.1, hc.2, (Option.some.inj h).symm⟩
  · cases h

/-- Settles O47: `step_frame` for the steps, `loadProgram_cases` for the load. -/
theorem programIsReadOnly : Obligations.ProgramIsReadOnly := by
  refine ⟨fun s t h => ?_, fun s t slots h => ?_⟩
  · obtain ⟨hprog, hparams, hmask, hext, hrst, -⟩ := step_frame h
    exact ⟨hprog, hparams, hmask, hext, hrst⟩
  · obtain ⟨hrst, hlen, -⟩ := loadProgram_cases h
    exact ⟨hrst, hlen⟩

/-- Bytes the host may write lie in the external region (R43, R61). -/
theorem extBase_le_of_hostMayWrite {s : State} {b : Nat} (h : s.hostMayWrite b = true) : s.params.extBase ≤ b := by
  simp only [State.hostMayWrite, List.any_eq_true, Bool.and_eq_true, decide_eq_true_iff] at h
  obtain ⟨n, -, k, -, ⟨hbase, -⟩, -⟩ := h
  omega

/-- The bytes memory may list, by region (R40, R43). -/
theorem placed_cases {s : State} {b : Nat} (h : s.placed b = true) :
    (s.params.stackBase ≤ b ∧ b < s.params.stackEnd) ∨ (s.params.extBase ≤ b ∧ s.hostMayWrite b = true) := by
  rcases Bool.or_eq_true_iff.1 h with h | h
  · left
    simpa [State.inStack] using h
  · exact .inr ⟨extBase_le_of_hostMayWrite h, h⟩

/-- Settles O48: the frame's places, by region. -/
theorem stepChangesWritableBytesOnly : Obligations.StepChangesWritableBytesOnly := by
  intro s t b hs h hb
  exact ((step_frame h).bytes hs b hb).imp (inRegisters_iff s b).1 placed_cases

end Sys2Proof.Machine

namespace Sys2Proof

/-! ## Decoding and encoding are inverse (R104, R121, R132) -/

theorem Instr.wf_iff {i : Instr} : i.wf = true ↔ 1 ≤ i.fields.size ∧ i.fields.size ≤ 8 := by
  simp [Instr.wf, Fields.wf]

/-- When a plain word decodes to an instruction: the converse of `decodePlain_cases` beside it. -/
theorem decodePlain_eq_ok_iff {p : Word} {i : Instr} : decodePlain p = .ok i ↔
    Opcode.ofValue (opcField p) = some i.opcode ∧ i.fields = fieldsOf p ∧ reservedField p = 0 ∧
      1 ≤ (szField p).toNat ∧ (szField p).toNat ≤ 8 := by
  refine ⟨decodePlain_cases, ?_⟩
  rintro ⟨hopc, hfields, hreserved, hlo, hhi⟩
  have hsz : ¬ (szField p = 0 ∨ 8 < (szField p).toNat) := by
    rintro (h | h)
    · simp [h] at hlo
    · omega
  simp only [decodePlain, hopc, hreserved, ne_eq, not_true_eq_false, if_false, if_neg hsz, ← hfields,
    Instr.make_opcode_fields]

/-- A size in 1..8 fits the four bits of `SZ` (R110). -/
theorem szField_encodePlain_toNat {i : Instr} (hi : i.wf = true) :
    (szField (encodePlain i)).toNat = i.fields.size := by
  have := Instr.wf_iff.1 hi
  rw [szField_encodePlain, BitVec.toNat_ofNat]
  omega

theorem fieldsOf_encodePlain {i : Instr} (hi : i.wf = true) : fieldsOf (encodePlain i) = i.fields := by
  simp only [fieldsOf, rsField_encodePlain, rdField_encodePlain, dmField_encodePlain, immField_encodePlain,
    DerefMode.ofBits_bits, szField_encodePlain_toNat hi]

theorem decode_encode (mask : Word) {i : Instr} (hi : i.wf = true) : decode mask (encode mask i) = .ok i := by
  rw [decode, unmask_encode, decodePlain_eq_ok_iff, opcField_encodePlain, szField_encodePlain_toNat hi]
  exact ⟨Opcode.ofValue_value _, (fieldsOf_encodePlain hi).symm, reservedField_encodePlain i, Instr.wf_iff.1 hi⟩

/-- Settles O1: field by field, `decode_encode`. -/
theorem decodeOfEncode : Obligations.DecodeOfEncode := fun mask _ => decode_encode mask

/-- A legal plain word has the bits of its instruction's encoding, field by field. -/
theorem encodePlain_of_decodePlain {p : Word} {i : Instr} (h : decodePlain p = .ok i) : encodePlain i = p := by
  obtain ⟨hopc, hfields, hreserved, -, -⟩ := decodePlain_cases h
  apply plain_ext
  · rw [opcField_encodePlain, Opcode.value_of_ofValue hopc]
  · rw [rsField_encodePlain, hfields, fieldsOf]
  · rw [rdField_encodePlain, hfields, fieldsOf]
  · rw [dmField_encodePlain, hfields, fieldsOf, DerefMode.bits_ofBits]
  · rw [immField_encodePlain, hfields, fieldsOf]
  · rw [szField_encodePlain, hfields, fieldsOf, BitVec.ofNat_toNat, BitVec.setWidth_eq]
  · rw [reservedField_encodePlain, hreserved]

/-- Settles O2: `decode_wf` for the size, `encodePlain_of_decodePlain` for the bits. -/
theorem encodeOfDecode : Obligations.EncodeOfDecode := by
  refine fun mask w i h => ⟨decode_wf h, ?_⟩
  rw [encode, encodePlain_of_decodePlain h]
  exact unmask_unmask mask w

/-- Settles O6, by evaluating the decoder on each word. -/
theorem specWordsDecode : Obligations.SpecWordsDecode := ⟨rfl, rfl, rfl, rfl, rfl, rfl, rfl, rfl⟩

/-! ## The encoder block's word (R114) -/

/-- A bit of a field put at bit `k` of the word. -/
theorem getLsbD_fieldAt {n : Nat} (x : BitVec n) (k : Nat) {i : Nat} (hi : i < 64) :
    (x.setWidth 64 <<< k).getLsbD i = (decide (k ≤ i) && x.getLsbD (i - k)) := by
  have : i - k < 64 := by omega
  simp only [BitVec.getLsbD_shiftLeft, BitVec.getLsbD_setWidth, hi, this, decide_true, Bool.true_and]
  by_cases h : i < k <;> simp [h, Nat.le_of_not_lt]

/-- A selector's 0-based register index (R114). -/
theorem selector_sub_one_toNat (sel : BitVec 4) : (sel - 1).toNat = (sel.toNat + 15) % 16 := by
  rw [BitVec.toNat_sub, Nat.add_comm]
  rfl

namespace EncoderIn

/-- R114's word, each field at its place. -/
theorem getLsbD_plain (e : EncoderIn) {i : Nat} (hi : i < 64) : e.plain.getLsbD i =
    (e.opc.getLsbD i || (decide (8 ≤ i) && (e.sel2 - 1).getLsbD (i - 8)) ||
      (decide (12 ≤ i) && (e.sel1 - 1).getLsbD (i - 12)) || (decide (16 ≤ i) && e.dmIn.getLsbD (i - 16)) ||
      (decide (18 ≤ i) && (BitVec.ofBool (e.sel2 = 0)).getLsbD (i - 18)) ||
      (decide (19 ≤ i) && (BitVec.ofNat 4 (min e.sizeIn 8)).getLsbD (i - 19))) := by
  have hsz : BitVec.ofNat 64 (min e.sizeIn 8 % 16) = (BitVec.ofNat 4 (min e.sizeIn 8)).setWidth 64 := by
    apply BitVec.eq_of_toNat_eq
    simp only [BitVec.toNat_ofNat, BitVec.toNat_setWidth]
  simp only [plain, hsz, BitVec.getLsbD_or, getLsbD_fieldAt _ _ hi]
  simp only [BitVec.getLsbD_setWidth, hi, decide_true, Bool.true_and]

/-- The instruction whose fields are the encoder block's inputs. -/
def instr (e : EncoderIn) (o : Opcode) : Instr :=
  Instr.make o ⟨e.sel2 - 1, e.sel1 - 1, DerefMode.ofBits e.dmIn, decide (e.sel2 = 0), min e.sizeIn 8⟩

/-- `OPC` of the packed word, for any opcode input (R105, R114). -/
theorem opcField_plain (e : EncoderIn) : opcField e.plain = e.opc := by
  refine BitVec.eq_of_getLsbD_eq fun k hk => ?_
  rw [opcField, BitVec.getLsbD_extractLsb', e.getLsbD_plain (by omega)]
  simp (disch := omega) [hk, decide_eq_false]

/-- For a defined opcode R114 packs the encoding of that instruction, bit by bit. -/
theorem plain_eq_encodePlain {e : EncoderIn} {o : Opcode} (ho : Opcode.ofValue e.opc = some o) :
    e.plain = encodePlain (e.instr o) := by
  refine BitVec.eq_of_getLsbD_eq fun i hi => ?_
  rw [getLsbD_plain e hi]
  simp only [encodePlain, instr, Instr.make_fields, Instr.make_opcode, DerefMode.bits_ofBits,
    Opcode.value_of_ofValue ho, BitVec.getLsbD_append]
  simp only [Nat.sub_sub, Nat.reduceAdd]
  split_ifs
  all_goals simp (disch := omega) [decide_eq_true, decide_eq_false, BitVec.getLsbD_of_ge]

theorem instr_wf {e : EncoderIn} (o : Opcode) (hsize : 1 ≤ e.sizeIn) : (e.instr o).wf = true := by
  rw [Instr.wf_iff, instr, Instr.make_fields]
  exact ⟨by simpa using hsize, Nat.min_le_right _ _⟩

/-- The encoder block's word for a defined opcode is the stored word of an instruction (R101, R114). -/
theorem encoderBlock_word {e : EncoderIn} {o : Opcode} (mask : Word) (ho : Opcode.ofValue e.opc = some o) :
    (encoderBlock mask e).word = encode mask (e.instr o) := by
  rw [encoderBlock, encode, plain_eq_encodePlain ho]

end EncoderIn

/-! ## Illegal words (R131) -/

theorem opcField_toNat (p : Word) : (opcField p).toNat = p.toNat % 256 := by
  simp [opcField]

theorem szField_toNat (p : Word) : (szField p).toNat = p.toNat / 2 ^ 19 % 16 := by
  simp [szField, Nat.shiftRight_eq_div_pow]

theorem reservedField_eq_zero_iff (p : Word) : reservedField p = 0 ↔ p.toNat < 2 ^ 23 := by
  have := p.isLt
  rw [← BitVec.toNat_inj]
  simp only [reservedField, BitVec.extractLsb'_toNat, Nat.shiftRight_eq_div_pow, BitVec.ofNat_eq_ofNat, BitVec.toNat_ofNat]
  omega

theorem szField_eq_zero_iff (p : Word) : szField p = 0 ↔ p.toNat / 2 ^ 19 % 16 = 0 := by
  rw [← szField_toNat, ← BitVec.toNat_inj]
  rfl

theorem Opcode.ofValue_eq_none_iff (v : BitVec 8) : Opcode.ofValue v = none ↔ v.toNat = 0 ∨ 14 ≤ v.toNat := by
  revert v
  decide

/-- A plain word decodes to some instruction exactly when none of R131's grounds holds. -/
theorem decodePlain_legal_iff (p : Word) : (∃ i, decodePlain p = .ok i) ↔ ¬ Machine.IllegalPlain p := by
  have hopc := Opcode.ofValue_eq_none_iff (opcField p)
  rw [opcField_toNat] at hopc
  constructor
  · rintro ⟨i, hi⟩
    obtain ⟨ho, -, hr, h1, h8⟩ := decodePlain_cases hi
    rw [reservedField_eq_zero_iff] at hr
    rw [szField_toNat] at h1 h8
    have := hopc.not.1 (by simp [ho])
    simp only [Machine.IllegalPlain]
    omega
  · intro h
    simp only [Machine.IllegalPlain, not_or] at h
    obtain ⟨⟨ho, ho'⟩, hr, hs, hs'⟩ := h
    cases e : Opcode.ofValue (opcField p) with
    | none =>
      have := hopc.1 e
      omega
    | some o =>
      refine ⟨Instr.make o (fieldsOf p), decodePlain_eq_ok_iff.2 ?_⟩
      rw [Instr.make_opcode, Instr.make_fields, reservedField_eq_zero_iff, szField_toNat]
      exact ⟨e, rfl, by omega, by omega, by omega⟩

/-- The decoder block's `illegal` output is R131 on the plain word. -/
theorem decoderBlock_illegal_iff (mask w : Word) :
    (decoderBlock mask w).illegal = true ↔ Machine.IllegalPlain (w ^^^ mask) := by
  simp only [decoderBlock, Machine.IllegalPlain, Bool.or_eq_true, decide_eq_true_iff, opcField_toNat, szField_toNat, ne_eq,
    szField_eq_zero_iff, reservedField_eq_zero_iff]
  omega

/-- The decoder block's outputs on a stored instruction (R121). -/
theorem decoderBlock_encode (mask : Word) {i : Instr} (hi : i.wf = true) :
    decoderBlock mask (encode mask i) =
      { opc := i.opcode.value, rs := i.fields.rs, rd := i.fields.rd, dm := i.fields.dm.bits, imm := i.fields.imm,
        sz := BitVec.ofNat 4 i.fields.size, len := i.fields.slots, illegal := false } := by
  have hplain : encode mask i ^^^ mask = encodePlain i := unmask_encode mask i
  have hlegal : (decoderBlock mask (encode mask i)).illegal = false := by
    rw [Bool.eq_false_iff, Ne, decoderBlock_illegal_iff, ← decodePlain_legal_iff]
    exact ⟨i, decode_encode mask hi⟩
  rw [← hlegal]
  simp only [decoderBlock, hplain, opcField_encodePlain, rsField_encodePlain, rdField_encodePlain, dmField_encodePlain,
    immField_encodePlain, szField_encodePlain, Fields.slots]

/-- Settles O3: the encoder's word is an instruction's (`encoderBlock_word`), whose fields the decoder gives back. -/
theorem encoderThenDecoder : Obligations.EncoderThenDecoder := by
  intro mask e hlo hhi hsize
  obtain ⟨o, ho⟩ : ∃ o, Opcode.ofValue e.opc = some o :=
    Option.ne_none_iff_exists'.1 fun h => by have := (Opcode.ofValue_eq_none_iff _).1 h; omega
  have h1 := e.sel1.isLt
  have h2 := e.sel2.isLt
  rw [EncoderIn.encoderBlock_word mask ho, decoderBlock_encode mask (EncoderIn.instr_wf o hsize)]
  simp only [EncoderIn.instr, Instr.make_opcode, Instr.make_fields, DerefMode.bits_ofBits, Opcode.value_of_ofValue ho,
    BitVec.toNat_ofNat, selector_sub_one_toNat, true_and]
  omega

/-- Settles O4: an undefined opcode stands in the word as it came (`opcField_plain`), and a size of 0 in `SZ`. -/
theorem encoderErrorExactly : Obligations.EncoderErrorExactly := by
  intro mask e
  have herr : (encoderBlock mask e).err = true ↔ e.sizeIn = 0 ∨ e.opc.toNat = 0 ∨ 0x0E ≤ e.opc.toNat := by
    simp [encoderBlock, Opcode.ofValue_eq_none_iff]
  refine ⟨herr, rfl, fun h => ?_⟩
  have hplain : (encoderBlock mask e).word ^^^ mask = e.plain := unmask_unmask mask e.plain
  rw [decoderBlock_illegal_iff, hplain]
  cases ho : Opcode.ofValue e.opc with
  | none =>
    rw [Opcode.ofValue_eq_none_iff, ← EncoderIn.opcField_plain, opcField_toNat] at ho
    exact .inl ho
  | some o =>
    have hsize : e.sizeIn = 0 := (herr.1 h).resolve_right fun hopc => by
      simp [(Opcode.ofValue_eq_none_iff _).2 hopc] at ho
    have hsz : szField e.plain = 0 := by
      simp [EncoderIn.plain_eq_encodePlain ho, szField_encodePlain, EncoderIn.instr, hsize]
    exact .inr (.inr (.inl ((szField_eq_zero_iff _).1 hsz)))

end Sys2Proof

namespace Sys2Proof.Machine

/-! ## ILLEGAL_INSTRUCTION is raised by fetch only (R166, R300) -/

/-- A computation that never raises ILLEGAL_INSTRUCTION. -/
def NoIllegal {α : Type} (x : Except Raised α) : Prop := ∀ r, x = .error r → r.cause ≠ .illegalInstruction

theorem NoIllegal.ok {α : Type} (a : α) : NoIllegal (.ok a : Except Raised α) := fun _ h => nomatch h

theorem NoIllegal.bind {α β : Type} {x : Except Raised α} {g : α → Except Raised β} (hx : NoIllegal x)
    (hg : ∀ a, NoIllegal (g a)) : NoIllegal (x >>= g) := by
  intro r h
  rcases bind_error h with h | ⟨a, -, h⟩
  · exact hx r h
  · exact hg a r h

theorem memRead_noIllegal (s : State) (a : Word) (n : Nat) : NoIllegal (memRead s a n) :=
  fun r h => by simp [(memRead_raises h).2]

theorem memWrite_noIllegal (s : State) (a : Word) (n : Nat) (v : Word) : NoIllegal (memWrite s a n v) :=
  fun r h => by simp [(memWrite_raises h).2]

theorem copyBytes_noIllegal (s : State) (sa da : Word) (n : Nat) : NoIllegal (copyBytes s sa da n) :=
  fun r h => by simp [(copyBytes_raises h).1]

theorem checkTruncated_noIllegal (f : Fields) (s : State) : NoIllegal (checkTruncated f s) :=
  fun r h => by simp [(checkTruncated_raises h).2.2]

theorem checkTarget_noIllegal (s : State) (t : Word) : NoIllegal (checkTarget s t) := by
  intro r h
  unfold checkTarget at h
  split at h <;> cases h
  simp

theorem resolveBoth_noIllegal (u : SrcUse) (d : DstUse) (f : Fields) (s : State) : NoIllegal (resolveBoth u d f s) := by
  intro r h
  rcases resolveBoth_raises h with ⟨-, -, rfl⟩ | ⟨-, -, rfl⟩ | ⟨-, -, -, rfl⟩ | ⟨-, -, rfl⟩ | ⟨-, -, rfl⟩ | ⟨hc, -⟩
  any_goals simp
  simp [hc]

theorem sourceValue_noIllegal (f : Fields) (s : State) : NoIllegal (sourceValue f s) := by
  refine NoIllegal.bind (fun r h => ?_) fun sa => memRead_noIllegal s sa 8
  rcases resolveSource_raises h with ⟨-, -, rfl⟩ | ⟨-, -, rfl⟩ | ⟨-, -, -, sp, -, rfl, -⟩ <;> simp

theorem callRequest_noIllegal (f : Fields) (s : State) : NoIllegal (callRequest f s) :=
  (sourceValue_noIllegal f s).bind fun _ => .ok _

theorem copyRule_noIllegal (u : SrcUse) (d : DstUse) (g : State → State) (f : Fields) (s : State) :
    NoIllegal (copyRule u d g f s) :=
  (resolveBoth_noIllegal u d f s).bind fun _ => (copyBytes_noIllegal _ _ _ _).bind fun _ => .ok _

theorem readModifyWrite_noIllegal (op : Word → Word → Word) (f : Fields) (s : State) :
    NoIllegal (readModifyWrite op f s) :=
  (resolveBoth_noIllegal _ _ f s).bind fun _ => (memRead_noIllegal _ _ _).bind fun _ =>
    (memRead_noIllegal _ _ _).bind fun _ => (memWrite_noIllegal _ _ _ _).bind fun _ => .ok _

/-- Every instruction other than CALL commits a rule that raises no ILLEGAL_INSTRUCTION and leaves `run_state` alone. -/
theorem exec_commits_noIllegal {i : Instr} (s : State) (hc : i.opcode ≠ .call) :
    ∃ x, exec i s = commit i.fields s x ∧ RuleAnswers s x ∧ NoIllegal x := by
  cases i with
  | mov f => exact ⟨_, execMov_eq f s, copyRule_answers _ _ f s fun _ => rfl, copyRule_noIllegal _ _ _ f s⟩
  | push f => exact ⟨_, execPush_eq f s, copyRule_answers _ _ f s fun _ => rfl, copyRule_noIllegal _ _ _ f s⟩
  | pop f => exact ⟨_, execPop_eq f s, copyRule_answers _ _ f s fun _ => rfl, copyRule_noIllegal _ _ _ f s⟩
  | add f => exact ⟨_, rfl, readModifyWrite_answers _ f s, readModifyWrite_noIllegal _ f s⟩
  | sub f => exact ⟨_, rfl, readModifyWrite_answers _ f s, readModifyWrite_noIllegal _ f s⟩
  | and f => exact ⟨_, rfl, readModifyWrite_answers _ f s, readModifyWrite_noIllegal _ f s⟩
  | xor f => exact ⟨_, rfl, readModifyWrite_answers _ f s, readModifyWrite_noIllegal _ f s⟩
  | lea f =>
    exact ⟨_, rfl,
      (resolveBoth_answers _ _ f s).bind fun _ hr => (memWrite_answers _ _ _ _).bind fun _ hw => hw.trans hr,
      (resolveBoth_noIllegal _ _ f s).bind fun _ => (memWrite_noIllegal _ _ _ _).bind fun _ => .ok _⟩
  | cmp f =>
    exact ⟨_, rfl,
      (resolveBoth_answers _ _ f s).bind fun _ hr => (memRead_answers _ _ _).bind fun _ _ =>
        (memRead_answers _ _ _).bind fun _ _ => hr,
      (resolveBoth_noIllegal _ _ f s).bind fun _ => (memRead_noIllegal _ _ _).bind fun _ =>
        (memRead_noIllegal _ _ _).bind fun _ => .ok _⟩
  | jmp f =>
    exact ⟨_, rfl,
      (sourceValue_answers f s).bind fun t _ => (checkTarget_answers s t).bind fun _ _ => rfl,
      (sourceValue_noIllegal f s).bind fun t => (checkTarget_noIllegal s t).bind fun _ => .ok _⟩
  | jne f =>
    refine ⟨_, rfl, (sourceValue_answers f s).bind fun t _ => ?_, (sourceValue_noIllegal f s).bind fun t => ?_⟩
    · split
      · rfl
      · exact (checkTarget_answers s t).bind fun _ _ => rfl
    · split
      · exact .ok _
      · exact (checkTarget_noIllegal s t).bind fun _ => .ok _
  | call f => exact absurd rfl hc
  | ret f =>
    exact ⟨_, rfl, (checkTruncated_answers f s).bind fun _ _ => rfl, (checkTruncated_noIllegal f s).bind fun _ => .ok _⟩

/-- No instruction of a running core takes the fault ILLEGAL_INSTRUCTION. -/
theorem exec_not_takesFault_illegal {s : State} (i : Instr) (hrun : s.runState = .running) (info : Word) :
    ¬ TakesFault (exec i s) s .illegalInstruction info := by
  intro h
  by_cases hc : i.opcode = .call
  · obtain ⟨f, rfl⟩ : ∃ f, i = .call f := ⟨_, eq_make_of_opcode hc⟩
    rcases execCall_cases h with ⟨r, hr, ht⟩ | ⟨req, -, ⟨rest, -, ht⟩ | ⟨r, cs, rest, -, -, ht⟩⟩
    · exact callRequest_noIllegal f s r hr (congrArg State.faultCause ht).symm
    · exact nomatch congrArg State.faultCause ht
    · have := congrArg State.runState ht
      simp [hrun] at this
  · obtain ⟨x, hx, hans, hno⟩ := exec_commits_noIllegal s hc
    rcases commit_cases (hx.symm.trans h) with ⟨r, rfl, ht⟩ | ⟨w, nc, rfl, ht⟩
    · exact hno r rfl (congrArg State.faultCause ht).symm
    · have hw : w.runState = .running := hans.trans hrun
      have hf := congrArg State.runState ht
      cases nc <;> simp [hw] at hf

/-- The step of a running core on a legal word is that instruction's (R164). -/
theorem step_of_decode_ok {s : State} {w : Word} {i : Instr} (hrst : s.rst = false) (hrun : s.runState = .running)
    (hw : s.prog[s.pc.toNat]? = some w) (hd : decode s.obfMask w = .ok i) : step s = exec i s := by
  simp [step, fetch, hrst, hrun, State.decodeAtPc, State.fetchSlot, hw, hd]

/-- The step of a running core on an illegal word takes the fault that records the plain word (R166). -/
theorem step_of_decode_error {s : State} {w : Word} {why : IllegalWord} (hrst : s.rst = false)
    (hrun : s.runState = .running) (hw : s.prog[s.pc.toNat]? = some w) (hd : decode s.obfMask w = .error why) :
    TakesFault (step s) s .illegalInstruction (w ^^^ s.obfMask) := by
  simp [TakesFault, step, fetch, hrst, hrun, State.decodeAtPc, State.fetchSlot, hw, hd, State.takeIllegal,
    State.takeFault, unmask]

/-- Settles O5: the word at `pc` decodes exactly when it is legal (`decodePlain_legal_iff`), and then an instruction runs,
which never raises ILLEGAL_INSTRUCTION. -/
theorem illegalWordExactly : Obligations.IllegalWordExactly := by
  intro s w hrst hrun hw
  refine ⟨?_, decoderBlock_illegal_iff s.obfMask w⟩
  cases hd : decode s.obfMask w with
  | ok i =>
    have hlegal : ¬ IllegalPlain (w ^^^ s.obfMask) := (decodePlain_legal_iff _).1 ⟨i, hd⟩
    rw [step_of_decode_ok hrst hrun hw hd]
    exact iff_of_false (exec_not_takesFault_illegal i hrun _) hlegal
  | error why =>
    have hillegal : IllegalPlain (w ^^^ s.obfMask) := by
      by_contra h
      obtain ⟨i, hi⟩ := (decodePlain_legal_iff _).2 h
      exact nomatch hi.symm.trans hd
    exact iff_of_true (step_of_decode_error hrst hrun hw hd) hillegal

end Sys2Proof.Machine

namespace Sys2Proof.Machine

/-! ## The operand shapes of a mnemonic (R152) -/

/-- The selectors of the operands, by whether the mnemonic takes a destination and a source (R152). -/
def operandSelectors (p : Params) : Bool → Bool → List AsmOperand → Option (AsmSelector × AsmSelector)
  | true, true, [d, s] => (asmDestination p d).bind fun dst => (asmSelector p s).map fun src => (dst, src)
  | true, false, [d] => (asmDestination p d).map fun dst => (dst, asmUnused)
  | false, true, [s] => (asmSelector p s).map fun src => (asmUnused, src)
  | false, false, [] => some (asmUnused, asmUnused)
  | _, _, _ => none

/-- What the operands of a mnemonic may be depends only on whether it takes a destination and a source. -/
theorem asmOperands_eq (p : Params) (op : Opcode) (os : List AsmOperand) :
    asmOperands p op os = operandSelectors p (checksRd op) (readsSourceOperand op) os := by
  rcases os with _ | ⟨a, _ | ⟨b, _ | ⟨c, os⟩⟩⟩
  all_goals cases op
  all_goals simp only [asmOperands, operandSelectors, checksRd, readsSourceOperand, bind_pure_comp, Option.map_eq_map]
  all_goals rfl

/-- An operand list of the wrong length has no selectors. -/
theorem operandSelectors_of_length_ne (p : Params) {d r : Bool} {os : List AsmOperand}
    (h : os.length ≠ (if d = true then 1 else 0) + (if r = true then 1 else 0)) : operandSelectors p d r os = none := by
  unfold operandSelectors
  split
  case h_5 => rfl
  all_goals exact absurd rfl h

/-- R152 refuses a source operand for its index alone (R151). -/
theorem asmSelector_eq_none_iff {p : Params} {o : AsmOperand} :
    asmSelector p o = none ↔ ∃ k, o.register = some k ∧ p.nreg ≤ k := by
  cases o <;> simp [asmSelector, AsmOperand.register]

/-- R152 refuses a destination that is no register form besides. -/
theorem asmDestination_eq_none_iff {p : Params} {o : AsmOperand} :
    asmDestination p o = none ↔ o.register = none ∨ ∃ k, o.register = some k ∧ p.nreg ≤ k := by
  cases o <;> simp [asmDestination, asmSelector, AsmOperand.register]

/-- Two selectors are missing as a pair when one of them is. -/
theorem pair_eq_none_iff {α β : Type} {x : Option α} {y : Option β} :
    (x.bind fun a => y.map fun b => (a, b)) = none ↔ x = none ∨ y = none := by
  cases x <;> simp

/-- The grounds of R152 that are about the operands. -/
theorem operandSelectors_eq_none_iff {p : Params} {d r : Bool} {os : List AsmOperand} :
    operandSelectors p d r os = none ↔
      os.length ≠ (if d = true then 1 else 0) + (if r = true then 1 else 0) ∨
      (d = true ∧ ∃ o rest, os = o :: rest ∧ o.register = none) ∨ ∃ o ∈ os, ∃ k, o.register = some k ∧ p.nreg ≤ k := by
  by_cases hlen : os.length = (if d = true then 1 else 0) + (if r = true then 1 else 0)
  swap
  · exact iff_of_true (operandSelectors_of_length_ne p hlen) (.inl hlen)
  cases d <;> cases r
  case false.false =>
    obtain rfl := List.length_eq_zero_iff.1 hlen
    simp [operandSelectors]
  case false.true =>
    obtain ⟨s, rfl⟩ := List.length_eq_one_iff.1 hlen
    simp [operandSelectors, asmSelector_eq_none_iff]
  case true.false =>
    obtain ⟨dst, rfl⟩ := List.length_eq_one_iff.1 hlen
    simp [operandSelectors, asmDestination_eq_none_iff]
  case true.true =>
    obtain ⟨dst, s, rfl⟩ := List.length_eq_two.1 hlen
    rw [operandSelectors, pair_eq_none_iff, asmDestination_eq_none_iff, asmSelector_eq_none_iff]
    simp [or_assoc]

/-! ## What an assembler gives the encoder block (R151) -/

/-- The encoder block's inputs for an instruction whose operands give these selectors. -/
def AsmInstr.encoderIn (a : AsmInstr) (dst src : AsmSelector) : EncoderIn where
  opc := a.op.value
  sel1 := dst.sel
  sel2 := src.sel
  useKind := false
  size := BitVec.ofNat 8 a.size
  dm := BitVec.ofBool dst.deref ++ BitVec.ofBool src.deref
  kindClass := 0
  kindWidth := 0

theorem asmEncoderIn_eq_some_iff {p : Params} {a : AsmInstr} {e : EncoderIn} {v : Option AsmValue} :
    asmEncoderIn p a = some (e, v) ↔ ∃ dst src, asmOperands p a.op a.operands = some (dst, src) ∧
      (1 ≤ a.size ∧ a.size ≤ 8) ∧ e = a.encoderIn dst src ∧ v = src.literal := by
  by_cases hsize : 1 ≤ a.size ∧ a.size ≤ 8
  · cases h : asmOperands p a.op a.operands with
    | none => simp [asmEncoderIn, h]
    | some σ => simp [asmEncoderIn, AsmInstr.encoderIn, h, hsize, Prod.ext_iff, eq_comm]
  · simp [asmEncoderIn, hsize]

theorem asmEncoderIn_eq_none_iff {p : Params} {a : AsmInstr} :
    asmEncoderIn p a = none ↔ asmOperands p a.op a.operands = none ∨ (a.size < 1 ∨ 8 < a.size) := by
  have hsize : (a.size < 1 ∨ 8 < a.size) ↔ ¬ (1 ≤ a.size ∧ a.size ≤ 8) := by omega
  rw [hsize]
  cases h : asmOperands p a.op a.operands with
  | none => simp [asmEncoderIn, h]
  | some σ => simp [asmEncoderIn, h]

/-- Settles O8: the operands' grounds (`operandSelectors_eq_none_iff`) and the size's. -/
theorem assemblerRefusesExactly : Obligations.AssemblerRefusesExactly := by
  intro p a
  rw [asmEncoderIn_eq_none_iff, asmOperands_eq, operandSelectors_eq_none_iff, AssemblerRefuses, or_assoc,
    or_assoc, or_comm (b := a.size < 1 ∨ 8 < a.size)]

/-! ## Assembled instructions (R151, R152) -/

/-- What the selector of an operand says of it, in a build with at most 15 registers (R151). -/
structure SelectorOf (p : Params) (o : AsmOperand) (σ : AsmSelector) : Prop where
  deref : σ.deref = o.dereferenced
  literal : σ.literal = o.literal
  immediate : σ.sel = 0 ↔ σ.literal.isSome = true
  register : σ.sel ≠ 0 → o.register = some (σ.sel - 1).toNat ∧ (σ.sel - 1).toNat < p.nreg

/-- The selector `k + 1` names register `k` (R151). -/
theorem selector_of_register {n k : Nat} (hn : n ≤ 8) (hk : k < n) :
    BitVec.ofNat 4 (k + 1) ≠ 0 ∧ (BitVec.ofNat 4 (k + 1) - 1).toNat = k := by
  have hsel : (BitVec.ofNat 4 (k + 1)).toNat = k + 1 := by
    rw [BitVec.toNat_ofNat]
    omega
  refine ⟨fun h => ?_, by rw [selector_sub_one_toNat, hsel]; omega⟩
  rw [h] at hsel
  exact nomatch hsel

/-- An operand names a register or has a literal (R150). -/
theorem AsmOperand.register_or_literal (o : AsmOperand) :
    (∃ k, o.register = some k ∧ o.literal = none) ∨ ∃ v, o.literal = some v := by
  cases o <;> simp [AsmOperand.register, AsmOperand.literal]

theorem asmSelector_of_register {p : Params} {o : AsmOperand} {k : Nat} (h : o.register = some k) :
    asmSelector p o = if k < p.nreg then some ⟨BitVec.ofNat 4 (k + 1), o.dereferenced, none⟩ else none := by
  cases o <;> cases h <;> rfl

theorem asmSelector_of_literal {p : Params} {o : AsmOperand} {v : AsmValue} (h : o.literal = some v) :
    asmSelector p o = some ⟨0, o.dereferenced, some v⟩ := by
  cases o <;> cases h <;> rfl

theorem asmSelector_selectorOf {p : Params} (hp : p.Legal) {o : AsmOperand} {σ : AsmSelector}
    (h : asmSelector p o = some σ) : SelectorOf p o σ := by
  rcases o.register_or_literal with ⟨k, hreg, hlit⟩ | ⟨v, hlit⟩
  · rw [asmSelector_of_register hreg] at h
    split at h
    · rename_i hk
      obtain rfl := Option.some.inj h
      obtain ⟨h0, hidx⟩ := selector_of_register hp.1.2 hk
      exact ⟨rfl, hlit.symm, iff_of_false h0 Bool.false_ne_true, fun _ => by rw [hidx]; exact ⟨hreg, hk⟩⟩
    · cases h
  · rw [asmSelector_of_literal hlit] at h
    obtain rfl := Option.some.inj h
    exact ⟨rfl, hlit.symm, iff_of_true rfl rfl, fun h0 => absurd rfl h0⟩

/-- A destination is an operand without a literal (R152). -/
theorem asmDestination_cases {p : Params} {o : AsmOperand} {σ : AsmSelector} (h : asmDestination p o = some σ) :
    asmSelector p o = some σ ∧ o.literal = none := by
  cases o with
  | reg k => exact ⟨h, rfl⟩
  | ind k => exact ⟨h, rfl⟩
  | imm v => cases h
  | abs v => cases h

/-- Everything the operands of a mnemonic can give (R151, R152). -/
theorem operandSelectors_cases {p : Params} {d r : Bool} {os : List AsmOperand} {dst src : AsmSelector}
    (h : operandSelectors p d r os = some (dst, src)) :
    (d = true ∧ r = true ∧ ∃ x y, os = [x, y] ∧ asmDestination p x = some dst ∧ asmSelector p y = some src) ∨
    (d = true ∧ r = false ∧ ∃ x, os = [x] ∧ asmDestination p x = some dst ∧ src = asmUnused) ∨
    (d = false ∧ r = true ∧ ∃ y, os = [y] ∧ dst = asmUnused ∧ asmSelector p y = some src) ∨
    (d = false ∧ r = false ∧ os = [] ∧ dst = asmUnused ∧ src = asmUnused) := by
  unfold operandSelectors at h
  split at h
  case h_1 x y =>
    obtain ⟨dst', hd, h⟩ := Option.bind_eq_some_iff.1 h
    obtain ⟨src', hs, h⟩ := Option.map_eq_some_iff.1 h
    cases h
    exact .inl ⟨rfl, rfl, x, y, rfl, hd, hs⟩
  case h_2 x =>
    obtain ⟨dst', hd, h⟩ := Option.map_eq_some_iff.1 h
    cases h
    exact .inr (.inl ⟨rfl, rfl, x, rfl, hd, rfl⟩)
  case h_3 y =>
    obtain ⟨src', hs, h⟩ := Option.map_eq_some_iff.1 h
    cases h
    exact .inr (.inr (.inl ⟨rfl, rfl, y, rfl, rfl, hs⟩))
  case h_4 =>
    cases h
    exact .inr (.inr (.inr ⟨rfl, rfl, rfl, rfl, rfl⟩))
  case h_5 => cases h

/-- The source selector is 0 exactly for a source with a literal (R151). -/
theorem asmOperands_immediate {p : Params} (hp : p.Legal) {op : Opcode} {os : List AsmOperand} {dst src : AsmSelector}
    (h : asmOperands p op os = some (dst, src)) : src.sel = 0 ↔ src.literal.isSome = true := by
  rw [asmOperands_eq] at h
  rcases operandSelectors_cases h with ⟨-, -, x, y, -, -, hs⟩ | ⟨-, -, x, -, -, rfl⟩ | ⟨-, -, y, -, -, hs⟩ |
    ⟨-, -, -, -, rfl⟩
  · exact (asmSelector_selectorOf hp hs).immediate
  · decide
  · exact (asmSelector_selectorOf hp hs).immediate
  · decide

/-- The instruction an assembler encodes from selectors (R114, R151). -/
def AsmInstr.encoded (a : AsmInstr) (dst src : AsmSelector) : Instr :=
  Instr.make a.op ⟨src.sel - 1, dst.sel - 1, DerefMode.ofBits (BitVec.ofBool dst.deref ++ BitVec.ofBool src.deref),
    decide (src.sel = 0), a.size⟩

theorem AsmInstr.encoderIn_sizeIn {a : AsmInstr} (hsize : 1 ≤ a.size ∧ a.size ≤ 8) (dst src : AsmSelector) :
    (a.encoderIn dst src).sizeIn = a.size := by
  simp only [EncoderIn.sizeIn, AsmInstr.encoderIn, Bool.false_eq_true, if_false, BitVec.toNat_ofNat]
  omega

theorem AsmInstr.encoderIn_instr {a : AsmInstr} (hsize : 1 ≤ a.size ∧ a.size ≤ 8) (dst src : AsmSelector) :
    (a.encoderIn dst src).instr a.op = a.encoded dst src := by
  simp only [EncoderIn.instr, AsmInstr.encoderIn_sizeIn hsize, Nat.min_eq_left hsize.2]
  rfl

/-- The encoder block's word for an assembled instruction is that instruction's (R114, R151). -/
theorem AsmInstr.encoderBlock_word {a : AsmInstr} (hsize : 1 ≤ a.size ∧ a.size ≤ 8) (mask : Word)
    (dst src : AsmSelector) : (encoderBlock mask (a.encoderIn dst src)).word = encode mask (a.encoded dst src) := by
  rw [EncoderIn.encoderBlock_word mask (Opcode.ofValue_value a.op), AsmInstr.encoderIn_instr hsize]

/-- Everything assembling an instruction can answer: the encoded word, and then the source's literal, unmasked, exactly
when it has one (R102, R117). -/
theorem asmInstr_cases {p : Params} {mask : Word} {labels : List (List Char × Nat)} {a : AsmInstr} {slots : List Word}
    (h : asmInstr p mask labels a = some slots) : ∃ dst src literal,
      asmOperands p a.op a.operands = some (dst, src) ∧ (1 ≤ a.size ∧ a.size ≤ 8) ∧
      slots = encode mask (a.encoded dst src) :: literal.toList ∧ literal = src.literal.bind (asmValue labels) ∧
      literal.isSome = src.literal.isSome := by
  obtain ⟨⟨e, v⟩, he, h⟩ := Option.bind_eq_some_iff.1 h
  obtain ⟨dst, src, hops, hsize, rfl, rfl⟩ := asmEncoderIn_eq_some_iff.1 he
  simp only [AsmInstr.encoderBlock_word hsize] at h
  cases hv : src.literal with
  | none =>
    rw [hv] at h
    exact ⟨dst, src, none, hops, hsize, (Option.some.inj h).symm, by simp [hv], by simp [hv]⟩
  | some v =>
    rw [hv] at h
    obtain ⟨w, hw, h⟩ := Option.bind_eq_some_iff.1 h
    exact ⟨dst, src, some w, hops, hsize, (Option.some.inj h).symm, by simp [hv, hw], by simp [hv]⟩

theorem AsmInstr.encoded_wf {a : AsmInstr} (hsize : 1 ≤ a.size ∧ a.size ≤ 8) (dst src : AsmSelector) :
    (a.encoded dst src).wf = true := by
  rw [Instr.wf_iff, AsmInstr.encoded, Instr.make_fields]
  exact hsize

@[simp] theorem AsmInstr.encoded_opcode (a : AsmInstr) (dst src : AsmSelector) : (a.encoded dst src).opcode = a.op :=
  Instr.make_opcode _ _

@[simp] theorem AsmInstr.encoded_size (a : AsmInstr) (dst src : AsmSelector) :
    (a.encoded dst src).fields.size = a.size := by simp [AsmInstr.encoded]

@[simp] theorem AsmInstr.encoded_rd (a : AsmInstr) (dst src : AsmSelector) :
    (a.encoded dst src).fields.rd = dst.sel - 1 := by simp [AsmInstr.encoded]

@[simp] theorem AsmInstr.encoded_rs (a : AsmInstr) (dst src : AsmSelector) :
    (a.encoded dst src).fields.rs = src.sel - 1 := by simp [AsmInstr.encoded]

@[simp] theorem AsmInstr.encoded_imm (a : AsmInstr) (dst src : AsmSelector) :
    (a.encoded dst src).fields.imm = decide (src.sel = 0) := by simp [AsmInstr.encoded]

@[simp] theorem AsmInstr.encoded_derefsSource (a : AsmInstr) (dst src : AsmSelector) :
    (a.encoded dst src).fields.dm.derefsSource = src.deref := by
  rw [AsmInstr.encoded, Instr.make_fields]
  cases dst.deref <;> cases src.deref <;> rfl

@[simp] theorem AsmInstr.encoded_derefsDestination (a : AsmInstr) (dst src : AsmSelector) :
    (a.encoded dst src).fields.dm.derefsDestination = dst.deref := by
  rw [AsmInstr.encoded, Instr.make_fields]
  cases dst.deref <;> cases src.deref <;> rfl

section
variable {p : Params} (hp : p.Legal) (a : AsmInstr) (dst src : AsmSelector)
include hp

theorem destinationEncoded {o : AsmOperand} (h : asmDestination p o = some dst) :
    DestinationEncoded p o (a.encoded dst src).fields := by
  obtain ⟨hsel, hlit⟩ := asmDestination_cases h
  have hσ := asmSelector_selectorOf hp hsel
  have h0 : dst.sel ≠ 0 := by
    rw [Ne, hσ.immediate, hσ.literal, hlit]
    exact Bool.false_ne_true
  obtain ⟨hreg, hlt⟩ := hσ.register h0
  exact ⟨by simpa using hreg, by simpa using hlt, by simpa using hσ.deref⟩

theorem sourceEncoded {labels : List (List Char × Nat)} {o : AsmOperand} (h : asmSelector p o = some src) :
    SourceEncoded p labels o (a.encoded dst src).fields (src.literal.bind (asmValue labels)) := by
  have hσ := asmSelector_selectorOf hp h
  refine ⟨fun himm => ?_, by simpa using hσ.deref, ?_, by rw [hσ.literal]⟩
  · have h0 : src.sel ≠ 0 := by simpa using himm
    simpa using hσ.register h0
  · rw [AsmInstr.encoded_imm, ← hσ.literal, Bool.eq_iff_iff, decide_eq_true_iff]
    exact hσ.immediate

end

/-- A mnemonic without a destination (R152). -/
theorem noDestination_encoded (a : AsmInstr) (src : AsmSelector) : NoDestination (a.encoded asmUnused src).fields :=
  ⟨by simp [asmUnused], by simp [asmUnused]⟩

/-- A mnemonic without a source (R152). -/
theorem noSource_encoded (labels : List (List Char × Nat)) (a : AsmInstr) (dst : AsmSelector) :
    NoSource (a.encoded dst asmUnused).fields (asmUnused.literal.bind (asmValue labels)) :=
  ⟨by simp [asmUnused], by simp [asmUnused], by simp [asmUnused], rfl⟩

/-- The operands of an instruction stand in the fields of its encoding. -/
theorem operandsEncoded {p : Params} (hp : p.Legal) (labels : List (List Char × Nat)) {a : AsmInstr}
    {dst src : AsmSelector} (h : asmOperands p a.op a.operands = some (dst, src)) :
    OperandsEncoded p labels a (a.encoded dst src).fields (src.literal.bind (asmValue labels)) := by
  rw [asmOperands_eq] at h
  unfold OperandsEncoded
  rcases operandSelectors_cases h with ⟨hd, hr, x, y, hos, hdst, hsrc⟩ | ⟨hd, hr, x, hos, hdst, rfl⟩ |
    ⟨hd, hr, y, hos, rfl, hsrc⟩ | ⟨hd, hr, hos, rfl, rfl⟩
  all_goals rw [hd, hr, hos]
  · exact ⟨destinationEncoded hp a dst src hdst, sourceEncoded hp a dst src hsrc⟩
  · exact ⟨destinationEncoded hp a dst _ hdst, noSource_encoded labels a dst⟩
  · exact ⟨noDestination_encoded a src, sourceEncoded hp a _ src hsrc⟩
  · exact ⟨noDestination_encoded a _, noSource_encoded labels a _⟩

/-- Settles O7: the assembled word is an instruction's encoding (`asmInstr_cases`), which decodes to it, and its fields
hold the operands (`operandsEncoded`). -/
theorem assembledWordsDecode : Obligations.AssembledWordsDecode := by
  intro p mask labels a slots hp h
  obtain ⟨dst, src, literal, hops, hsize, rfl, rfl, -⟩ := asmInstr_cases h
  exact ⟨_, _, a.encoded dst src, rfl, decode_encode mask (a.encoded_wf hsize dst src), a.encoded_opcode dst src,
    a.encoded_size dst src, operandsEncoded hp labels hops⟩

/-! ## Assembled programs (R154) -/

/-- The slots an instruction takes, by its source selector (R154). -/
theorem asmSlots_of_asmOperands {p : Params} {a : AsmInstr} {dst src : AsmSelector}
    (hops : asmOperands p a.op a.operands = some (dst, src)) (hsize : 1 ≤ a.size ∧ a.size ≤ 8) :
    asmSlots p a = some (if src.sel = 0 then 2 else 1) := by
  have he := asmEncoderIn_eq_some_iff.2 ⟨dst, src, hops, hsize, rfl, rfl⟩
  simp [asmSlots, he, encoderBlock, AsmInstr.encoderIn]

/-- An assembled instruction has the slots that R154 counts for it. -/
theorem asmInstr_length {p : Params} (hp : p.Legal) {mask : Word} {labels : List (List Char × Nat)} {a : AsmInstr}
    {slots : List Word} (h : asmInstr p mask labels a = some slots) : asmSlots p a = some slots.length := by
  obtain ⟨dst, src, literal, hops, hsize, rfl, -, hlit⟩ := asmInstr_cases h
  rw [asmSlots_of_asmOperands hops hsize]
  simp only [asmOperands_immediate hp hops, ← hlit]
  cases literal <;> rfl

theorem asmLine_length {p : Params} (hp : p.Legal) {mask : Word} {labels : List (List Char × Nat)} {l : AsmLine}
    {slots : List Word} (h : asmLine p mask labels l = some slots) : asmLineSlots p l = some slots.length := by
  unfold asmLine at h
  unfold asmLineSlots
  cases hi : l.instr with
  | none =>
    rw [hi] at h
    obtain rfl := Option.some.inj h
    rfl
  | some a =>
    rw [hi] at h
    exact asmInstr_length hp h

/-- A line puts its own label, if it has one, before the labels of the lines after it (R154). -/
theorem asmLabels_cons_cases {p : Params} {slot : Nat} {l : AsmLine} {ls : List AsmLine}
    {labels : List (List Char × Nat)} (h : asmLabels p slot (l :: ls) = some labels) :
    ∃ n rest, asmLineSlots p l = some n ∧ asmLabels p (slot + n) ls = some rest ∧
      labels = l.label.toList.map (fun name => (name, slot)) ++ rest := by
  obtain ⟨n, hn, h⟩ := Option.bind_eq_some_iff.1 h
  obtain ⟨rest, hrest, h⟩ := Option.bind_eq_some_iff.1 h
  refine ⟨n, rest, hn, hrest, ?_⟩
  obtain rfl := Option.some.inj h
  cases l.label <;> rfl

/-- A line's label stands in the table with the slots before the line (R154). -/
theorem asmLabels_mem {p : Params} {n : AsmLine → Nat} {name : List Char} {i : Option AsmInstr} {post : List AsmLine} :
    ∀ {pre : List AsmLine} {slot : Nat} {labels : List (List Char × Nat)},
      asmLabels p slot (pre ++ ⟨some name, i⟩ :: post) = some labels → (∀ l ∈ pre, asmLineSlots p l = some (n l)) →
      (name, slot + (pre.map n).sum) ∈ labels
  | [], slot, labels, h, _ => by
    obtain ⟨_, rest, -, -, rfl⟩ := asmLabels_cons_cases h
    simp
  | l :: pre, slot, labels, h, hn => by
    obtain ⟨m, rest, hm, hrest, rfl⟩ := asmLabels_cons_cases h
    obtain rfl : m = n l := Option.some.inj (hm.symm.trans (hn l List.mem_cons_self))
    have := asmLabels_mem hrest fun l' hl' => hn l' (List.mem_cons_of_mem l hl')
    rw [List.map_cons, List.sum_cons, ← Nat.add_assoc]
    exact List.mem_append_right _ this

/-- A table without a double name looks up each of its entries. -/
theorem lookup_of_mem_nodup {α β : Type} [BEq α] [LawfulBEq α] {t : List (α × β)} {k : α} {v : β}
    (ht : (t.map Prod.fst).Nodup) (h : (k, v) ∈ t) : t.lookup k = some v := by
  obtain ⟨l₁, l₂, rfl⟩ := List.append_of_mem h
  refine List.lookup_eq_some_iff.2 ⟨l₁, l₂, rfl, fun e he => ?_⟩
  rw [List.map_append, List.map_cons] at ht
  have hne : k ≠ e.1 := fun hk => (List.nodup_append.1 ht).2.2 e.1 (List.mem_map_of_mem he) k List.mem_cons_self hk.symm
  simpa using hne

/-- A traversal of a list that answers does so at every element. -/
theorem mapM_eq_some {α β : Type} {f : α → Option β} : ∀ {l : List α} {r : List β}, l.mapM f = some r →
    l.map f = r.map some
  | [], r, h => by
    obtain rfl := Option.some.inj h
    rfl
  | a :: l, r, h => by
    rw [List.mapM_cons] at h
    obtain ⟨b, hb, h⟩ := Option.bind_eq_some_iff.1 h
    obtain ⟨r', hr, h⟩ := Option.bind_eq_some_iff.1 h
    obtain rfl := Option.some.inj h
    rw [List.map_cons, List.map_cons, hb, mapM_eq_some hr]

/-- Everything assembling a program can answer: a table of labels, none twice, and the slots of every line in order. -/
theorem assemble_cases {p : Params} {mask : Word} {ls : List AsmLine} {slots : List Word}
    (h : assemble p mask ls = some slots) : ∃ labels, asmLabels p 0 ls = some labels ∧ (labels.map Prod.fst).Nodup ∧
      (∀ l ∈ ls, asmLine p mask labels l = some ((asmLine p mask labels l).getD [])) ∧
      slots = (ls.map (fun l => (asmLine p mask labels l).getD [])).flatten := by
  obtain ⟨labels, hl, h⟩ := Option.bind_eq_some_iff.1 h
  obtain ⟨r, hr, h⟩ := Option.bind_eq_some_iff.1 h
  obtain ⟨hnodup, h⟩ := Option.ite_none_right_eq_some.1 h
  obtain rfl := Option.some.inj h
  have hmap := mapM_eq_some hr
  refine ⟨labels, hl, hnodup, fun l hmem => ?_, ?_⟩
  · obtain ⟨x, -, hx⟩ := List.mem_map.1 (hmap ▸ List.mem_map_of_mem (f := asmLine p mask labels) hmem)
    rw [← hx]
    rfl
  · have : r = (ls.map (asmLine p mask labels)).map (fun x => x.getD []) := by
      rw [hmap, List.map_map]
      simp
    rw [this, List.map_map]
    rfl

/-- Settles O9: the lines' slots are those counted for them (`asmLine_length`), so a label's entry (`asmLabels_mem`) is
the number of slots stored before its line. -/
theorem assembledLabels : Obligations.AssembledLabels := by
  intro p mask ls slots hp h
  obtain ⟨labels, hl, hnodup, hlines, rfl⟩ := assemble_cases h
  have hslots : ∀ l ∈ ls, asmLineSlots p l = some ((asmLine p mask labels l).getD []).length :=
    fun l hmem => asmLine_length hp (hlines l hmem)
  refine ⟨fun l => ((asmLine p mask labels l).getD []).length, labels, hl, hslots, ?_, ?_, rfl⟩
  · rw [List.length_flatten, List.map_map]
    rfl
  · rintro pre name i post rfl
    have hmem := asmLabels_mem hl fun l hpre => hslots l (List.mem_append_left _ hpre)
    rw [Nat.zero_add] at hmem
    rw [asmValue, lookup_of_mem_nodup hnodup hmem]
    rfl

end Sys2Proof.Machine

namespace Sys2Proof.Machine

/-! ## The checks every instruction begins with (R168, R170, R171) -/

/-- Commit takes the fault of a rule's first part that raises (R190). -/
theorem commit_bind_error {α : Type} {f : Fields} {s : State} {r : Raised} {x : Except Raised α}
    (g : α → Except Raised (State × NextControl)) (h : x = .error r) :
    commit f s (x >>= g) = .next (s.takeFault r) := by
  rw [h]
  rfl

/-- The truncated immediate, then `RD`, then `RS`, each where the operand-use table R170 says it is checked. -/
def operandChecks (i : Instr) (s : State) : Except Raised Unit := do
  checkTruncated i.fields s
  if checksRd i.opcode then checkRd .reg i.fields s else .ok ()
  if readsSourceOperand i.opcode then checkRs .regOrImm i.fields s else .ok ()

theorem operandChecks_truncated {i : Instr} {s : State} (h : literalPresent i.fields s = false) :
    operandChecks i s = .error ⟨.truncatedImmediate, s.pc⟩ := by
  simp [operandChecks, checkTruncated_eq, h]

theorem operandChecks_rd {i : Instr} {s : State} (hlit : literalPresent i.fields s = true)
    (hc : checksRd i.opcode = true) (hrd : s.params.nreg ≤ i.fields.rd.toNat) :
    operandChecks i s = .error ⟨.invalidRegister, i.fields.rd.setWidth 64⟩ := by
  simp [operandChecks, checkTruncated_ok.2 hlit, hc, checkRd, checkIndex_error hrd]

theorem operandChecks_rs {i : Instr} {s : State} (hlit : literalPresent i.fields s = true)
    (hrd : checksRd i.opcode = true → i.fields.rd.toNat < s.params.nreg) (hc : readsSourceOperand i.opcode = true)
    (himm : i.fields.imm = false) (hrs : s.params.nreg ≤ i.fields.rs.toNat) :
    operandChecks i s = .error ⟨.invalidRegister, i.fields.rs.setWidth 64⟩ := by
  have hpass (hd : checksRd i.opcode = true) : checkRd .reg i.fields s = .ok () := checkIndex_ok.2 (hrd hd)
  simp +contextual [operandChecks, checkTruncated_ok.2 hlit, hpass, hc, checkRs, himm, checkIndex_error hrs]

/-- The resolver of two operands raises what its checks raise. -/
theorem resolveBoth_of_checks_error {u : SrcUse} {d : DstUse} {f : Fields} {s : State} {r : Raised}
    (h : (do checkTruncated f s; checkRd d f s; checkRs u f s) = .error r) : resolveBoth u d f s = .error r := by
  unfold resolveBoth
  rcases bind_error h with h | ⟨⟨⟩, h1, h⟩
  · simp [h]
  rcases bind_error h with h | ⟨⟨⟩, h2, h⟩
  · simp [h1, h]
  · simp [h1, h2, h]

/-- A source-only opcode's operand raises what its checks raise. -/
theorem sourceValue_of_checks_error {f : Fields} {s : State} {r : Raised}
    (h : (do checkTruncated f s; checkRs .regOrImm f s) = .error r) : sourceValue f s = .error r := by
  unfold sourceValue resolveSource
  rcases bind_error h with h | ⟨⟨⟩, h1, h⟩
  · simp [h]
  · simp [h1, h]

/-- Every instruction begins with the checks of its row of R170: what they raise is the instruction's fault. -/
theorem exec_of_operandChecks_error {i : Instr} {s : State} {r : Raised} (h : operandChecks i s = .error r) :
    exec i s = .next (s.takeFault r) := by
  cases i with
  | mov f => exact commit_bind_error _ (resolveBoth_of_checks_error (u := .regOrImm) (d := .reg) h)
  | push f => exact commit_bind_error _ (resolveBoth_of_checks_error (u := .regOrImm) (d := .newTop) h)
  | pop f => exact commit_bind_error _ (resolveBoth_of_checks_error (u := .stackTop) (d := .reg) h)
  | add f | sub f | and f | xor f | lea f | cmp f =>
    exact commit_bind_error _ (resolveBoth_of_checks_error (u := .regOrImm) (d := .reg) h)
  | jmp f | jne f => exact commit_bind_error _ (sourceValue_of_checks_error h)
  | call f =>
    have hval : sourceValue f s = .error r := sourceValue_of_checks_error h
    have hreq : callRequest f s = .error r := by simp [callRequest, hval]
    simp [exec, execCall, hreq]
  | ret f =>
    rcases bind_error h with h | ⟨⟨⟩, -, h⟩
    · exact commit_bind_error _ h
    · exact nomatch h

/-- R168 for every instruction. -/
theorem exec_truncated {i : Instr} {s : State} (h : literalPresent i.fields s = false) :
    exec i s = .next (s.takeFault ⟨.truncatedImmediate, s.pc⟩) :=
  exec_of_operandChecks_error (operandChecks_truncated h)

/-- Settles O39: the two clauses are the second and the third of the checks an instruction begins with. -/
theorem invalidRegister : Obligations.InvalidRegister := fun _ _ hlit =>
  ⟨fun hc hrd => exec_of_operandChecks_error (operandChecks_rd hlit hc hrd),
    fun hrd hc himm hrs => exec_of_operandChecks_error (operandChecks_rs hlit hrd hc himm hrs)⟩

end Sys2Proof.Machine

namespace Sys2Proof.Machine

/-! ## How an instruction ends (R192, R198, R306) -/

/-- The instruction took a fault: the record names a cause and the instruction's slot, where `pc` stays (R306). -/
structure TookFault (s t : State) : Prop where
  runState : t.runState = .faulted
  cause : t.faultCause ≠ .none
  slot : t.faultPc = s.pc
  pc : t.pc = s.pc

theorem State.takeFault_tookFault (s : State) {r : Raised} (h : r.cause ≠ .none) : TookFault s (s.takeFault r) :=
  ⟨rfl, h, rfl, rfl⟩

/-- The fault record is as it was (R38). -/
structure KeepsFaultRecord (s t : State) : Prop where
  cause : t.faultCause = s.faultCause
  slot : t.faultPc = s.faultPc
  info : t.faultInfo = s.faultInfo

/-- The instruction ended without a fault: RET halted the core and any other left it RUNNING, with `pc` at most
`PROG_LEN` (R35, R198). -/
structure EndedWell (i : Instr) (s t : State) : Prop where
  literal : literalPresent i.fields s = true
  runState : t.runState = if i.opcode = .ret then .halted else .running
  record : KeepsFaultRecord s t
  pc : s.pc.toNat < s.progLen → t.pc.toNat ≤ s.progLen

/-- Falling through stays within the program, past the literal of a long form (R100, R192). -/
theorem advance_fall_pc_le {f : Fields} {w : State} (hlit : literalPresent f w = true) (hpc : w.pc.toNat < w.progLen) :
    (advance f w .fall).pc.toNat ≤ w.progLen := by
  rw [advance_fall_pc, BitVec.toNat_add]
  refine (Nat.mod_le _ _).trans ?_
  cases hi : f.imm
  · exact hpc
  · have hnext : w.pc.toNat + 1 < w.progLen := by simpa [literalPresent, hi] using hlit
    exact hnext

/-- An instruction that falls through or jumps inside the program, from what it has made of the state, ends well. -/
theorem endedWell_advance {i : Instr} {s w : State} {nc : NextControl} (hrun : w.runState = .running)
    (hrec : KeepsFaultRecord s w) (hpc : w.pc = s.pc) (hprog : w.prog = s.prog)
    (hlit : literalPresent i.fields s = true) (hret : i.opcode ≠ .ret) (hhalt : nc ≠ .halt)
    (hjump : ∀ a, nc = .jump a → a.toNat ≤ s.progLen) : EndedWell i s (advance i.fields w nc) := by
  cases nc with
  | fall =>
    refine ⟨hlit, by simp [hret, hrun], ⟨hrec.cause, hrec.slot, hrec.info⟩, fun hin => ?_⟩
    have hle := advance_fall_pc_le (f := i.fields) (w := w)
    simp only [literalPresent, State.progLen, hpc, hprog] at hle hlit hin ⊢
    exact hle hlit hin
  | jump a => exact ⟨hlit, by simp [hret, hrun], ⟨hrec.cause, hrec.slot, hrec.info⟩, fun _ => hjump a rfl⟩
  | halt => exact absurd rfl hhalt

/-- A RET that is not cut off by the end of the program halts the core and changes nothing else (R285). -/
theorem execRet_eq {f : Fields} {s : State} (hlit : literalPresent f s = true) :
    execRet f s = .next { s with runState := .halted } := by
  simp [execRet, checkTruncated_ok.2 hlit, advance]

/-- RET takes its one fault or halts the core (R286). -/
theorem execRet_ends {f : Fields} {s t : State} (h : exec (.ret f) s = .next t) :
    TookFault s t ∨ EndedWell (.ret f) s t := by
  cases hlit : literalPresent f s with
  | false =>
    obtain rfl := Host.Outcome.next.inj ((exec_truncated (i := .ret f) hlit).symm.trans h)
    exact .inl (s.takeFault_tookFault (by simp))
  | true =>
    obtain rfl := Host.Outcome.next.inj ((execRet_eq hlit).symm.trans h)
    exact .inr ⟨hlit, rfl, ⟨rfl, rfl, rfl⟩, Nat.le_of_lt⟩

/-- A CALL that steps takes a fault, or the host's answer and falls through (R280). -/
theorem execCall_ends {f : Fields} {s t : State} (hrun : s.runState = .running) (h : exec (.call f) s = .next t) :
    TookFault s t ∨ EndedWell (.call f) s t := by
  rcases execCall_cases h with ⟨r, hr, rfl⟩ | ⟨req, hreq, ⟨rest, -, rfl⟩ | ⟨r, cs, rest, -, -, rfl⟩⟩
  · have hcause : r.cause ≠ .none := by simpa [hr] using callRequest_answers f s
    exact .inl (s.takeFault_tookFault hcause)
  · exact .inl ⟨rfl, by simp, rfl, rfl⟩
  · exact .inr (endedWell_advance hrun ⟨rfl, rfl, rfl⟩ rfl rfl (callRequest_literal hreq) nofun nofun nofun)

/-- Every legal instruction that steps takes a fault or ends well. -/
theorem exec_ends {i : Instr} {s t : State} (hi : i.wf = true) (hrun : s.runState = .running) (h : exec i s = .next t) :
    TookFault s t ∨ EndedWell i s t := by
  by_cases hret : i.opcode = .ret
  · obtain ⟨f, rfl⟩ : ∃ f, i = .ret f := ⟨_, eq_make_of_opcode hret⟩
    exact execRet_ends h
  by_cases hcall : i.opcode = .call
  · obtain ⟨f, rfl⟩ : ∃ f, i = .call f := ⟨_, eq_make_of_opcode hcall⟩
    exact execCall_ends hrun h
  rcases exec_named_cases hi hcall hrun h with ⟨r, hr, rfl⟩ | ⟨hlit, w, nc, hw, rfl, hjump, hhalt⟩
  · exact .inl (s.takeFault_tookFault hr)
  · have hrec : KeepsFaultRecord s w := ⟨hw.record.faultCause, hw.record.faultPc, hw.record.faultInfo⟩
    exact .inr (endedWell_advance (hw.record.runState.trans hrun) hrec hw.pc hw.record.prog hlit hret
      (fun hnc => hret (hhalt hnc)) fun a ha => (hjump a ha).1)

/-- Everything a step can do, by how it ends: the halt transition, a fault, or an instruction that ends well. -/
theorem step_ends {s t : State} (h : step s = .next t) : s.runState = .running ∧
    ((s.progLen ≤ s.pc.toNat ∧ t = s.haltAtEnd) ∨
     (s.pc.toNat < s.progLen ∧ TookFault s t) ∨
     (s.pc.toNat < s.progLen ∧
       ∃ w i, s.prog[s.pc.toNat]? = some w ∧ decode s.obfMask w = .ok i ∧ EndedWell i s t)) := by
  obtain ⟨-, hrun, ⟨hend, rfl⟩ | ⟨w, why, hw, -, rfl⟩ | ⟨w, i, hw, hdec, hexec⟩⟩ := step_cases h
  · exact ⟨hrun, .inl ⟨fetchSlot_none.1 hend, rfl⟩⟩
  · exact ⟨hrun, .inr (.inl ⟨fetchSlot_some hw, s.takeFault_tookFault (by simp)⟩)⟩
  · refine ⟨hrun, .inr ((exec_ends (decode_wf hdec) hrun hexec).imp ?_ ?_)⟩
    · exact fun hf => ⟨fetchSlot_some hw, hf⟩
    · exact fun hwell => ⟨fetchSlot_some hw, w, i, hw, hdec, hwell⟩

/-- Settles O38: `exec_truncated` for the fault; with it, no end of a step leaves `pc` past `PROG_LEN`. -/
theorem truncatedImmediate : Obligations.TruncatedImmediate := by
  refine ⟨fun i s himm hlen => exec_truncated ?_, fun s t _ hpc h => ?_⟩
  · simpa [literalPresent, himm] using hlen
  · have hprog : t.progLen = s.progLen := congrArg List.length (step_frame h).prog
    rw [hprog]
    obtain ⟨-, ⟨-, rfl⟩ | ⟨-, hf⟩ | ⟨hin, w, i, -, -, hwell⟩⟩ := step_ends h
    · exact hpc
    · rw [hf.pc]
      exact hpc
    · exact hwell.pc hin

/-- The word at `pc` is a RET whose literal, if it has one, is in place. -/
def State.AtRet (s : State) : Prop :=
  ∃ w f, s.prog[s.pc.toNat]? = some w ∧ decode s.obfMask w = .ok (.ret f) ∧ literalPresent f s = true

/-- The step at such a RET halts the core (R285). -/
theorem State.AtRet.step_eq {s : State} (hrst : s.rst = false) (hrun : s.runState = .running) (h : s.AtRet) :
    step s = .next { s with runState := .halted } := by
  obtain ⟨w, f, hw, hdec, hlit⟩ := h
  rw [step_of_decode_ok hrst hrun hw hdec]
  exact execRet_eq hlit

/-- Settles O46: `step_ends`, case by case; a step at a RET is `State.AtRet.step_eq`. -/
theorem runStateMachine : Obligations.RunStateMachine := by
  intro s t h
  have hret : s.AtRet → t.runState = .halted := fun hret => by
    obtain ⟨hrst, hrun, -⟩ := step_cases h
    rw [← Host.Outcome.next.inj ((hret.step_eq hrst hrun).symm.trans h)]
  obtain ⟨hrun, ⟨hend, rfl⟩ | ⟨hin, hf⟩ | ⟨hin, w, i, hw, hdec, hwell⟩⟩ := step_ends h
  · exact ⟨hrun, iff_of_true rfl (.inl hend), by simp, fun _ => ⟨rfl, rfl, rfl⟩⟩
  · refine ⟨hrun, iff_of_false (by simp [hf.runState]) ?_, fun _ => ⟨hf.cause, hf.slot, hin⟩,
      fun hne => absurd hf.runState hne⟩
    rintro (hend | hat)
    · exact absurd hin (Nat.not_lt.2 hend)
    · exact nomatch hf.runState.symm.trans (hret hat)
  · obtain ⟨hlit, hstate, ⟨hcause, hslot, hinfo⟩, -⟩ := hwell
    refine ⟨hrun, ⟨fun hhalt => .inr ?_, ?_⟩, fun hfault => ?_, fun _ => ⟨hcause, hslot, hinfo⟩⟩
    · have hop : i.opcode = .ret := by
        by_contra hne
        simp [hstate, hne] at hhalt
      obtain ⟨f, rfl⟩ : ∃ f, i = .ret f := ⟨_, eq_make_of_opcode hop⟩
      exact ⟨w, f, hw, hdec, hlit⟩
    · rintro (hend | hat)
      · exact absurd hin (Nat.not_lt.2 hend)
      · exact hret hat
    · rw [hstate] at hfault
      split at hfault <;> cases hfault

end Sys2Proof.Machine

namespace Sys2Proof.Machine

/-! ## A CALL that waits on the host (R160, R318) -/

/-- A running core at a legal word fetches its instruction (R164). -/
theorem fetch_of_decode_ok {s : State} {w : Word} {i : Instr} (hrst : s.rst = false) (hrun : s.runState = .running)
    (hw : s.prog[s.pc.toNat]? = some w) (hd : decode s.obfMask w = .ok i) : fetch s = .instr i := by
  simp [fetch, hrst, hrun, State.decodeAtPc, State.fetchSlot, hw, hd]

/-- Where fetch finds no step, it is reset or the run state that withholds it, not the host (R161, R340). -/
theorem fetch_ne_waitingForHost (s : State) : fetch s ≠ .noStep .waitingForHost := by
  unfold fetch State.decodeAtPc
  repeat' split
  all_goals simp

/-- The arguments of a native call are the `NARGS` registers from `x[1]` up (R280). -/
theorem callArgs_eq {s : State} (hs : s.x.length = s.params.nreg) :
    s.callArgs = (s.x.drop 1).take s.params.nargs := by
  refine List.ext_getElem ?_ fun k hk _ => ?_
  · simp [State.callArgs, hs]
    omega
  · have hk' : k + 1 < s.x.length := by
      simp [State.callArgs] at hk
      omega
    simp [State.callArgs, State.reg, hk']

/-- The request of a CALL whose source operand can be read (R280). -/
theorem callRequest_ok {f : Fields} {s : State} {sa : Word} (hs : s.Built) (hsrc : sourceAddress f s = some sa)
    (hread : s.admitted sa 8 .read = true) :
    callRequest f s = .ok ⟨s.wordAt sa, (s.x.drop 1).take s.params.nargs⟩ := by
  simp [callRequest, sourceValue, resolveSource_ok hs hsrc, memRead_ok hread, callArgs_eq hs.2.1]

/-- No instruction but a CALL waits. -/
theorem exec_ne_fault {i : Instr} (s : State) (hc : i.opcode ≠ .call) (r : Fault) : exec i s ≠ .fault r := by
  obtain ⟨x, hx, -⟩ := exec_commits s hc
  rw [hx]
  cases x with
  | ok p => exact nofun
  | error e => exact nofun

/-- A CALL waits only where its request can be formed and the host has not answered. -/
theorem execCall_waits {f : Fields} {s : State} (h : execCall f s = .fault .waitingForHost) :
    ∃ req, callRequest f s = .ok req ∧ s.hostAnswers = [] := by
  unfold execCall at h
  split at h
  · cases h
  · rename_i req hreq
    refine ⟨req, hreq, ?_⟩
    unfold answerRequest at h
    split at h
    · assumption
    · cases h
    · split at h <;> cases h

/-- Settles O32: the request of `callRequest_ok` is the one presented, and a core that presents one has no step. -/
theorem callWithoutAnswerWaits : Obligations.CallWithoutAnswerWaits := by
  intro f s sa hs hrst hrun hw hf hsrc hread hans t
  have hfetch : fetch s = .instr (.call f) := fetch_of_decode_ok hrst hrun hw (decode_encode _ hf)
  have hpres : s.presentRequest = some t :=
    presentRequest_iff.2 ⟨f, _, hfetch, hans, callRequest_ok hs hsrc hread, rfl⟩
  obtain ⟨hstep, hstep'⟩ := step_presentRequest hpres
  exact ⟨hstep, hpres, hstep'⟩

/-- Settles O33: only an instruction can wait, of the instructions only CALL, and CALL exactly where it presents its
request. -/
theorem callWaitsExactly : Obligations.CallWaitsExactly := by
  refine fun s => ⟨fun h => ?_, fun ⟨t, ht⟩ => (step_presentRequest ht).1⟩
  unfold step at h
  cases hfetch : fetch s with
  | noStep r =>
    simp only [hfetch, Host.Outcome.fault.injEq] at h
    exact absurd (h ▸ hfetch) (fetch_ne_waitingForHost s)
  | halt => simp [hfetch] at h
  | illegal plain => simp [hfetch] at h
  | instr i =>
    simp only [hfetch] at h
    by_cases hc : i.opcode = .call
    · obtain ⟨f, rfl⟩ : ∃ f, i = .call f := ⟨_, eq_make_of_opcode hc⟩
      obtain ⟨req, hreq, hans⟩ := execCall_waits h
      exact ⟨_, presentRequest_iff.2 ⟨f, req, hfetch, hans, hreq, rfl⟩⟩
    · exact absurd h (exec_ne_fault s hc _)

/-- A CALL whose request can be formed does not look at the request already presented: each end overwrites it. -/
theorem execCall_pending {f : Fields} {s : State} {req : NativeRequest} (h : callRequest f s = .ok req)
    (p : Option NativeRequest) : execCall f { s with pending := p } = execCall f s := by
  have hp : callRequest f { s with pending := p } = .ok req := h
  unfold execCall
  rw [h, hp]
  unfold answerRequest
  cases s.hostAnswers with
  | nil => rfl
  | cons a rest => cases a <;> rfl

/-- Everything an answer of the host can do: it is lawful, and becomes the one answer at hand (R318). -/
theorem answerCall_cases {s t : State} {a : HostAnswer} (h : s.answerCall a = some t) :
    a.lawful s = true ∧ t = { s with hostAnswers := [a] } := by
  obtain ⟨hc, ht⟩ := Option.ite_none_right_eq_some.1 h
  simp only [Bool.and_eq_true] at hc
  exact ⟨hc.2, (Option.some.inj ht).symm⟩

/-- Settles O34: after presenting and answering, the state is the answered one but for the pending request, which the
CALL does not look at. -/
theorem callAnsweredLater : Obligations.CallAnsweredLater := by
  intro f s t u a hrst hrun hw hf _ _ hpres hanswer
  obtain ⟨f', req, hfetch', -, hreq, rfl⟩ := presentRequest_iff.1 hpres
  obtain ⟨-, rfl⟩ := answerCall_cases hanswer
  have hdec : decode s.obfMask (encode s.obfMask (.call f)) = .ok (.call f) := decode_encode _ hf
  have hfetch : fetch s = .instr (.call f) := fetch_of_decode_ok hrst hrun hw hdec
  obtain rfl : f = f' := by simpa [hfetch] using hfetch'
  exact Eq.trans (step_of_decode_ok hrst hrun hw hdec) (execCall_pending (s := { s with hostAnswers := [a] }) hreq _)

end Sys2Proof.Machine

namespace Sys2Proof.Machine

/-! ## The start and the end of a run (R161, R162, R164) -/

/-- Settles O43, by `step_of_decode_ok`. -/
theorem stepRunsDecoded : Obligations.StepRunsDecoded := fun _ _ _ hrst hrun hw hd => step_of_decode_ok hrst hrun hw hd

/-- The step of a running core past the last slot is the halt transition (R162). -/
theorem step_of_progLen_le {s : State} (hrst : s.rst = false) (hrun : s.runState = .running)
    (h : s.progLen ≤ s.pc.toNat) : step s = .next s.haltAtEnd := by
  simp [step, fetch, hrst, hrun, State.decodeAtPc, fetchSlot_none.2 h]

/-- Settles O44: an empty program ends at slot 0. -/
theorem haltAtProgramEnd : Obligations.HaltAtProgramEnd := by
  refine ⟨fun s hrst hrun h => step_of_progLen_le hrst hrun h, fun s hrst hrun hprog => ?_⟩
  exact step_of_progLen_le hrst hrun (by simp [State.progLen, hprog])

/-- Everything a write of external memory by the host can do (R43). -/
theorem loadExternal_cases {s t : State} {cells : List Host.Cell} (h : s.loadExternal cells = some t) :
    (∀ c ∈ cells, s.hostMayWrite c.1 = true) ∧ t = { s with mem := Memory.writeCells s.mem cells } := by
  obtain ⟨hc, ht⟩ := Option.ite_none_right_eq_some.1 h
  simp only [Bool.and_eq_true, List.all_eq_true] at hc
  exact ⟨hc.2, (Option.some.inj ht).symm⟩

/-- An instruction is fetched in RUNNING only (R161). -/
theorem fetch_instr_running {s : State} {i : Instr} (h : fetch s = .instr i) : s.runState = .running := by
  unfold fetch at h
  split at h
  · cases h
  · split at h
    · cases h
    · cases h
    · assumption

/-- Settles O45: a step and a presented request start in RUNNING, and each other move is a record update that keeps
`run_state`. -/
theorem terminalStates : Obligations.TerminalStates := by
  intro s hend
  have hrun : s.runState ≠ .running := by
    rintro h
    simp [h] at hend
  have hstep (t : State) : step s ≠ .next t := fun h => by
    obtain ⟨-, h, -⟩ := step_cases h
    exact hrun h
  refine ⟨hstep, fun _ => rfl, rfl, ?_, fun slots t h => ?_, fun cells t h => ?_, fun a t h => ?_⟩
  · refine Option.eq_none_iff_forall_ne_some.2 fun t ht => ?_
    obtain ⟨f, req, hfetch, -⟩ := presentRequest_iff.1 ht
    exact hrun (fetch_instr_running hfetch)
  · obtain ⟨-, -, rfl⟩ := loadProgram_cases h
    rfl
  · obtain ⟨-, rfl⟩ := loadExternal_cases h
    rfl
  · obtain ⟨-, rfl⟩ := answerCall_cases h
    rfl

/-- A word is the low 64 bits of its value, from which the loader and the table's decoder build it. -/
theorem ofNat_low_bits (w : Word) : BitVec.ofNat 64 (w.toNat % 2 ^ 64) = w := by
  rw [Nat.mod_eq_of_lt w.isLt, BitVec.ofNat_toNat, BitVec.setWidth_eq]

/-- The word stored for the next step is the one fetched (R350). -/
theorem fetchSlot_withFetchWord (s : State) (w : Word) :
    (s.withFetchWord 64 w.toNat).fetchSlot = some (unmask s.obfMask w) := by
  have hlen : (s.prog.take s.pc.toNat ++ List.replicate (s.pc.toNat - s.prog.length) 0).length = s.pc.toNat := by
    simp
    omega
  simp only [State.fetchSlot, State.withFetchWord_pc, State.withFetchWord_prog, State.progWithWord, ofNat_low_bits]
  rw [List.append_assoc, List.getElem?_append_right hlen.le, hlen]
  simp

/-- Settles O58: what is stored unmasks to the plain word. -/
theorem storedWordRunsNext : Obligations.StoredWordRunsNext := by
  intro s w i h
  have hdec : decode s.obfMask (unmask s.obfMask w) = .ok i := by rw [decode, unmask_unmask, h]
  refine ⟨step_of_decode_ok rfl rfl (fetchSlot_withFetchWord s w) hdec, ?_⟩
  have hplain : decode Config.obfMask w = .ok i := by rw [decode, unmask, BitVec.xor_zero, h]
  simp only [decodeTableWord, ofNat_low_bits, BitVec.xor_zero, hplain]

end Sys2Proof.Machine

namespace Sys2Proof.Machine

/-! ## The copy that MOV, PUSH and POP share: its effect, and what its rule answers (R200, R202, R210, R220) -/

theorem one_le_size {f : Fields} (hf : f.wf = true) : 1 ≤ f.size := ((Instr.wf_iff (i := .mov f)).1 hf).1

theorem size_le_eight {f : Fields} (hf : f.wf = true) : f.size ≤ 8 := ((Instr.wf_iff (i := .mov f)).1 hf).2

/-- From `s` to `w` the `n` bytes at `sa`, as they were before, were copied to `da`; nothing else changed (R202). -/
structure Copies (s w : State) (sa da : Word) (n : Nat) : Prop where
  stores : Stores s w da.toNat n (fun k => s.byteAt (sa.toNat + k))
  pc : w.pc = s.pc
  zf : w.zf = s.zf
  record : SameRecord s w

theorem copyBytes_copies {s : State} (hs : s.Built) {sa da : Word} {n : Nat} (hr : s.admitted sa n .read = true)
    (hw : s.admitted da n .write = true) : ∃ w, copyBytes s sa da n = .ok w ∧ Copies s w sa da n :=
  ⟨_, copyBytes_ok hr hw, copyBytes_stores hs hw, by simp, by simp, .setBytes s _ _⟩

/-- Where both operands resolve and both accesses are admitted, the rule copies and falls through. -/
theorem copyRule_completes {u : SrcUse} {d : DstUse} (g : State → State) {f : Fields} {s : State} {r : Resolved}
    (hres : resolveBoth u d f s = .ok r) (hs : r.w.Built) (hr : r.w.admitted r.sa f.size .read = true)
    (hw : r.w.admitted r.da f.size .write = true) :
    ∃ w, commit f s (copyRule u d g f s) = .next (advance f (g w) .fall) ∧ Copies r.w w r.sa r.da f.size := by
  obtain ⟨w, hcopy, hcopies⟩ := copyBytes_copies hs hr hw
  exact ⟨w, by simp [copyRule, hres, hcopy], hcopies⟩

/-- Everything the rule can do where it answers. -/
theorem copyRule_cases {u : SrcUse} {d : DstUse} {g : State → State} {f : Fields} {s w : State} {nc : NextControl}
    (h : copyRule u d g f s = .ok (w, nc)) :
    nc = .fall ∧ ∃ r w', resolveBoth u d f s = .ok r ∧ copyBytes r.w r.sa r.da f.size = .ok w' ∧ w = g w' := by
  obtain ⟨r, hres, h⟩ := bind_ok h
  obtain ⟨w', hcopy, h⟩ := bind_ok h
  obtain ⟨rfl, rfl⟩ := Prod.mk.inj (Except.ok.inj h)
  exact ⟨rfl, r, w', hres, hcopy, rfl⟩

/-- The rule raises what the resolver raises. -/
theorem copyRule_error_of_resolveBoth {u : SrcUse} {d : DstUse} {g : State → State} {f : Fields} {s : State}
    {r : Raised} (h : resolveBoth u d f s = .error r) : copyRule u d g f s = .error r := by
  simp [copyRule, h]

/-- A fault of the rule that is no INVALID_DEREFERENCE is one of the resolver. -/
theorem copyRule_error_iff {u : SrcUse} {d : DstUse} {g : State → State} {f : Fields} {s : State} {r : Raised}
    (hr : r.cause ≠ .invalidDereference) : copyRule u d g f s = .error r ↔ resolveBoth u d f s = .error r := by
  refine ⟨fun h => ?_, copyRule_error_of_resolveBoth⟩
  rcases bind_error h with h | ⟨q, -, h⟩
  · exact h
  rcases bind_error h with h | ⟨w, -, h⟩
  · exact absurd (copyBytes_raises h).1 hr
  · exact nomatch h

/-- The rule raises what the copy raises, after the operands have resolved. -/
theorem copyRule_error_of_copyBytes {u : SrcUse} {d : DstUse} {g : State → State} {f : Fields} {s : State}
    {q : Resolved} {r : Raised} (hres : resolveBoth u d f s = .ok q)
    (h : copyBytes q.w q.sa q.da f.size = .error r) : copyRule u d g f s = .error r := by
  simp [copyRule, hres, h]

/-! ## Commit's advance and fault, as the statements speak of them (R190, R192, R306) -/

/-- Commit's advance touches neither registers nor memory. -/
theorem Stores.advance_fall {s w : State} {a n : Nat} {v : Nat → Byte} (h : Stores s w a n v) (f : Fields) :
    Stores s (advance f w .fall) a n v := ⟨h.stored, h.otherBytes, h.otherRegs⟩

theorem SameRecord.advance_fall (f : Fields) (w : State) : SameRecord w (advance f w .fall) :=
  ⟨rfl, rfl, rfl, rfl, rfl, rfl, rfl, rfl, rfl, rfl, rfl, rfl⟩

theorem fallsThrough_advance {f : Fields} {s w : State} (hpc : w.pc = s.pc) (hzf : w.zf = s.zf)
    (hrec : SameRecord s w) : FallsThrough f s (advance f w .fall) :=
  ⟨by simp [nextPc, hpc], hzf, hrec.trans (.advance_fall f w)⟩

theorem takesFault_of_error {f : Fields} {s : State} {x : Except Raised (State × NextControl)} {cause : FaultCause}
    {info : Word} (h : x = .error ⟨cause, info⟩) : TakesFault (commit f s x) s cause info := by
  rw [h]
  rfl

/-- A copying instruction takes a fault exactly where its rule raises it: one that falls through moves `pc`. -/
theorem copyRule_takesFault_iff {u : SrcUse} {d : DstUse} {g : State → State} (hg : ∀ w, (g w).pc = w.pc) {f : Fields}
    {s : State} {cause : FaultCause} {info : Word} :
    TakesFault (commit f s (copyRule u d g f s)) s cause info ↔ copyRule u d g f s = .error ⟨cause, info⟩ := by
  refine ⟨fun h => ?_, takesFault_of_error⟩
  rcases commit_cases h with ⟨⟨c, i⟩, hx, ht⟩ | ⟨w, nc, hx, ht⟩
  · have hcause : cause = c := congrArg State.faultCause ht
    have hinfo : info = i := congrArg State.faultInfo ht
    rw [hx, hcause, hinfo]
  · obtain ⟨rfl, r, w', hres, hcopy, rfl⟩ := copyRule_cases hx
    obtain ⟨-, -, hw'⟩ := copyBytes_cases hcopy
    have hpc : (g w').pc = s.pc := by rw [hg, hw', State.setBytes_pc, (resolveBoth_working hres).pc]
    have hmove : s.pc = s.pc + if f.imm then 2#64 else 1#64 := hpc ▸ congrArg State.pc ht
    cases hi : f.imm <;> simp [hi] at hmove

/-- A fault other than INVALID_DEREFERENCE is taken exactly where the resolver raises it. -/
theorem copyRule_takesFault_iff_resolveBoth {u : SrcUse} {d : DstUse} {g : State → State}
    (hg : ∀ w, (g w).pc = w.pc) {f : Fields} {s : State} {cause : FaultCause} {info : Word}
    (hcause : cause ≠ .invalidDereference) : TakesFault (commit f s (copyRule u d g f s)) s cause info ↔
      resolveBoth u d f s = .error ⟨cause, info⟩ :=
  (copyRule_takesFault_iff hg).trans (copyRule_error_iff hcause)

/-! ## MOV and LEA (R200 to R202, R230, R231) -/

/-- Settles O14: both operands resolve to their addresses (`resolveBoth_reg_ok`), and the copy is the shared one. -/
theorem movCopiesBytes : Obligations.MovCopiesBytes := by
  intro f s sa da _ hs hsrc hdst hr hw
  obtain ⟨w, hexec, hcopy⟩ := copyRule_completes id (resolveBoth_reg_ok hs hsrc hdst) hs hr hw
  exact ⟨_, hexec, hcopy.stores.advance_fall f, fallsThrough_advance hcopy.pc hcopy.zf hcopy.record⟩

/-- A register's bytes after a store of its low bytes: the others keep their value (R201). -/
theorem Stores.byteOf_reg {s t : State} {i n : Nat} {v : Nat → Byte} (hparams : t.params = s.params)
    (hi : i < s.params.nreg) (h : Stores s t (s.params.regBase + 8 * i) n v) {k : Nat} (hk : k < 8) :
    byteOf (t.reg i) k = if k < n then v k else byteOf (s.reg i) k := by
  have hbyte : t.byteAt (s.params.regBase + 8 * i + k) = byteOf (t.reg i) k := by
    rw [← byteAt_reg t (by rw [hparams]; exact hi) hk, hparams]
  rw [← hbyte]
  split
  · exact h.stored k ‹_›
  · rw [h.otherBytes _ (by omega), byteAt_reg s hi hk]

/-- Settles O15: MOV's effect, read byte by byte off the destination register. -/
theorem movPartialWidth : Obligations.MovPartialWidth := by
  intro f s sa da hf _ hs hsrc hdst hr hw
  obtain ⟨t, hexec, hstores, hfall⟩ := movCopiesBytes f s sa da hf hs hsrc hdst hr hw
  refine ⟨t, hexec, hstores.otherBytes, fun r hreg hda k hk => ?_⟩
  rw [hda, regAddr_toNat hs.1 hreg] at hstores
  exact hstores.byteOf_reg hfall.record.params hreg hk

/-- Settles O24: the resolver hands LEA the source's address, which `memWrite_stores` stores whole. -/
theorem leaWritesSourceAddress : Obligations.LeaWritesSourceAddress := by
  intro f s sa da hs hsrc hdst hw
  have hst := (memWrite_stores hs sa hw).advance_fall f
  refine ⟨_, ?_, hst, hst.wordAt_eq sa fun _ _ => rfl, fallsThrough_advance (by simp) (by simp) (.setBytes s _ _)⟩
  simp [exec, execLea, resolveBoth_reg_ok hs hsrc hdst, memWrite_ok sa hw]

/-! ## The stack (R40, R62, R66) -/

theorem State.Built.setSp {s : State} (hs : s.Built) (v : Word) : (s.setSp v).Built := hs.congr rfl (by simp) rfl

theorem State.Built.sp_lt_nreg {s : State} (hs : s.Built) : s.params.sp < s.params.nreg := hs.2.1 ▸ hs.sp_lt

/-- An access that begins in the stack is admitted exactly where it ends there. -/
theorem admitted_stack_iff {s : State} (hs : s.Built) {a : Word} {n : Nat} (hn : 1 ≤ n) (k : AccessKind)
    (h1 : s.params.stackBase ≤ a.toNat) (h2 : a.toNat < s.params.stackEnd) :
    s.admitted a n k = true ↔ a.toNat + n ≤ s.params.stackEnd := by
  rw [admitted_iff hs a hn k]
  obtain ⟨⟨-, -, hreg, hstack, hprog, hext⟩, -, hlen⟩ := hs
  simp only [Params.stackEnd, Config.addressSpace] at *
  omega

/-- `SP` decremented by at most its value does not wrap. -/
theorem toNat_sub_ofNat {v : Word} {n : Nat} (h : n ≤ v.toNat) : (v - BitVec.ofNat 64 n).toNat = v.toNat - n := by
  have := v.isLt
  rw [BitVec.toNat_sub_of_le (by rw [BitVec.le_def, BitVec.toNat_ofNat]; omega), BitVec.toNat_ofNat]
  omega

/-- The new top of PUSH's stack-range check (R212) is a range of the stack. -/
theorem admitted_newTop {s : State} (hs : s.Built) {n : Nat} (hn : 1 ≤ n) (hlo : s.params.stackBase + n ≤ s.spReg.toNat)
    (hhi : s.spReg.toNat ≤ s.params.stackEnd) (k : AccessKind) :
    s.admitted (s.spReg - BitVec.ofNat 64 n) n k = true := by
  have htop : (s.spReg - BitVec.ofNat 64 n).toNat = s.spReg.toNat - n := toNat_sub_ofNat (by omega)
  exact (admitted_stack_iff hs hn k (by omega) (by omega)).2 (by omega)

@[simp] theorem admitted_setSp (s : State) (v a : Word) (n : Nat) (k : AccessKind) :
    (s.setSp v).admitted a n k = s.admitted a n k := admitted_congr rfl rfl rfl a n k

/-- A byte outside a register's window does not change with the register. -/
theorem byteAt_setReg_of_outside {s : State} {i b : Nat} (v : Word)
    (hb : b < s.params.regBase + 8 * i ∨ s.params.regBase + 8 * i + 8 ≤ b) : (s.setReg i v).byteAt b = s.byteAt b := by
  by_cases hr : s.inRegisters b = true
  · have hwin := (inRegisters_iff s b).1 hr
    have hne : s.regIndex b ≠ i := by simp only [State.regIndex]; omega
    have hr' : (s.setReg i v).inRegisters b = true := hr
    have hreg : (s.setReg i v).reg (s.regIndex b) = s.reg (s.regIndex b) := State.reg_setReg_ne s v hne
    simp only [State.byteAt, hr, hr', if_true]
    exact congrArg (byteOf · (s.regByte b)) hreg
  · have hr' : ¬ (s.setReg i v).inRegisters b = true := hr
    have hp : (s.setReg i v).inProgram b = s.inProgram b := rfl
    simp [State.byteAt, hr, hr', hp]

/-- A store into the stack changes no register. -/
theorem Stores.reg_of_stack {s t : State} {a n i : Nat} {v : Nat → Byte} (h : Stores s t a n v) (hs : s.Built)
    (ha : s.params.stackBase ≤ a) (hi : i < s.params.nreg) : t.reg i = s.reg i := by
  obtain ⟨⟨-, -, hreg, -⟩, -⟩ := hs
  exact h.otherRegs i hi (by omega)

/-! ## PUSH (R210 to R214) -/

/-- Settles O16: `resolveBoth_push_ok`, then the shared copy in the state with `SP` decremented. -/
theorem pushCopiesToNewTop : Obligations.PushCopiesToNewTop := by
  intro f s w top sa da hf hs hlo hhi htop hw hsrc hda hptr hread hwrite
  subst htop hw
  have htop : (s.spReg - BitVec.ofNat 64 f.size).toNat = s.spReg.toNat - f.size := toNat_sub_ofNat (by omega)
  have hwadm : (s.setSp (s.spReg - BitVec.ofNat 64 f.size)).admitted da f.size .write = true := by
    cases hd : f.dm.derefsDestination with
    | true => exact hwrite hd
    | false => simp [hda, hd, admitted_newTop hs (one_le_size hf) hlo hhi .write]
  subst hda
  obtain ⟨t, hexec, hcopy⟩ := copyRule_completes id (resolveBoth_push_ok hs hlo hhi hsrc hptr) (hs.setSp _) hread hwadm
  have hrec : SameRecord s t := (SameRecord.setReg s _ _).trans hcopy.record
  refine ⟨_, hexec, hcopy.stores.advance_fall f, fun hd => ?_, fallsThrough_advance hcopy.pc hcopy.zf hrec⟩
  have hreg : t.reg s.params.sp = (s.setSp (s.spReg - BitVec.ofNat 64 f.size)).reg s.params.sp := by
    refine hcopy.stores.reg_of_stack (hs.setSp _) ?_ hs.sp_lt_nreg
    simp only [State.setSp_params, hd, Bool.false_eq_true, if_false, htop]
    omega
  calc (advance f t .fall).spReg = t.reg s.params.sp := by rw [← hrec.params]; rfl
    _ = (s.setSp (s.spReg - BitVec.ofNat 64 f.size)).spReg := hreg
    _ = s.spReg - BitVec.ofNat 64 f.size := State.spReg_setSp hs _

/-- The source of `PUSH SP` and `PUSH [SP]` once `SP` is decremented: `SP`'s own window, and the new top. -/
theorem sourceAddress_sp {f : Fields} {s : State} (hs : s.Built) (himm : f.imm = false) (hrs : f.rs.toNat = s.params.sp)
    (top : Word) : sourceAddress f (s.setSp top) =
      some (if f.dm.derefsSource then top else s.regAddr s.params.sp) := by
  have hspw : (s.setSp top).reg s.params.sp = top := State.spReg_setSp hs top
  simp only [sourceAddress, himm, hrs, State.setSp_params, hs.sp_lt_nreg, hspw, if_true, Bool.false_eq_true, if_false]
  rfl

/-- Settles O17: PUSH's effect, where the source is `SP`'s own window, or the new top itself. -/
theorem pushSpPushesDecremented : Obligations.PushSpPushesDecremented := by
  intro f s top hf hs hlo hhi himm hrs hdm htop
  have hsrc := sourceAddress_sp hs himm hrs top
  have hread : (s.setSp top).admitted (if f.dm.derefsSource then top else s.regAddr s.params.sp) f.size .read =
      true := by
    cases f.dm.derefsSource with
    | true => simp [htop, admitted_newTop hs (one_le_size hf) hlo hhi .read]
    | false => exact admitted_regAddr (hs.setSp top).1 hs.sp_lt_nreg (size_le_eight hf) .read
  obtain ⟨t, hexec, hstores, hsp, -⟩ := pushCopiesToNewTop f s _ top _ top hf hs hlo hhi htop rfl hsrc (by simp [hdm])
    (by simp [hdm]) hread (by simp [hdm])
  refine ⟨t, hexec, hsp hdm, fun k hk => ?_⟩
  rw [hstores.stored k hk]
  cases f.dm.derefsSource with
  | true =>
    have htopNat : top.toNat = s.spReg.toNat - f.size := by rw [htop]; exact toNat_sub_ofNat (by omega)
    have hsp := hs.sp_lt_nreg
    obtain ⟨⟨-, -, hwindow, -⟩, -⟩ := hs
    show (s.setSp top).byteAt (top.toNat + k) = s.byteAt (top.toNat + k)
    exact byteAt_setReg_of_outside top (.inr (by omega))
  | false =>
    have hbyte := byteAt_reg (s.setSp top) hs.sp_lt_nreg (hk.trans_le (size_le_eight hf))
    have hspw : (s.setSp top).reg s.params.sp = top := State.spReg_setSp hs top
    rw [hspw] at hbyte
    simpa [regAddr_toNat hs.1 hs.sp_lt_nreg] using hbyte

theorem checkPush_error_iff {w : State} {n : Nat} : checkPush w n = .error ⟨.stackOverflow, w.spReg⟩ ↔
    w.spReg.toNat < w.params.stackBase + n ∨ w.params.stackEnd < w.spReg.toNat := by
  unfold checkPush
  split <;> simp [*]

theorem checkPush_ok {w : State} {n : Nat} (hlo : w.params.stackBase + n ≤ w.spReg.toNat)
    (hhi : w.spReg.toNat ≤ w.params.stackEnd) : checkPush w n = .ok () := if_neg (by omega)

/-- The checks of a source operand (R168, R171) pass where its literal is present or its index names a register. -/
theorem checkRs_ok {f : Fields} {s : State} (hrs : f.imm = false → f.rs.toNat < s.params.nreg) :
    checkRs .regOrImm f s = .ok () := by
  cases hi : f.imm with
  | true => simp [checkRs, hi]
  | false => simp [checkRs, hi, checkIndex_ok.2 (hrs hi)]

/-- Settles O18: of the resolver's faults, only the stack-range check's is STACK_OVERFLOW. -/
theorem pushOverflowExactly : Obligations.PushOverflowExactly := by
  intro f s hlit hrs
  refine (copyRule_takesFault_iff_resolveBoth (g := id) (fun _ => rfl) (by simp)).trans ⟨fun h => ?_, fun h => ?_⟩
  · rcases resolveBoth_raises h with ⟨-, -, h⟩ | ⟨-, -, h⟩ | ⟨-, -, -, h⟩ | ⟨-, -, h⟩ | ⟨-, hout, -⟩ | ⟨h, -⟩
    case inr.inr.inr.inr.inl => exact hout
    all_goals cases h
  · have hsrc : resolveSrc .regOrImm f s = .ok (if f.imm then s.slotAddr (s.pc + 1#64) else s.regAddr f.rs.toNat) := rfl
    simp [resolveBoth, checkTruncated_ok.2 hlit, checkRd, checkRs_ok hrs, hsrc, resolveDst, checkPush_error_iff.2 h]

/-- With `SP` in range and a source that has an address, what is left of PUSH's resolution is the pointer at the new top
(R174, R176, R214). -/
theorem resolveBoth_push_eq {f : Fields} {s w : State} {top sa : Word} (hs : s.Built)
    (hlo : s.params.stackBase + f.size ≤ s.spReg.toNat) (hhi : s.spReg.toNat ≤ s.params.stackEnd)
    (htop : top = s.spReg - BitVec.ofNat 64 f.size) (hw : w = s.setSp top) (hsrc : sourceAddress f w = some sa) :
    resolveBoth .regOrImm .newTop f s = (do let da ← deref f.dm.derefsDestination w top; pure ⟨w, sa, da⟩) := by
  have hwb : w.Built := hw ▸ hs.setSp top
  obtain ⟨hplace, hderef⟩ := resolveSrc_deref_ok hwb hsrc
  subst htop hw
  obtain ⟨htrunc, hrs⟩ := checks_source_ok hsrc
  have htrunc' : checkTruncated f s = .ok () := htrunc
  have hrs' : checkRs .regOrImm f s = .ok () := hrs
  have hplace' : resolveSrc .regOrImm f s = .ok _ := hplace
  simp only [resolveBoth, htrunc', checkRd, hrs', hplace', resolveDst, checkPush_ok hlo hhi, ok_bind, pure_eq_ok,
    hderef]

theorem deref_error {s : State} {a : Word} (h : s.admitted a 8 .read = false) :
    deref true s a = .error ⟨.invalidDereference, a⟩ := by simp [deref, memRead_error h]

/-- A pointer read that begins in the stack is not admitted where it runs past `STACK_END` (R66, R68). -/
theorem not_admitted_past_stackEnd {s : State} (hs : s.Built) {a : Word} (h1 : s.params.stackBase ≤ a.toNat)
    (h2 : a.toNat < s.params.stackEnd) (hend : s.params.stackEnd < a.toNat + 8) : s.admitted a 8 .read = false := by
  rw [Bool.eq_false_iff, Ne, admitted_stack_iff hs (by decide) .read h1 h2]
  omega

/-- The accesses of PUSH fault in the order of R302: the pointer at the new top, then the copy's two accesses. -/
theorem execPush_faultOrder {f : Fields} {s w : State} {top sa : Word} (hf : f.wf = true) (hs : s.Built)
    (hlo : s.params.stackBase + f.size ≤ s.spReg.toNat) (hhi : s.spReg.toNat ≤ s.params.stackEnd)
    (htop : top = s.spReg - BitVec.ofNat 64 f.size) (hw : w = s.setSp top) (hsrc : sourceAddress f w = some sa) :
    (f.dm.derefsDestination = true → s.params.stackEnd < top.toNat + 8 →
      TakesFault (exec (.push f) s) s .invalidDereference top) ∧
    (f.dm.derefsDestination = false ∨ top.toNat + 8 ≤ s.params.stackEnd →
      (w.admitted sa f.size .read = false → TakesFault (exec (.push f) s) s .invalidDereference sa) ∧
      (w.admitted sa f.size .read = true → f.dm.derefsDestination = true →
        w.admitted (w.wordAt top) f.size .write = false →
        TakesFault (exec (.push f) s) s .invalidDereference (w.wordAt top))) := by
  have hsize := one_le_size hf
  have htopNat : top.toNat = s.spReg.toNat - f.size := by rw [htop]; exact toNat_sub_ofNat (by omega)
  have hres := resolveBoth_push_eq hs hlo hhi htop hw hsrc
  have hadm (n : Nat) : w.admitted top n .read = s.admitted top n .read := by rw [hw, admitted_setSp]
  refine ⟨fun hdm hend => takesFault_of_error ?_, fun hptr => ?_⟩
  · have hout : w.admitted top 8 .read = false := by
      rw [hadm]
      exact not_admitted_past_stackEnd hs (by omega) (by omega) hend
    exact copyRule_error_of_resolveBoth (by rw [hres, hdm, deref_error hout]; rfl)
  · have hin : f.dm.derefsDestination = true → w.admitted top 8 .read = true := fun hdm => by
      rw [hadm, admitted_stack_iff hs (by decide) .read (by omega) (by omega)]
      exact hptr.resolve_left (by simp [hdm])
    rw [deref_ok hin] at hres
    refine ⟨fun hr => takesFault_of_error ?_, fun hr hdm hwr => takesFault_of_error ?_⟩
    · exact copyRule_error_of_copyBytes hres (copyBytes_error_read hr)
    · rw [hdm] at hres
      exact copyRule_error_of_copyBytes hres (copyBytes_error_write hr hwr)

/-! ## POP (R220 to R224) -/

theorem checkPop_error_iff {w : State} {n : Nat} : checkPop w n = .error ⟨.stackUnderflow, w.spReg⟩ ↔
    w.spReg.toNat < w.params.stackBase ∨ w.params.stackEnd < w.spReg.toNat + n := by
  unfold checkPop
  split <;> simp [*]

theorem checkPop_ok {w : State} {n : Nat} (hlo : w.params.stackBase ≤ w.spReg.toNat)
    (hhi : w.spReg.toNat + n ≤ w.params.stackEnd) : checkPop w n = .ok () := if_neg (by omega)

/-- POP's fault is STACK_UNDERFLOW exactly where its stack-range check fails, for every size. -/
theorem execPop_underflow_iff {f : Fields} {s : State} (hlit : literalPresent f s = true)
    (hrd : f.rd.toNat < s.params.nreg) : TakesFault (exec (.pop f) s) s .stackUnderflow s.spReg ↔
      s.spReg.toNat < s.params.stackBase ∨ s.params.stackEnd < s.spReg.toNat + f.size := by
  refine (copyRule_takesFault_iff_resolveBoth (g := popSp f) (fun _ => rfl) (by simp)).trans ⟨fun h => ?_, fun h => ?_⟩
  · rcases resolveBoth_raises h with ⟨-, -, h⟩ | ⟨-, -, h⟩ | ⟨-, -, -, h⟩ | ⟨-, hout, -⟩ | ⟨-, -, h⟩ | ⟨h, -⟩
    case inr.inr.inr.inl => exact hout
    all_goals cases h
  · have hindex : checkRd .reg f s = .ok () := checkIndex_ok.2 hrd
    simp [resolveBoth, checkTruncated_ok.2 hlit, hindex, checkRs, resolveSrc, checkPop_error_iff.2 h]

/-- Settles O21: `execPop_underflow_iff`; with `SP` at `STACK_END`, any size is past the end. -/
theorem popUnderflowExactly : Obligations.PopUnderflowExactly := by
  intro f s hlit hrd
  refine ⟨execPop_underflow_iff hlit hrd, fun hf hend => (execPop_underflow_iff hlit hrd).2 (.inr ?_)⟩
  have := one_le_size hf
  omega

/-- With `SP` in range and a destination that has an address, what is left of POP's resolution is the pointer at the
stack top (R172, R176, R224). -/
theorem resolveBoth_pop_eq {f : Fields} {s : State} {da : Word} (hs : s.Built) (hlit : literalPresent f s = true)
    (hlo : s.params.stackBase ≤ s.spReg.toNat) (hhi : s.spReg.toNat + f.size ≤ s.params.stackEnd)
    (hdst : destinationAddress f s = some da) : resolveBoth .stackTop .reg f s =
      (do let sa ← deref f.dm.derefsSource s s.spReg; pure ⟨s, sa, da⟩) := by
  obtain ⟨hrd, rfl⟩ := destinationAddress_some hdst
  have hindex : checkRd .reg f s = .ok () := checkIndex_ok.2 hrd
  simp only [resolveBoth, checkTruncated_ok.2 hlit, hindex, checkRs, ok_bind, resolveSrc, checkPop_ok hlo hhi,
    pure_eq_ok, resolveDst, deref_reg hs.1 hrd]

/-- The accesses of POP fault in the order of R302: the pointer at the stack top, then the copy's two accesses. -/
theorem execPop_faultOrder {f : Fields} {s : State} {sa da : Word} (hf : f.wf = true) (hs : s.Built)
    (hlit : literalPresent f s = true) (hlo : s.params.stackBase ≤ s.spReg.toNat)
    (hhi : s.spReg.toNat + f.size ≤ s.params.stackEnd) (hdst : destinationAddress f s = some da)
    (hsa : sa = (if f.dm.derefsSource then s.wordAt s.spReg else s.spReg)) :
    (f.dm.derefsSource = true → s.params.stackEnd < s.spReg.toNat + 8 →
      TakesFault (exec (.pop f) s) s .invalidDereference s.spReg) ∧
    (f.dm.derefsSource = false ∨ s.spReg.toNat + 8 ≤ s.params.stackEnd →
      (f.dm.derefsSource = true → s.admitted sa f.size .read = false →
        TakesFault (exec (.pop f) s) s .invalidDereference sa) ∧
      (s.admitted sa f.size .read = true → s.admitted da f.size .write = false →
        TakesFault (exec (.pop f) s) s .invalidDereference da)) := by
  have hsize := one_le_size hf
  have hres := resolveBoth_pop_eq hs hlit hlo hhi hdst
  refine ⟨fun hdm hend => takesFault_of_error ?_, fun hptr => ?_⟩
  · have hout : s.admitted s.spReg 8 .read = false := not_admitted_past_stackEnd hs hlo (by omega) hend
    exact copyRule_error_of_resolveBoth (by rw [hres, hdm, deref_error hout]; rfl)
  · have hin : f.dm.derefsSource = true → s.admitted s.spReg 8 .read = true := fun hdm =>
      (admitted_stack_iff hs (by decide) .read hlo (by omega)).2 (hptr.resolve_left (by simp [hdm]))
    rw [deref_ok hin, ← hsa] at hres
    exact ⟨fun _ hr => takesFault_of_error (copyRule_error_of_copyBytes hres (copyBytes_error_read hr)),
      fun hr hw => takesFault_of_error (copyRule_error_of_copyBytes hres (copyBytes_error_write hr hw))⟩

/-- Settles O22: `execPush_faultOrder` and `execPop_faultOrder`. -/
theorem stackCopyFaultOrder : Obligations.StackCopyFaultOrder :=
  ⟨fun _ _ _ _ _ => execPush_faultOrder, fun _ _ _ _ => execPop_faultOrder⟩

/-- A POP that completes: the copy from the top, then the increment of `SP` in the state it leaves. -/
theorem execPop_completes {f : Fields} {s : State} {sa da : Word} (hf : f.wf = true) (hs : s.Built)
    (hlit : literalPresent f s = true) (hlo : s.params.stackBase ≤ s.spReg.toNat)
    (hhi : s.spReg.toNat + f.size ≤ s.params.stackEnd)
    (hsa : sa = (if f.dm.derefsSource then s.wordAt s.spReg else s.spReg))
    (hptr : f.dm.derefsSource = true → s.admitted s.spReg 8 .read = true) (hdst : destinationAddress f s = some da)
    (hread : f.dm.derefsSource = true → s.admitted sa f.size .read = true)
    (hwrite : s.admitted da f.size .write = true) :
    ∃ w, exec (.pop f) s = .next (advance f (popSp f w) .fall) ∧ Copies s w sa da f.size := by
  have hradm : s.admitted sa f.size .read = true := by
    cases hd : f.dm.derefsSource with
    | true => exact hread hd
    | false =>
      have hsize := one_le_size hf
      rw [hsa, hd]
      exact (admitted_stack_iff hs hsize .read hlo (by omega)).2 hhi
  subst hsa
  exact copyRule_completes (popSp f) (resolveBoth_pop_ok hs.1 hlit hlo hhi hptr hdst) hs hradm hwrite

/-- The effect of a copy, byte by byte. -/
theorem Copies.byteAt_eq {s w : State} {sa da : Word} {n : Nat} (h : Copies s w sa da n) (b : Nat) :
    w.byteAt b = copiedByte s sa da n b := by
  unfold copiedByte
  split
  · rename_i hin
    have hb : da.toNat + (b - da.toNat) = b := by omega
    rw [← h.stores.stored (b - da.toNat) (by omega), hb]
  · exact h.stores.otherBytes b (by omega)

theorem Copies.built {s w : State} {sa da : Word} {n : Nat} (h : Copies s w sa da n) (hs : s.Built) : w.Built :=
  hs.congr h.record.params h.record.regCount h.record.prog

/-- `SP` after a copy is the word of its window's copied bytes. -/
theorem Copies.spReg_eq {s w : State} {sa da : Word} {n : Nat} (h : Copies s w sa da n) (hs : s.Built) :
    w.spReg = BitVec.ofNat 64 (leValue ((List.range 8).map fun k =>
      copiedByte s sa da n ((s.regAddr s.params.sp).toNat + k))) := by
  have haddr : w.regAddr s.params.sp = s.regAddr s.params.sp := by simp [State.regAddr, h.record.params]
  calc w.spReg = w.reg s.params.sp := by rw [State.spReg, h.record.params]
    _ = w.wordAt (s.regAddr s.params.sp) := by
      rw [← haddr, wordAt_regAddr (h.built hs).1 (by rw [h.record.params]; exact hs.sp_lt_nreg)]
    _ = _ := by simp only [State.wordAt, h.byteAt_eq]

theorem popSp_spReg (f : Fields) {w : State} (hw : w.Built) : (popSp f w).spReg = w.spReg + BitVec.ofNat 64 f.size :=
  State.spReg_setSp hw _

theorem popSp_fallsThrough {f : Fields} {s w : State} {sa da : Word} (h : Copies s w sa da f.size) :
    FallsThrough f s (advance f (popSp f w) .fall) :=
  fallsThrough_advance h.pc h.zf (h.record.trans (.setReg w _ _))

/-- Settles O19: `execPop_completes`; the increment changes `SP`'s window only. -/
theorem popCopiesFromTop : Obligations.PopCopiesFromTop := by
  intro f s sa da hf hs hlit hlo hhi hsa hptr hdst hread hwrite
  obtain ⟨w, hexec, hcopy⟩ := execPop_completes hf hs hlit hlo hhi hsa hptr hdst hread hwrite
  refine ⟨_, hexec, fun b hb => ?_, ?_, popSp_fallsThrough hcopy⟩
  · rw [regAddr_toNat hs.1 hs.sp_lt_nreg] at hb
    rw [← hcopy.byteAt_eq]
    exact byteAt_setReg_of_outside (s := w) (i := w.params.sp) _ (by rw [hcopy.record.params]; exact hb)
  · rw [← hcopy.spReg_eq hs]
    exact popSp_spReg f (hcopy.built hs)

/-- Settles O20: POP's effect on `SP`, where the copy goes to `SP`'s own window. -/
theorem popSpAddsAfterWrite : Obligations.PopSpAddsAfterWrite := by
  intro f s hf hs hlit hlo hhi hrd hdm
  have hdst : destinationAddress f s = some (s.regAddr s.params.sp) := by
    simp [destinationAddress, hrd, hdm, DerefMode.derefsDestination, -Params.sp, hs.sp_lt_nreg]
  have hsrcbit : f.dm.derefsSource = false := by rw [hdm]; rfl
  obtain ⟨w, hexec, hcopy⟩ := execPop_completes (sa := s.spReg) hf hs hlit hlo hhi (by simp [hsrcbit])
    (by simp [hsrcbit]) hdst (by simp [hsrcbit])
    (admitted_regAddr hs.1 hs.sp_lt_nreg (size_le_eight hf) .write)
  have hstores := hcopy.stores
  rw [regAddr_toNat hs.1 hs.sp_lt_nreg] at hstores
  have hbytes (k : Nat) (hk : k < 8) : byteOf w.spReg k =
      if k < f.size then s.byteAt (s.spReg.toNat + k) else byteOf s.spReg k := by
    rw [State.spReg, hcopy.record.params]
    exact hstores.byteOf_reg hcopy.record.params hs.sp_lt_nreg hk
  have hsp := popSp_spReg f (hcopy.built hs)
  refine ⟨_, w.spReg, hexec, hbytes, hsp, fun h8 => ?_⟩
  have hword : w.spReg = s.wordAt s.spReg := word_ext fun k hk => by
    rw [hbytes k hk, if_pos (by omega), State.wordAt, byteOf_leWord _ hk]
  rw [h8, hword] at hsp
  exact hsp

/-! ## PUSH, then POP (90_conflicts.md C3) -/

/-- PUSH of a register other than `SP`, whole: the register's value stands at the new top, and only `SP` changed among
the registers. -/
theorem execPush_register {s : State} {a d : BitVec 4} {top : Word} (hs : s.Built) (ha : a.toNat < s.params.sp)
    (hlo : s.params.stackBase + 8 ≤ s.spReg.toNat) (hhi : s.spReg.toNat ≤ s.params.stackEnd)
    (htop : top = s.spReg - BitVec.ofNat 64 8) :
    ∃ t, exec (.push ⟨a, d, .none, false, 8⟩) s = .next t ∧ t.wordAt top = s.reg a.toNat ∧ t.spReg = top ∧
      (∀ i, i < s.params.sp → t.reg i = s.reg i) ∧ t.pc = s.pc + 1 ∧ t.zf = s.zf ∧ SameRecord s t := by
  have hareg : a.toNat < s.params.nreg := ha.trans hs.sp_lt_nreg
  have hsrc : sourceAddress ⟨a, d, .none, false, 8⟩ (s.setSp top) = some (s.regAddr a.toNat) := by
    simp [sourceAddress, hareg, DerefMode.derefsSource, State.regAddr]
  have hread : (s.setSp top).admitted (s.regAddr a.toNat) 8 .read = true := by
    rw [admitted_setSp]
    exact admitted_regAddr hs.1 hareg (Nat.le_refl 8) .read
  obtain ⟨t, hexec, hstores, hsp, hfall⟩ := pushCopiesToNewTop ⟨a, d, .none, false, 8⟩ s _ top _ top rfl hs hlo hhi
    htop rfl hsrc rfl nofun hread nofun
  have hkeep (i : Nat) (hi : i < s.params.sp) : (s.setSp top).reg i = s.reg i :=
    State.reg_setReg_ne s top (Nat.ne_of_lt hi)
  have htopNat : top.toNat = s.spReg.toNat - 8 := by rw [htop]; exact toNat_sub_ofNat (by omega)
  refine ⟨t, hexec, hstores.wordAt_eq _ fun k hk => ?_, hsp rfl, fun i hi => ?_, hfall.pc, hfall.zf, hfall.record⟩
  · rw [regAddr_toNat hs.1 hareg, ← hkeep _ ha]
    exact byteAt_reg (s.setSp top) hareg hk
  · rw [hstores.reg_of_stack (hs.setSp top) (by rw [State.setSp_params]; omega) (hi.trans hs.sp_lt_nreg), hkeep i hi]

/-- POP to a register other than `SP`, whole: the word at the top goes to the register, and `SP` moves up. -/
theorem execPop_register {s : State} {b d : BitVec 4} (hs : s.Built) (hb : b.toNat < s.params.sp)
    (hlo : s.params.stackBase ≤ s.spReg.toNat) (hhi : s.spReg.toNat + 8 ≤ s.params.stackEnd) :
    ∃ t, exec (.pop ⟨d, b, .none, false, 8⟩) s = .next t ∧ t.reg b.toNat = s.wordAt s.spReg ∧ t.spReg = s.spReg + 8 ∧
      (∀ i, i < s.params.sp → i ≠ b.toNat → t.reg i = s.reg i) ∧ t.pc = s.pc + 1 ∧ t.zf = s.zf ∧ SameRecord s t := by
  have hbreg : b.toNat < s.params.nreg := hb.trans hs.sp_lt_nreg
  have hdst : destinationAddress ⟨d, b, .none, false, 8⟩ s = some (s.regAddr b.toNat) := by
    simp [destinationAddress, hbreg, DerefMode.derefsDestination]
  obtain ⟨w, hexec, hcopy⟩ := execPop_completes (sa := s.spReg) (f := ⟨d, b, .none, false, 8⟩) rfl hs
    (by simp [literalPresent]) hlo hhi rfl nofun hdst nofun (admitted_regAddr hs.1 hbreg (Nat.le_refl 8) .write)
  have hfall := popSp_fallsThrough hcopy
  have hstores : Stores s w (s.params.regBase + 8 * b.toNat) 8 fun k => s.byteAt (s.spReg.toNat + k) := by
    rw [← regAddr_toNat hs.1 hbreg]
    exact hcopy.stores
  have hkeep (i : Nat) (hi : i < s.params.sp) : (popSp ⟨d, b, .none, false, 8⟩ w).reg i = w.reg i :=
    State.reg_setReg_ne w _ (by rw [hcopy.record.params]; exact Nat.ne_of_lt hi)
  have hother (i : Nat) (hi : i < s.params.nreg) (hne : i ≠ b.toNat) : w.reg i = s.reg i :=
    hstores.otherRegs i hi (by omega)
  have hword : w.reg b.toNat = s.wordAt s.spReg := word_ext fun k hk => by
    rw [hstores.byteOf_reg hcopy.record.params hbreg hk, if_pos hk, State.wordAt, byteOf_leWord _ hk]
  have hsp : w.spReg = s.spReg := by
    rw [State.spReg, hcopy.record.params]
    exact hother _ hs.sp_lt_nreg (Nat.ne_of_gt hb)
  refine ⟨_, hexec, (hkeep _ hb).trans hword, ?_, fun i hi hne => ?_, hfall.pc, hfall.zf, hfall.record⟩
  · exact (popSp_spReg _ (hcopy.built hs)).trans (by rw [hsp]; rfl)
  · exact (hkeep i hi).trans (hother i (hi.trans hs.sp_lt_nreg) hne)

/-- Settles O23: POP takes from the top what PUSH put there, and moves `SP` back. -/
theorem pushThenPop : Obligations.PushThenPop := by
  intro s a b d d' hs ha hb hlo hhi
  obtain ⟨t, hpush, hword, hsp, hregs, hpc, hzf, hrec⟩ := execPush_register (d := d) hs ha hlo hhi rfl
  have htop : t.spReg.toNat = s.spReg.toNat - 8 := by rw [hsp]; exact toNat_sub_ofNat (by omega)
  have ht : t.Built := hs.congr hrec.params hrec.regCount hrec.prog
  obtain ⟨u, hpop, hword', hsp', hregs', hpc', hzf', hrec'⟩ := execPop_register (b := b) (d := d') ht
    (by rw [hrec.params]; exact hb) (by rw [hrec.params]; omega) (by rw [hrec.params]; omega)
  rw [hrec.params] at hregs'
  have hback : u.spReg = s.spReg := by rw [hsp', hsp]; exact BitVec.sub_add_cancel _ _
  refine ⟨t, u, hpush, hpop, by rw [hword', hsp, hword], hback, fun i hi hne => ?_, ?_, hzf'.trans hzf⟩
  · rcases Nat.lt_or_eq_of_le (Nat.le_sub_one_of_lt hi) with hlt | rfl
    · rw [hregs' i hlt hne, hregs i hlt]
    · rwa [State.spReg, State.spReg, hrec'.params, hrec.params] at hback
  · rw [hpc', hpc, BitVec.add_assoc]
    rfl

end Sys2Proof.Machine

namespace Sys2Proof.Machine

/-! ## ADD, SUB, AND and XOR: the read-modify-write sequence they share (R240, R241) -/

/-- An instruction whose rule is the shared sequence with `op` reads both operands, then stores `op` of them whole. -/
theorem readModifyWrite_completes {mk : Fields → Instr} {op : Word → Word → Word}
    (hexec : ∀ f s, exec (mk f) s = commit f s (readModifyWrite op f s)) : ReadModifyWriteCompletes mk op := by
  intro f s sa da hs hsrc hdst hreadSrc hreadDst hwrite
  have hst := (memWrite_stores hs (op (s.wordAt da) (s.wordAt sa)) hwrite).advance_fall f
  refine ⟨_, ?_, hst, hst.wordAt_eq _ fun _ _ => rfl, fallsThrough_advance (by simp) (by simp) (.setBytes s _ _)⟩
  rw [hexec]
  simp [readModifyWrite, resolveBoth_reg_ok hs hsrc hdst, memRead_ok hreadSrc, memRead_ok hreadDst,
    memWrite_ok _ hwrite]

theorem add_completes : ReadModifyWriteCompletes .add (fun a b => a + b) :=
  readModifyWrite_completes fun _ _ => rfl

theorem sub_completes : ReadModifyWriteCompletes .sub (fun a b => a - b) :=
  readModifyWrite_completes fun _ _ => rfl

theorem and_completes : ReadModifyWriteCompletes .and (fun a b => a &&& b) :=
  readModifyWrite_completes fun _ _ => rfl

theorem xor_completes : ReadModifyWriteCompletes .xor (fun a b => a ^^^ b) :=
  readModifyWrite_completes fun _ _ => rfl

/-- Word subtraction over the naturals: the borrow is paid in advance (R246). -/
theorem sub_eq_ofNat (a b : Word) : a - b = BitVec.ofNat 64 (2 ^ 64 + a.toNat - b.toNat) := by
  rw [BitVec.sub_def, Nat.sub_add_comm b.isLt.le]

/-- Settles O25: the shared sequence for each of the four rules, with sum and difference written over the naturals. -/
theorem arithmeticStoresResult : Obligations.ArithmeticStoresResult := by
  have hadd : (fun a b : Word => BitVec.ofNat 64 (a.toNat + b.toNat)) = fun a b => a + b :=
    funext₂ fun a b => (BitVec.add_def a b).symm
  have hsub : (fun a b : Word => BitVec.ofNat 64 (2 ^ 64 + a.toNat - b.toNat)) = fun a b => a - b :=
    funext₂ fun a b => (sub_eq_ofNat a b).symm
  rw [Obligations.ArithmeticStoresResult, hadd, hsub]
  exact ⟨add_completes, sub_completes, and_completes, xor_completes⟩

/-! ## The register forms, and the ADD, SUB pair (R247) -/

/-- Between two registers, neither of them dereferenced, the sequence always completes: `x[a]` becomes `op x[a] x[b]`
and every other register keeps its value. -/
theorem ReadModifyWriteCompletes.registers {mk : Fields → Instr} {op : Word → Word → Word}
    (h : ReadModifyWriteCompletes mk op) {s : State} (hs : s.Built) {a b : BitVec 4} (ha : a.toNat < s.params.nreg)
    (hb : b.toNat < s.params.nreg) (n : Nat) :
    ∃ t, exec (mk ⟨b, a, .none, false, n⟩) s = .next t ∧ t.reg a.toNat = op (s.reg a.toNat) (s.reg b.toNat) ∧
      (∀ i, i < s.params.nreg → i ≠ a.toNat → t.reg i = s.reg i) ∧ SameRecord s t := by
  have hsrc : sourceAddress ⟨b, a, .none, false, n⟩ s = some (s.regAddr b.toNat) := by
    simp [sourceAddress, hb, DerefMode.derefsSource]
  have hdst : destinationAddress ⟨b, a, .none, false, n⟩ s = some (s.regAddr a.toNat) := by
    simp [destinationAddress, ha, DerefMode.derefsDestination]
  have hadm {i : Nat} (hi : i < s.params.nreg) := admitted_regAddr hs.1 hi (Nat.le_refl 8)
  obtain ⟨t, hexec, hstores, -, hfall⟩ := h _ s _ _ hs hsrc hdst (hadm hb .read) (hadm ha .read) (hadm ha .write)
  rw [regAddr_toNat hs.1 ha, wordAt_regAddr hs.1 ha, wordAt_regAddr hs.1 hb] at hstores
  have hparams := hfall.record.params
  refine ⟨t, hexec, ?_, fun i hi hne => hstores.otherRegs i hi (by omega), hfall.record⟩
  rw [← hparams] at ha hstores
  exact hstores.reg_eq ha _ fun _ _ => rfl

/-- ADD, then SUB of the same register: SUB takes away what `x[b]` holds by then, `x[a]` itself where they are one
register (R247). -/
theorem add_then_sub {s : State} (hs : s.Built) {a b : BitVec 4} (ha : a.toNat < s.params.nreg)
    (hb : b.toNat < s.params.nreg) (n m : Nat) :
    ∃ t u, exec (.add ⟨b, a, .none, false, n⟩) s = .next t ∧ exec (.sub ⟨b, a, .none, false, m⟩) t = .next u ∧
      (a ≠ b → u.reg a.toNat = s.reg a.toNat) ∧ (a = b → u.reg a.toNat = 0) := by
  obtain ⟨t, hadd, hsum, hother, hrec⟩ := add_completes.registers hs ha hb n
  have ht : t.Built := hs.congr hrec.params hrec.regCount hrec.prog
  rw [← hrec.params] at ha hb
  obtain ⟨u, hsub, hdiff, -, -⟩ := sub_completes.registers ht ha hb m
  refine ⟨t, u, hadd, hsub, fun hne => ?_, ?_⟩
  · have hkeep : t.reg b.toNat = s.reg b.toNat :=
      hother _ (hrec.params ▸ hb) fun h => hne (BitVec.eq_of_toNat_eq h).symm
    rw [hdiff, hkeep, hsum, BitVec.add_sub_cancel]
  · rintro rfl
    exact hdiff.trans (BitVec.sub_self _)

/-- Settles O26: the pair is `add_then_sub`, and the two corner cases are SUB's register form. -/
theorem addThenSub : Obligations.AddThenSub := by
  intro s a b n m hs ha hb
  refine ⟨add_then_sub hs ha hb n m, ?_, fun h0 h1 => ?_⟩
  · obtain ⟨t, hsub, hdiff, -, -⟩ := sub_completes.registers hs ha ha n
    exact ⟨t, hsub, hdiff.trans (BitVec.sub_self _)⟩
  · obtain ⟨t, hsub, hdiff, -, -⟩ := sub_completes.registers hs ha hb n
    exact ⟨t, hsub, by rw [hdiff, h0, h1]; rfl⟩

/-! ## CMP (R256) -/

/-- The zero-flag of a difference modulo 2^64 says that the two words are equal. -/
theorem zeroFlag_eq_true_iff {a b : Word} : zeroFlag a b = true ↔ a = b := by
  rw [zeroFlag, decide_eq_true_iff]
  exact sub_eq_zero

/-- Where both operands can be read, CMP's next state is the old one with `zf` written and `pc` advanced. -/
theorem execCmp_completes {f : Fields} {s : State} {sa da : Word} (hs : s.Built) (hsrc : sourceAddress f s = some sa)
    (hdst : destinationAddress f s = some da) (hreadSrc : s.admitted sa 8 .read = true)
    (hreadDst : s.admitted da 8 .read = true) :
    exec (.cmp f) s = .next (advance f (s.withZf (zeroFlag (s.wordAt da) (s.wordAt sa))) .fall) := by
  simp [exec, execCmp, resolveBoth_reg_ok hs hsrc hdst, memRead_ok hreadSrc, memRead_ok hreadDst, State.withZf]

section

variable (f : Fields) (s : State) (z : Bool)

/-! What a write of the zero-flag, then commit's advance, sets beside `zf`, and what it leaves (R190, R192). -/

theorem advance_withZf_pc : (advance f (s.withZf z) .fall).pc = nextPc f s := rfl

theorem advance_withZf_storesNothing : StoresNothing s (advance f (s.withZf z) .fall) :=
  ⟨fun b => byteAt_congr rfl rfl rfl rfl b, fun _ => rfl⟩

theorem advance_withZf_sameRecord : SameRecord s (advance f (s.withZf z) .fall) :=
  (WorkingOf.setZf s z).record.trans (.advance_fall f _)

end

/-- Settles O27: CMP's next state is the old one with `zf` written (`execCmp_completes`) and `pc` advanced. -/
theorem cmpSetsZeroFlag : Obligations.CmpSetsZeroFlag := by
  intro f s sa da hs hsrc hdst hreadSrc hreadDst
  refine ⟨_, execCmp_completes hs hsrc hdst hreadSrc hreadDst, ?_, advance_withZf_storesNothing f s _,
    advance_withZf_pc f s _, advance_withZf_sameRecord f s _⟩
  rw [advance_fall_zf, State.withZf_zf, zeroFlag_eq_true_iff]

end Sys2Proof.Machine

namespace Sys2Proof.Machine

/-! ## JMP and JNE (R270, R272, R275) -/

/-- The value of a source operand that can be read (R270, R275). -/
theorem sourceValue_ok {f : Fields} {s : State} {sa : Word} (hs : s.Built) (hsrc : sourceAddress f s = some sa)
    (hread : s.admitted sa 8 .read = true) : sourceValue f s = .ok (s.wordAt sa) := by
  simp [sourceValue, resolveSource_ok hs hsrc, memRead_ok hread]

theorem checkTarget_of_le {s : State} {t : Word} (h : t.toNat ≤ s.progLen) : checkTarget s t = .ok () :=
  if_neg (Nat.not_lt.2 h)

theorem checkTarget_of_lt {s : State} {t : Word} (h : s.progLen < t.toNat) :
    checkTarget s t = .error ⟨.outOfBoundsJump, t⟩ := if_pos h

/-- Read the target, check its range, jump: what JMP does, and JNE where it is taken. -/
def jumpRule (f : Fields) (s : State) : Except Raised (State × NextControl) := do
  let t ← sourceValue f s
  checkTarget s t
  pure (s, .jump t)

theorem execJmp_eq (f : Fields) (s : State) : execJmp f s = commit f s (jumpRule f s) := rfl

theorem execJne_taken {f : Fields} {s : State} (hzf : s.zf = false) : execJne f s = commit f s (jumpRule f s) := by
  simp [execJne, jumpRule, hzf]

theorem exec_eq_jumpRule {i : Instr} {f : Fields} {s : State} (h : i = .jmp f ∨ (i = .jne f ∧ s.zf = false)) :
    exec i s = commit f s (jumpRule f s) := by
  obtain rfl | ⟨rfl, hzf⟩ := h
  · exact execJmp_eq f s
  · exact execJne_taken hzf

/-- Settles O29: the two answers of the target check, then the halt transition at `PROG_LEN` and the fetch below it. -/
theorem jumpTargets : Obligations.JumpTargets := by
  rintro i f s sa t hi hs hsrc hread rfl
  have hval := sourceValue_ok hs hsrc hread
  rw [exec_eq_jumpRule hi]
  refine ⟨fun hpast => takesFault_of_error ?_, fun hin => ?_, fun hend hrst hrun => ?_, fun hbelow => ?_⟩
  · simp [jumpRule, hval, checkTarget_of_lt hpast]
  · simp [jumpRule, hval, checkTarget_of_le hin, advance]
  · exact step_of_progLen_le hrst hrun hend.ge
  · exact List.getElem?_eq_getElem hbelow

/-- Settles O30: with `zf` set the rule ends after the read, before any check of the target. -/
theorem jneNotTakenFallsThrough : Obligations.JneNotTakenFallsThrough := by
  intro f s sa hs hsrc hread hzf
  simp [exec, execJne, sourceValue_ok hs hsrc hread, hzf, advance]

end Sys2Proof.Machine

namespace Sys2Proof.Machine

/-! ## A CALL that the host answers (R280, R281, R320) -/

/-- A CALL whose source operand can be read hands its request to the host (R280, R318). -/
theorem exec_call_eq {f : Fields} {s : State} {sa : Word} (hs : s.Built) (hsrc : sourceAddress f s = some sa)
    (hread : s.admitted sa 8 .read = true) :
    exec (.call f) s = answerRequest f s ⟨s.wordAt sa, (s.x.drop 1).take s.params.nargs⟩ := by
  simp [exec, execCall, callRequest_ok hs hsrc hread]

theorem answerRequest_ret {f : Fields} {s : State} {req : NativeRequest} {r : Word} {cs : List Host.Cell}
    {rest : List HostAnswer} (ha : s.hostAnswers = .ret r cs :: rest) (hcs : ∀ c ∈ cs, s.hostMayWrite c.1 = true) :
    answerRequest f s req = .next (advance f (s.takeReturn r cs rest) .fall) := by
  simp [answerRequest, ha, List.all_eq_true.2 hcs]

theorem answerRequest_noRoutine {f : Fields} {s : State} {req : NativeRequest} {rest : List HostAnswer}
    (ha : s.hostAnswers = .noRoutine :: rest) : answerRequest f s req =
      .next (({ s with pending := none, hostAnswers := rest } : State).takeFault ⟨.invalidCall, req.routine⟩) := by
  simp [answerRequest, ha]

/-- Of the cells the host lists for one address, the last one listed counts. -/
theorem Memory.read_writeCells_last (m : Memory) (pre : List Host.Cell) {a : Nat} (v : Byte) {post : List Host.Cell}
    (h : ∀ c ∈ post, c.1 ≠ a) : Memory.read (Memory.writeCells m (pre ++ (a, v) :: post)) a = v := by
  have hsplit : Memory.writeCells m (pre ++ (a, v) :: post) =
      Memory.writeCells (Memory.write (Memory.writeCells m pre) a v) post := List.foldl_append ..
  rw [hsplit, Memory.read_writeCells_ne _ _ h, Memory.read_write_same]

/-- A data address reads alike where memory does at that address, whatever it lists elsewhere. -/
theorem byteAt_congr_read {s t : State} {a : Nat} (hb : t.params = s.params) (hx : t.x = s.x) (hp : t.prog = s.prog)
    (hm : Memory.read t.mem a = Memory.read s.mem a) : t.byteAt a = s.byteAt a := by
  simp [State.byteAt, State.inRegisters, State.regIndex, State.regByte, State.reg, State.inProgram, State.progLen, hb,
    hx, hp, hm]

/-- A byte of the external region is memory's (R61, R65). -/
theorem byteAt_external {s : State} (hs : s.Built) {a : Nat} (ha : s.params.extBase ≤ a) :
    s.byteAt a = Memory.read s.mem a := by
  simp only [State.Built, Params.Legal, Params.stackEnd] at hs
  have hr : s.inRegisters a = false := by
    simp only [State.inRegisters, Bool.and_eq_false_iff, decide_eq_false_iff_not]
    omega
  have hp : s.inProgram a = false := by
    simp only [State.inProgram, Bool.and_eq_false_iff, decide_eq_false_iff_not]
    omega
  simp [State.byteAt, hr, hp]

section

variable {s : State} (r : Word) {cs : List Host.Cell} (rest : List HostAnswer)

theorem State.reg_takeReturn_acc (hs : s.Built) : (s.takeReturn r cs rest).reg 0 = r :=
  State.reg_setReg_same _ r (Nat.zero_lt_of_lt hs.sp_lt)

theorem State.reg_takeReturn_ne {i : Nat} (hi : i ≠ 0) : (s.takeReturn r cs rest).reg i = s.reg i :=
  State.reg_setReg_ne _ r hi

/-- A byte outside `ACC`'s window that the host does not list is as before. -/
theorem byteAt_takeReturn_other {b : Nat} (hb : b < s.params.regBase ∨ s.params.regBase + 8 ≤ b)
    (hcs : ∀ c ∈ cs, c.1 ≠ b) : (s.takeReturn r cs rest).byteAt b = s.byteAt b :=
  (byteAt_setReg_of_outside r hb).trans (byteAt_congr_read rfl rfl rfl (Memory.read_writeCells_ne cs s.mem hcs))

/-- A byte the host lists, of those it may write, holds the last value listed for it. -/
theorem byteAt_takeReturn_last (hs : s.Built) {pre post : List Host.Cell} {a : Nat} {v : Byte}
    (ha : s.hostMayWrite a = true) (hpost : ∀ c ∈ post, c.1 ≠ a) :
    (s.takeReturn r (pre ++ (a, v) :: post) rest).byteAt a = v := by
  have ht : (s.takeReturn r (pre ++ (a, v) :: post) rest).Built := hs.congr rfl (State.setReg_x_length ..) rfl
  rw [byteAt_external ht (extBase_le_of_hostMayWrite ha), State.takeReturn_mem, Memory.read_writeCells_last _ _ _ hpost]

end

/-- The bytes of the data address space after commit's advance, which touches `pc` only. -/
theorem byteAt_advance_fall (f : Fields) (w : State) (b : Nat) : (advance f w .fall).byteAt b = w.byteAt b :=
  byteAt_congr rfl rfl rfl rfl b

/-- Settles O31: the next state is `State.takeReturn`'s, with `pc` advanced. -/
theorem callTakesReturn : Obligations.CallTakesReturn := by
  intro f s sa r changes rest hs hsrc hread ha hlawful
  refine ⟨advance f (s.takeReturn r changes rest) .fall, ?_, State.reg_takeReturn_acc r rest hs,
    fun i hi => State.reg_takeReturn_ne r rest hi, fun b hb hcs => ?_, ?_,
    rfl, rfl, rfl, rfl, rfl, rfl, rfl, rfl, rfl, rfl, rfl, rfl, rfl⟩
  · rw [exec_call_eq hs hsrc hread, answerRequest_ret ha hlawful]
  · rw [byteAt_advance_fall, byteAt_takeReturn_other r rest hb hcs]
  · rintro pre a v post rfl hpost
    rw [byteAt_advance_fall, byteAt_takeReturn_last r rest hs (hlawful (a, v) (by simp)) hpost]

/-- Settles O35: the request names the identifier, and the fault is taken with the native call over. -/
theorem callWithoutRoutineFaults : Obligations.CallWithoutRoutineFaults := by
  intro f s sa rest hs hsrc hread ha
  rw [exec_call_eq hs hsrc hread, answerRequest_noRoutine ha]
  rfl

/-- Settles O37: `execRet_eq`, and the fault every instruction takes where its literal is missing. -/
theorem retHalts : Obligations.RetHalts := fun f _ =>
  ⟨execRet_eq, exec_truncated (i := .ret f)⟩

end Sys2Proof.Machine

namespace Sys2Proof.Machine

/-! ## An answer that breaks the host's duties (R320, I9) -/

/-- Settles O36: the CALL hands its request to the host (`exec_call_eq`), whose answer fails the test of R320. -/
theorem callRefusesUnlawfulAnswer : Obligations.CallRefusesUnlawfulAnswer := by
  rintro f s sa r changes rest hs hsrc hread ha ⟨c, hc, hunlawful⟩
  have hall : changes.all (fun c => s.hostMayWrite c.1) = false := List.all_eq_false.2 ⟨c, hc, by simp [hunlawful]⟩
  rw [exec_call_eq hs hsrc hread, answerRequest, ha]
  simp only [hall, Bool.false_eq_true, if_false]

end Sys2Proof.Machine

namespace Sys2Proof.Machine

/-! ## The host's moves keep the invariant (R322) -/

/-- Asserting `rst` leaves in memory what stood outside the stack buffer, and the launch image inside it. -/
theorem assertReset_placed {s : State} (hm : ∀ c ∈ s.mem, s.placed c.1 = true) (stack : List Byte) :
    ∀ c ∈ (s.assertReset stack).mem, s.placed c.1 = true := by
  intro c hc
  rcases Memory.mem_writeCells hc with hc | hc
  · exact hm c (List.mem_filter.1 hc).1
  · have hin : s.inStack c.1 = true := by simpa [State.inStack] using stackCells_in_stack hc
    simp [State.placed, hin]

/-- Asserting `rst` gives the invariant from what a reset keeps: the build, the program, memory's places (R340). -/
theorem State.Inv.assertReset {s : State} (h : s.Inv) (stack : List Byte) : (s.assertReset stack).Inv where
  memCanonical := Memory.wf_writeCells _ (Memory.wf_filter _ h.memCanonical)
  memPlaced := assertReset_placed h.memPlaced stack
  built := ⟨h.built.1, resetRegs_length h.built.1, h.built.2.2⟩
  pcInProgram := Nat.zero_le _
  causeIffFaulted := by simp [State.resetOf]
  noRecord _ := ⟨rfl, rfl⟩
  pendingIsCall := by simp
  heldInReset _ := ⟨rfl, rfl, rfl⟩

/-- A load happens under reset, where `pc` is 0 and no native call is under way (R350). -/
theorem State.Inv.loadProgram {s t : State} {slots : List Word} (h : s.Inv) (ht : s.loadProgram slots = some t) :
    t.Inv := by
  obtain ⟨hrst, hlen, rfl⟩ := loadProgram_cases ht
  obtain ⟨hpc, -, hpend⟩ := h.heldInReset hrst
  exact { h with
    built := ⟨h.built.1, h.built.2.1, hlen⟩
    pcInProgram := by simp [hpc]
    pendingIsCall := by simp [hpend] }

/-- Releasing `rst` lifts the one clause that speaks of it (R341). -/
theorem State.Inv.releaseReset {s : State} (h : s.Inv) : s.releaseReset.Inv :=
  { h with heldInReset := by simp }

/-- Outside RUNNING, and under reset, no native call is pending (R39, R340). -/
theorem State.Inv.pending_none_of_notRunning {s : State} (h : s.Inv) (hn : s.notRunning = true) : s.pending = none := by
  cases hrst : s.rst with
  | true => exact (h.heldInReset hrst).2.2
  | false =>
    have hrun : s.runState ≠ .running := by simpa [State.notRunning, hrst] using hn
    by_contra hp
    obtain ⟨req, hreq⟩ := Option.ne_none_iff_exists'.1 hp
    exact hrun (h.pendingIsCall req hreq).1

/-- The host writes external memory only while the core is not running (R43). -/
theorem loadExternal_notRunning {s t : State} {cells : List Host.Cell} (h : s.loadExternal cells = some t) :
    s.notRunning = true := by
  obtain ⟨hc, -⟩ := Option.ite_none_right_eq_some.1 h
  exact (Bool.and_eq_true_iff.1 hc).1

/-- A write of admitted external memory keeps the invariant: no pending request can depend on it (R43). -/
theorem State.Inv.loadExternal {s t : State} {cells : List Host.Cell} (h : s.Inv)
    (ht : s.loadExternal cells = some t) : t.Inv := by
  have hpend := h.pending_none_of_notRunning (loadExternal_notRunning ht)
  obtain ⟨hcells, rfl⟩ := loadExternal_cases ht
  refine { h with
    memCanonical := Memory.wf_writeCells _ h.memCanonical
    memPlaced := fun c hc => ?_
    pendingIsCall := by simp [hpend] }
  rcases Memory.mem_writeCells hc with hc | hc
  · exact h.memPlaced c hc
  · exact Bool.or_eq_true_iff.2 (.inr (hcells c hc))

/-- An instruction is fetched only with `rst` released, in RUNNING, from the word at `pc` (R161, R164, R340). -/
theorem fetch_instr_cases {s : State} {i : Instr} (h : fetch s = .instr i) :
    s.rst = false ∧ s.runState = .running ∧ s.decodeAtPc = .instr i := by
  have hrun := fetch_instr_running h
  cases hrst : s.rst with
  | true => simp [fetch, hrst] at h
  | false => exact ⟨rfl, hrun, by simpa [fetch, hrst, hrun] using h⟩

/-- The request presented is the waiting CALL's own, which the request itself does not change (R39). -/
theorem State.Inv.presentRequest {s t : State} (h : s.Inv) (ht : s.presentRequest = some t) : t.Inv := by
  obtain ⟨f, req, hfetch, -, hreq, rfl⟩ := presentRequest_iff.1 ht
  obtain ⟨hrst, hrun, hdec⟩ := fetch_instr_cases hfetch
  refine { h with
    pendingIsCall := fun req' hreq' => ?_
    heldInReset := by simp [hrst] }
  obtain rfl : req = req' := Option.some.inj hreq'
  exact ⟨hrun, f, hdec, hreq⟩

/-- An answer waits in the model's own list, of which the invariant does not speak (R318). -/
theorem State.Inv.answerCall {s t : State} {a : HostAnswer} (h : s.Inv) (ht : s.answerCall a = some t) : t.Inv := by
  obtain ⟨-, rfl⟩ := answerCall_cases ht
  exact { h with }

/-- Settles O57, move by move. -/
theorem hostMovesKeepInvariant : Obligations.HostMovesKeepInvariant := fun _ h =>
  ⟨h.assertReset, fun _ _ => h.loadProgram, h.releaseReset, fun _ _ => h.loadExternal, fun _ => h.presentRequest,
    fun _ _ => h.answerCall⟩

end Sys2Proof.Machine

namespace Sys2Proof.Machine

/-! ## The opcode's own accesses fault in order (R302, 7) -/

/-- JMP, JNE and CALL take the fault of the source they read (R270, R275, R280). -/
theorem takesFault_of_sourceValue_error {i : Instr} {f : Fields} {s : State} {cause : FaultCause} {info : Word}
    (hi : i ∈ [Instr.jmp f, .jne f, .call f]) (h : sourceValue f s = .error ⟨cause, info⟩) :
    TakesFault (exec i s) s cause info := by
  simp only [List.mem_cons, List.not_mem_nil, or_false] at hi
  obtain rfl | rfl | rfl := hi
  · exact commit_bind_error _ h
  · exact commit_bind_error _ h
  · have hreq : callRequest f s = .error ⟨cause, info⟩ := by simp [callRequest, h]
    simp [TakesFault, exec, execCall, hreq, State.takeFault]

theorem exec_eq_readModifyWrite {i : Instr} {f : Fields} (hi : i ∈ [Instr.add f, .sub f, .and f, .xor f]) (s : State) :
    ∃ op, exec i s = commit f s (readModifyWrite op f s) := by
  simp only [List.mem_cons, List.not_mem_nil, or_false] at hi
  obtain rfl | rfl | rfl | rfl := hi <;> exact ⟨_, rfl⟩

/-- A rule that reads its source, then its destination, and goes on with `g` raises what the two reads raise (R241,
R256). -/
theorem operandReads_error {α : Type} {f : Fields} {s : State} {sa da : Word} {r : Raised}
    (g : Resolved → Word → Word → Except Raised α) (hres : resolveBoth .regOrImm .reg f s = .ok ⟨s, sa, da⟩)
    (h : (do let _ ← memRead s sa 8; memRead s da 8) = .error r) :
    (do let q ← resolveBoth .regOrImm .reg f s
        let b ← memRead q.w q.sa 8
        let a ← memRead q.w q.da 8
        g q b a) = .error r := by
  rcases bind_error h with h | ⟨b, hb, h⟩
  · simp [hres, h]
  · simp [hres, hb, h]

/-- ADD, SUB, AND, XOR and CMP take the fault of the first operand they cannot read. -/
theorem takesFault_of_operandReads_error {i : Instr} {f : Fields} {s : State} {sa da : Word} {cause : FaultCause}
    {info : Word} (hi : i ∈ [Instr.add f, .sub f, .and f, .xor f, .cmp f])
    (hres : resolveBoth .regOrImm .reg f s = .ok ⟨s, sa, da⟩)
    (h : (do let _ ← memRead s sa 8; memRead s da 8) = .error ⟨cause, info⟩) : TakesFault (exec i s) s cause info := by
  simp only [List.mem_cons, List.not_mem_nil, or_false] at hi
  obtain rfl | rfl | rfl | rfl | rfl := hi <;> exact takesFault_of_error (operandReads_error _ hres h)

/-- Settles O40: the operands resolve (`resolveBoth_reg_ok`), and each rule raises its first access that is refused. -/
theorem dataAccessFaultOrder : Obligations.DataAccessFaultOrder := by
  intro f s sa hs hsrc
  refine ⟨fun hread i hi => takesFault_of_sourceValue_error hi ?_, fun da hdst => ?_⟩
  · simp [sourceValue, resolveSource_ok hs hsrc, memRead_error hread]
  have hres := resolveBoth_reg_ok hs hsrc hdst
  refine ⟨fun hread => ?_, fun hread hwrite => ?_, fun hwrite => takesFault_of_error ?_, fun hread i hi => ?_,
    fun hread hread' i hi => ?_, fun hread hread' hwrite i hi => ?_⟩
  · exact takesFault_of_error (copyRule_error_of_copyBytes (g := id) hres (copyBytes_error_read hread))
  · exact takesFault_of_error (copyRule_error_of_copyBytes (g := id) hres (copyBytes_error_write hread hwrite))
  · simp [hres, memWrite_error sa hwrite]
  · exact takesFault_of_operandReads_error hi hres (by simp [memRead_error hread])
  · exact takesFault_of_operandReads_error hi hres (by simp [memRead_ok hread, memRead_error hread'])
  · obtain ⟨op, hexec⟩ := exec_eq_readModifyWrite hi s
    rw [hexec]
    refine takesFault_of_error ?_
    simp [readModifyWrite, hres, memRead_ok hread, memRead_ok hread', memWrite_error _ hwrite]

end Sys2Proof.Machine

namespace Sys2Proof.Machine

/-! ## The first access that is not admitted (R69, R302) -/

/-- The first of the accesses that is not admitted starts at `a`. -/
def FirstRefused (s : State) (l : List DataAccess) (a : Word) : Prop :=
  (l.find? (fun d => !s.admitted d.addr d.width d.kind)).map DataAccess.addr = some a

/-- The row of INVALID_DEREFERENCE in R300. -/
theorem causeFits_dereference {i : Instr} {s : State} {a : Word} :
    CauseFits i s ⟨.invalidDereference, a⟩ ↔ FirstRefused s (accesses i s) a := Iff.rfl

theorem firstRefused_cons {s : State} {d : DataAccess} {l : List DataAccess} {a : Word} :
    FirstRefused s (d :: l) a ↔ (s.admitted d.addr d.width d.kind = false ∧ d.addr = a) ∨
      (s.admitted d.addr d.width d.kind = true ∧ FirstRefused s l a) := by
  cases h : s.admitted d.addr d.width d.kind <;> simp [FirstRefused, h]

/-- Only what admission depends on decides which access is refused first. -/
theorem firstRefused_congr {s t : State} (h : ∀ a n k, t.admitted a n k = s.admitted a n k) {l : List DataAccess}
    {a : Word} : FirstRefused t l a ↔ FirstRefused s l a := by
  simp only [FirstRefused, h]

/-- A pointer read that is refused comes first. -/
theorem firstRefused_pointerRead {s : State} {a : Word} (h : s.admitted a 8 .read = false) (l : List DataAccess) :
    FirstRefused s (pointerRead true (some a) ++ l) a :=
  firstRefused_cons.2 (.inl ⟨h, rfl⟩)

/-- Behind an operand whose pointer, if it has one, can be read. -/
theorem FirstRefused.behind_pointerRead {s : State} {bit : Bool} {p a : Word} {l : List DataAccess}
    (h : FirstRefused s l a) (hp : bit = true → s.admitted p 8 .read = true) :
    FirstRefused s (pointerRead bit (some p) ++ l) a := by
  cases bit with
  | false => exact h
  | true => exact firstRefused_cons.2 (.inr ⟨hp rfl, h⟩)

/-! ## Computations that make accesses: what they raise is the first that is refused -/

/-- Every fault the computation can raise has the property. -/
def RaisesOnly {α : Type} (P : Raised → Prop) (x : Except Raised α) : Prop := ∀ r, x = .error r → P r

theorem RaisesOnly.ok {α : Type} {P : Raised → Prop} (a : α) : RaisesOnly P (.ok a : Except Raised α) :=
  fun _ h => nomatch h

theorem RaisesOnly.bind {α β : Type} {P : Raised → Prop} {x : Except Raised α} {g : α → Except Raised β}
    (hx : RaisesOnly P x) (hg : ∀ a, x = .ok a → RaisesOnly P (g a)) : RaisesOnly P (x >>= g) := by
  intro r h
  rcases bind_error h with h | ⟨a, ha, h⟩
  · exact hx r h
  · exact hg a ha r h

/-- INVALID_DEREFERENCE with the start of the first access of the list that is refused (R300). -/
def DereferenceFault (s : State) (l : List DataAccess) (r : Raised) : Prop :=
  r.cause = .invalidDereference ∧ FirstRefused s l r.info

/-- The computation makes the one access `d`: it raises where the access is refused and answers where it is admitted. -/
structure MakesAccess {α : Type} (s : State) (d : DataAccess) (x : Except Raised α) : Prop where
  refused : ∀ r, x = .error r → s.admitted d.addr d.width d.kind = false ∧ r = ⟨.invalidDereference, d.addr⟩
  admitted : ∀ a, x = .ok a → s.admitted d.addr d.width d.kind = true

theorem memRead_makesAccess (s : State) (a : Word) : MakesAccess s ⟨a, 8, .read⟩ (memRead s a 8) :=
  ⟨fun _ => memRead_raises, fun _ h => (memRead_cases h).1⟩

theorem memWrite_makesAccess (s : State) (a v : Word) (n : Nat) : MakesAccess s ⟨a, n, .write⟩ (memWrite s a n v) :=
  ⟨fun _ => memWrite_raises, fun _ h => (memWrite_cases h).1⟩

theorem readBytes_makesAccess (s : State) (a : Word) (n : Nat) : MakesAccess s ⟨a, n, .read⟩ (readBytes s a n) :=
  ⟨fun _ => readBytes_raises, fun _ h => (readBytes_cases h).1⟩

theorem writeBytes_makesAccess (s : State) (a : Word) (bs : List Byte) :
    MakesAccess s ⟨a, bs.length, .write⟩ (writeBytes s a bs) :=
  ⟨fun _ => writeBytes_raises, fun _ h => (writeBytes_cases h).1⟩

/-- A refused access is the first one refused, whatever would follow it. -/
theorem MakesAccess.raisesOnly {α : Type} {s : State} {d : DataAccess} {x : Except Raised α} (hx : MakesAccess s d x)
    (l : List DataAccess) : RaisesOnly (DereferenceFault s (d :: l)) x := by
  intro r h
  obtain ⟨hno, rfl⟩ := hx.refused r h
  exact ⟨rfl, firstRefused_cons.2 (.inl ⟨hno, rfl⟩)⟩

/-- An access, then a computation that makes the accesses of `l`. -/
theorem MakesAccess.bind {α β : Type} {s : State} {d : DataAccess} {l : List DataAccess} {x : Except Raised α}
    {g : α → Except Raised β} (hx : MakesAccess s d x)
    (hg : ∀ a, x = .ok a → RaisesOnly (DereferenceFault s l) (g a)) :
    RaisesOnly (DereferenceFault s (d :: l)) (x >>= g) := by
  refine (hx.raisesOnly l).bind fun a ha r hr => ?_
  obtain ⟨hcause, hfirst⟩ := hg a ha r hr
  exact ⟨hcause, firstRefused_cons.2 (.inr ⟨hx.admitted a ha, hfirst⟩)⟩

/-- The copy reads, then writes (R200). -/
theorem copyBytes_raisesOnly (s : State) (sa da : Word) (n : Nat) :
    RaisesOnly (DereferenceFault s [⟨sa, n, .read⟩, ⟨da, n, .write⟩]) (copyBytes s sa da n) := by
  refine (readBytes_makesAccess s sa n).bind fun bs hbs => ?_
  obtain rfl : bs.length = n := by simp [(readBytes_cases hbs).2]
  exact (writeBytes_makesAccess s da bs).raisesOnly []

/-! ## An instruction with two operands (R170) -/

/-- The instruction's row of R170 has a source of the form `u` and a destination of the form `d`. -/
structure UsesOperands (i : Instr) (u : SrcUse) (d : DstUse) : Prop where
  source : u = .stackTop ∧ i.opcode = .pop ∨ u = .regOrImm ∧ i.opcode ≠ .pop ∧ readsSourceOperand i.opcode = true
  destination : d = .newTop ∧ i.opcode = .push ∨ d = .reg ∧ i.opcode ≠ .push ∧ checksRd i.opcode = true

/-- The rows with a source operand and a checked `RD`. -/
theorem usesOperands_reg {i : Instr} (hs : readsSourceOperand i.opcode = true) (hd : checksRd i.opcode = true) :
    UsesOperands i .regOrImm .reg := by
  refine ⟨.inr ⟨rfl, fun h => ?_, hs⟩, .inr ⟨rfl, fun h => ?_, hd⟩⟩
  · simp [h, readsSourceOperand] at hs
  · simp [h, checksRd] at hd

section

variable {i : Instr} {u : SrcUse} {d : DstUse} {s : State}

theorem UsesOperands.checksRd (h : UsesOperands i u .reg) : checksRd i.opcode = true := by
  obtain ⟨hd, -⟩ | ⟨-, -, hrd⟩ := h.destination
  · cases hd
  · exact hrd

theorem UsesOperands.readsSource (h : UsesOperands i .regOrImm d) : readsSourceOperand i.opcode = true := by
  obtain ⟨hu, -⟩ | ⟨-, -, hrs⟩ := h.source
  · cases hu
  · exact hrs

theorem UsesOperands.opcode_pop (h : UsesOperands i .stackTop d) : i.opcode = .pop := by
  obtain ⟨-, ho⟩ | ⟨hu, -⟩ := h.source
  · exact ho
  · cases hu

theorem UsesOperands.opcode_push (h : UsesOperands i u .newTop) : i.opcode = .push := by
  obtain ⟨-, ho⟩ | ⟨hd, -⟩ := h.destination
  · exact ho
  · cases hd

theorem workingState_admitted (i : Instr) (s : State) (a : Word) (n : Nat) (k : AccessKind) :
    (workingState i s).admitted a n k = s.admitted a n k := by
  unfold workingState
  split
  · exact admitted_setSp ..
  · rfl

/-- The accesses of an instruction whose operands both have a place (R302). -/
theorem accesses_eq {sp dp : Word} (hsrc : sourcePlace i s = some sp) (hdst : destinationPlace i s = some dp) :
    accesses i s = pointerRead i.fields.dm.derefsSource (some sp) ++
      (pointerRead i.fields.dm.derefsDestination (some dp) ++
        ownAccesses i.opcode i.fields.size
          (some (if i.fields.dm.derefsSource then (workingState i s).wordAt sp else sp))
          (some (if i.fields.dm.derefsDestination then (workingState i s).wordAt dp else dp))) := by
  simp only [accesses, hsrc, hdst, throughPointer, Option.map_some, List.append_assoc]

/-- Every fault of the two operands' resolution is one of the instruction's row (R300, R302). -/
theorem resolveBoth_causeFits (hi : UsesOperands i u d) : RaisesOnly (CauseFits i s) (resolveBoth u d i.fields s) := by
  rintro ⟨cause, info⟩ h
  rcases resolveBoth_raises h with ⟨himm, hlen, hr⟩ | ⟨rfl, hrd, hr⟩ | ⟨rfl, himm, hrs, hr⟩ | ⟨rfl, hout, hr⟩ |
    ⟨rfl, hout, hr⟩ | ⟨rfl, htrunc, hrd, hrs, sp, w, dp, hsp, hdp, hfault⟩
  case inr.inr.inr.inr.inr =>
    obtain ⟨-, hdst⟩ := destinationPlace_eq hi.destination hrd hdp
    rw [causeFits_dereference, accesses_eq (sourcePlace_eq hi.source htrunc hrs hsp) hdst]
    rcases hfault with ⟨hbit, rfl, hno⟩ | ⟨hpass, hbit, rfl, hno⟩
    · rw [hbit]
      exact firstRefused_pointerRead hno _
    · refine FirstRefused.behind_pointerRead ?_ hpass
      rw [hbit]
      exact firstRefused_pointerRead hno _
  all_goals cases hr
  · exact ⟨himm, hlen, rfl⟩
  · exact .inl ⟨hi.checksRd, hrd, rfl⟩
  · exact .inr ⟨hi.readsSource, himm, hrs, rfl⟩
  · exact ⟨hi.opcode_pop, rfl, hout⟩
  · exact ⟨hi.opcode_push, rfl, hout⟩

/-- Where both operands resolve, no pointer read was refused, and the opcode's own accesses are left (R302, 7). -/
theorem firstRefused_of_resolveBoth (hi : UsesOperands i u d) {q : Resolved} (h : resolveBoth u d i.fields s = .ok q)
    {a : Word} (hown : FirstRefused q.w (ownAccesses i.opcode i.fields.size (some q.sa) (some q.da)) a) :
    FirstRefused s (accesses i s) a := by
  obtain ⟨htrunc, hrd, hrs, sp, dp, hsp, hdp, hsa, hda⟩ := resolveBoth_inv h
  obtain ⟨hw, hdst⟩ := destinationPlace_eq hi.destination hrd hdp
  obtain ⟨hsaEq, hpassSrc⟩ := deref_cases hsa
  obtain ⟨hdaEq, hpassDst⟩ := deref_cases hda
  rw [hsaEq, hdaEq, hw] at hown
  rw [hw] at hpassSrc hpassDst
  rw [accesses_eq (sourcePlace_eq hi.source htrunc hrs hsp) hdst, ← firstRefused_congr (workingState_admitted i s)]
  exact (hown.behind_pointerRead hpassDst).behind_pointerRead hpassSrc

/-- An instruction that resolves its operands, then makes its own accesses, raises what its row of R300 says. -/
theorem resolveBoth_bind_causeFits {α : Type} {g : Resolved → Except Raised α} (hi : UsesOperands i u d)
    (hg : ∀ q, RaisesOnly (DereferenceFault q.w (ownAccesses i.opcode i.fields.size (some q.sa) (some q.da))) (g q)) :
    RaisesOnly (CauseFits i s) (resolveBoth u d i.fields s >>= g) := by
  refine (resolveBoth_causeFits hi).bind ?_
  rintro q hq ⟨cause, info⟩ hr
  obtain ⟨rfl, hfirst⟩ := hg q _ hr
  exact causeFits_dereference.2 (firstRefused_of_resolveBoth hi hq hfirst)

/-! ## The rules of the opcodes -/

/-- MOV, PUSH and POP: the copy's two accesses. -/
theorem copyRule_causeFits (g : State → State) (hi : UsesOperands i u d)
    (hown : ∀ sa da, ownAccesses i.opcode i.fields.size (some sa) (some da) =
      [⟨sa, i.fields.size, .read⟩, ⟨da, i.fields.size, .write⟩]) :
    RaisesOnly (CauseFits i s) (copyRule u d g i.fields s) := by
  refine resolveBoth_bind_causeFits hi fun q => RaisesOnly.bind ?_ fun _ _ => .ok _
  rw [hown]
  exact copyBytes_raisesOnly q.w q.sa q.da i.fields.size

/-- ADD, SUB, AND and XOR: two reads and the write back. -/
theorem readModifyWrite_causeFits (op : Word → Word → Word) (hi : UsesOperands i .regOrImm .reg)
    (hown : ∀ sa da, ownAccesses i.opcode i.fields.size (some sa) (some da) =
      [⟨sa, 8, .read⟩, ⟨da, 8, .read⟩, ⟨da, 8, .write⟩]) :
    RaisesOnly (CauseFits i s) (readModifyWrite op i.fields s) := by
  refine resolveBoth_bind_causeFits hi fun q => ?_
  rw [hown]
  exact (memRead_makesAccess q.w q.sa).bind fun b _ => (memRead_makesAccess q.w q.da).bind fun a _ =>
    ((memWrite_makesAccess q.w q.da (op a b) 8).raisesOnly []).bind fun _ _ => .ok _

/-- The accesses of JMP, JNE and CALL: the source's pointer and the value it reads (R270, R275, R280). -/
theorem accesses_eq_of_sourceOnly {sp : Word} (ho : i.opcode = .jmp ∨ i.opcode = .jne ∨ i.opcode = .call)
    (hsrc : sourcePlace i s = some sp) : accesses i s = pointerRead i.fields.dm.derefsSource (some sp) ++
      [⟨if i.fields.dm.derefsSource then s.wordAt sp else sp, 8, .read⟩] := by
  have hpush : i.opcode ≠ .push := by rintro h; simp [h] at ho
  have hrd : checksRd i.opcode = false := by rcases ho with ho | ho | ho <;> rw [ho] <;> rfl
  have hown (sa da : Option Word) : ownAccesses i.opcode i.fields.size sa da = accessAt sa 8 .read := by
    rcases ho with ho | ho | ho <;> rw [ho] <;> rfl
  have hdst : destinationPlace i s = none := by simp [destinationPlace, hpush, hrd]
  have hno (bit : Bool) : pointerRead bit none = [] := by cases bit <;> rfl
  simp only [accesses, hsrc, hdst, hown, hno, workingState, hpush, if_false, List.append_nil]
  rfl

/-- Every fault of reading a source-only opcode's value is one of its row (R300, R302). -/
theorem sourceValue_causeFits (ho : i.opcode = .jmp ∨ i.opcode = .jne ∨ i.opcode = .call) :
    RaisesOnly (CauseFits i s) (sourceValue i.fields s) := by
  have hread : readsSourceOperand i.opcode = true := by rcases ho with ho | ho | ho <;> rw [ho] <;> rfl
  have hpop : i.opcode ≠ .pop := by rintro h; simp [h] at ho
  have haccesses {sp : Word} (htrunc : checkTruncated i.fields s = .ok ()) (hrs : checkRs .regOrImm i.fields s = .ok ())
      (hsp : resolveSrc .regOrImm i.fields s = .ok sp) :=
    accesses_eq_of_sourceOnly ho (sourcePlace_eq (.inr ⟨rfl, hpop, hread⟩) htrunc hrs hsp)
  refine RaisesOnly.bind (fun r h => ?_) fun sa hsa r h => ?_
  · rcases resolveSource_raises h with ⟨himm, hlen, rfl⟩ | ⟨himm, hrs, rfl⟩ | ⟨htrunc, hrs, hbit, sp, hsp, rfl, hno⟩
    · exact ⟨himm, hlen, rfl⟩
    · exact .inr ⟨hread, himm, hrs, rfl⟩
    · rw [causeFits_dereference, haccesses htrunc hrs hsp, hbit]
      exact firstRefused_pointerRead hno _
  · obtain ⟨htrunc, hrs, sp, hsp, hderef⟩ := resolveSource_inv hsa
    obtain ⟨hsaEq, hpass⟩ := deref_cases hderef
    obtain ⟨hno, rfl⟩ := memRead_raises h
    rw [causeFits_dereference, haccesses htrunc hrs hsp, ← hsaEq]
    exact FirstRefused.behind_pointerRead (firstRefused_cons.2 (.inl ⟨hno, rfl⟩)) hpass

/-- The target check of JMP, and of JNE where it is taken (R272). -/
theorem checkTarget_causeFits {t : Word} (ho : i.opcode = .jmp ∨ (i.opcode = .jne ∧ s.zf = false))
    (hval : sourceValue i.fields s = .ok t) : RaisesOnly (CauseFits i s) (checkTarget s t) := by
  intro r h
  unfold checkTarget at h
  split at h
  · obtain rfl := Except.error.inj h
    exact ⟨ho, hval, ‹_›⟩
  · cases h

theorem jumpRule_causeFits (ho : i.opcode = .jmp ∨ (i.opcode = .jne ∧ s.zf = false)) :
    RaisesOnly (CauseFits i s) (jumpRule i.fields s) :=
  (sourceValue_causeFits (ho.imp_right fun h => .inl h.1)).bind fun _ hval =>
    (checkTarget_causeFits ho hval).bind fun _ _ => .ok _

theorem checkTruncated_causeFits : RaisesOnly (CauseFits i s) (checkTruncated i.fields s) := by
  intro r h
  obtain ⟨himm, hlen, rfl⟩ := checkTruncated_raises h
  exact ⟨himm, hlen, rfl⟩

end

/-! ## Everything a fault can be (R300, R306) -/

/-- A committed rule that ends in FAULTED has raised: what a rule answers keeps `run_state`. -/
theorem commit_fault_cases {f : Fields} {s t : State} {x : Except Raised (State × NextControl)}
    (hrun : s.runState = .running) (hx : RuleAnswers s x) (h : commit f s x = .next t)
    (hf : t.runState = .faulted) : ∃ r, x = .error r ∧ t = s.takeFault r := by
  rcases commit_cases h with ⟨r, hr, ht⟩ | ⟨w, nc, rfl, rfl⟩
  · exact ⟨r, hr, ht⟩
  · have hw : w.runState = .running := hx.trans hrun
    cases nc <;> simp [hw] at hf

theorem jumpRule_answers (f : Fields) (s : State) : RuleAnswers s (jumpRule f s) :=
  (sourceValue_answers f s).bind fun t _ => (checkTarget_answers s t).bind fun _ _ => rfl

/-- JNE that is not taken reads its target and falls through (R275). -/
theorem execJne_notTaken {f : Fields} {s : State} (hzf : s.zf = true) :
    execJne f s = commit f s (do let _ ← sourceValue f s; pure (s, .fall)) := by
  simp [execJne, hzf]

/-- An instruction other than CALL that ends in FAULTED takes a fault that fits it. -/
theorem exec_fault_fits {i : Instr} {s t : State} (hc : i.opcode ≠ .call) (hrun : s.runState = .running)
    (h : exec i s = .next t) (hf : t.runState = .faulted) : ∃ r, CauseFits i s r ∧ t = s.takeFault r := by
  have fin {x : Except Raised (State × NextControl)} (hx : exec i s = commit i.fields s x) (hans : RuleAnswers s x)
      (hfits : RaisesOnly (CauseFits i s) x) : ∃ r, CauseFits i s r ∧ t = s.takeFault r := by
    obtain ⟨r, hr, ht⟩ := commit_fault_cases hrun hans (hx.symm.trans h) hf
    exact ⟨r, hfits r hr, ht⟩
  cases i with
  | mov f =>
    exact fin (execMov_eq f s) (copyRule_answers _ _ f s fun _ => rfl)
      (copyRule_causeFits id (usesOperands_reg rfl rfl) fun _ _ => rfl)
  | push f =>
    have huses : UsesOperands (.push f) .regOrImm .newTop := ⟨.inr ⟨rfl, nofun, rfl⟩, .inl ⟨rfl, rfl⟩⟩
    exact fin (execPush_eq f s) (copyRule_answers _ _ f s fun _ => rfl) (copyRule_causeFits id huses fun _ _ => rfl)
  | pop f =>
    have huses : UsesOperands (.pop f) .stackTop .reg := ⟨.inl ⟨rfl, rfl⟩, .inr ⟨rfl, nofun, rfl⟩⟩
    exact fin (execPop_eq f s) (copyRule_answers _ _ f s fun _ => rfl)
      (copyRule_causeFits (popSp f) huses fun _ _ => rfl)
  | add f | sub f | and f | xor f =>
    exact fin rfl (readModifyWrite_answers _ f s)
      (readModifyWrite_causeFits _ (usesOperands_reg rfl rfl) fun _ _ => rfl)
  | lea f =>
    refine fin rfl ?_ (resolveBoth_bind_causeFits (usesOperands_reg rfl rfl) fun q =>
      ((memWrite_makesAccess q.w q.da q.sa 8).raisesOnly []).bind fun _ _ => .ok _)
    exact (resolveBoth_answers _ _ f s).bind fun _ hr => (memWrite_answers _ _ _ _).bind fun _ hw => hw.trans hr
  | cmp f =>
    refine fin rfl ?_ (resolveBoth_bind_causeFits (usesOperands_reg rfl rfl) fun q =>
      (memRead_makesAccess q.w q.sa).bind fun _ _ =>
        ((memRead_makesAccess q.w q.da).raisesOnly []).bind fun _ _ => .ok _)
    exact (resolveBoth_answers _ _ f s).bind fun _ hr =>
      (memRead_answers _ _ _).bind fun _ _ => (memRead_answers _ _ _).bind fun _ _ => hr
  | jmp f => exact fin (execJmp_eq f s) (jumpRule_answers f s) (jumpRule_causeFits (.inl rfl))
  | jne f =>
    cases hzf : s.zf with
    | false => exact fin (execJne_taken hzf) (jumpRule_answers f s) (jumpRule_causeFits (.inr ⟨rfl, hzf⟩))
    | true =>
      exact fin (execJne_notTaken hzf) ((sourceValue_answers f s).bind fun _ _ => rfl)
        ((sourceValue_causeFits (.inr (.inl rfl))).bind fun _ _ => .ok _)
  | call f => exact absurd rfl hc
  | ret f =>
    exact fin rfl ((checkTruncated_answers f s).bind fun _ _ => rfl) (checkTruncated_causeFits.bind fun _ _ => .ok _)

/-- The request's fault is that of reading the identifier (R280). -/
theorem callRequest_causeFits (f : Fields) (s : State) : RaisesOnly (CauseFits (.call f) s) (callRequest f s) :=
  (sourceValue_causeFits (i := .call f) (.inr (.inr rfl))).bind fun _ _ => .ok _

/-- The identifier in a CALL's request is the value of its source operand (R280). -/
theorem sourceValue_of_callRequest {f : Fields} {s : State} {req : NativeRequest} (h : callRequest f s = .ok req) :
    sourceValue f s = .ok req.routine := by
  obtain ⟨v, hv, h⟩ := bind_ok h
  rw [hv, ← Except.ok.inj h]

/-- The state `t` is `s` with the fault `r` taken, where INVALID_CALL may also end the native call (R306, R320). -/
def FaultedFrom (s t : State) (r : Raised) : Prop :=
  t = s.takeFault r ∨ (r.cause = .invalidCall ∧
    ∃ rest, t = ({ s with pending := none, hostAnswers := rest } : State).takeFault r)

/-- Every instruction that ends in FAULTED takes a fault that fits it. -/
theorem exec_fault_cases {i : Instr} {s t : State} (hrun : s.runState = .running) (h : exec i s = .next t)
    (hf : t.runState = .faulted) : ∃ r, CauseFits i s r ∧ FaultedFrom s t r := by
  by_cases hc : i.opcode = .call
  · obtain ⟨f, rfl⟩ : ∃ f, i = .call f := ⟨_, eq_make_of_opcode hc⟩
    rcases execCall_cases h with ⟨r, hr, ht⟩ | ⟨req, hreq, ⟨rest, hans, ht⟩ | ⟨r, cs, rest, -, -, rfl⟩⟩
    · exact ⟨r, callRequest_causeFits f s r hr, .inl ht⟩
    · have hfits : CauseFits (.call f) s ⟨.invalidCall, req.routine⟩ :=
        ⟨rfl, sourceValue_of_callRequest hreq, by simp [hans]⟩
      exact ⟨_, hfits, .inr ⟨rfl, rest, ht⟩⟩
    · simp [hrun] at hf
  · obtain ⟨r, hr, ht⟩ := exec_fault_fits hc hrun h hf
    exact ⟨r, hr, .inl ht⟩

/-- Everything a step into FAULTED can be: the fetch of an illegal word, or a fault of the word's instruction. -/
theorem step_fault_cases {s t : State} (h : step s = .next t) (hf : t.runState = .faulted) :
    ∃ w r, s.prog[s.pc.toNat]? = some w ∧ FaultedFrom s t r ∧
      ((IllegalPlain (w ^^^ s.obfMask) ∧ r = ⟨.illegalInstruction, w ^^^ s.obfMask⟩) ∨
       ∃ i, decode s.obfMask w = .ok i ∧ CauseFits i s r) := by
  obtain ⟨hrst, hrun, ⟨-, rfl⟩ | ⟨w, why, hw, hdec, rfl⟩ | ⟨w, i, hw, hdec, hexec⟩⟩ := step_cases h
  · cases hf
  · have hillegal := (illegalWordExactly s w hrst hrun hw).1.1 (step_of_decode_error hrst hrun hw hdec)
    exact ⟨w, _, hw, .inl rfl, .inl ⟨hillegal, rfl⟩⟩
  · obtain ⟨r, hr, ht⟩ := exec_fault_cases hrun hexec hf
    exact ⟨w, r, hw, ht, .inr ⟨i, hdec, hr⟩⟩

/-- Either way of faulting records the fault in its two fields. -/
theorem FaultedFrom.record {s t : State} {r : Raised} (h : FaultedFrom s t r) :
    t.faultCause = r.cause ∧ t.faultInfo = r.info := by
  obtain rfl | ⟨-, rest, rfl⟩ := h <;> exact ⟨rfl, rfl⟩

/-- Settles O41: `step_fault_cases`; the codes are read off. -/
theorem faultTable : Obligations.FaultTable := by
  refine ⟨fun s t h hf => ?_, rfl, rfl, rfl, rfl, rfl, rfl, rfl, rfl, rfl⟩
  obtain ⟨w, r, hw, ht, hr⟩ := step_fault_cases h hf
  obtain ⟨hcause, hinfo⟩ := ht.record
  rw [hcause, hinfo]
  refine ⟨w, hw, hr.imp_left ?_⟩
  rintro ⟨hillegal, rfl⟩
  exact ⟨rfl, hillegal, rfl⟩

/-- No row of R300 is the cause of a state without a fault. -/
theorem CauseFits.cause_ne_none {i : Instr} {s : State} {r : Raised} (h : CauseFits i s r) : r.cause ≠ .none := by
  intro hnone
  rwa [CauseFits, hnone] at h

/-- Everything but the fault record and the native-call port keeps its value (R306). -/
theorem FaultedFrom.eq_record {s t : State} {r : Raised} (h : FaultedFrom s t r) :
    t = { s with runState := .faulted, faultCause := r.cause, faultPc := s.pc, faultInfo := r.info,
                 pending := t.pending, hostAnswers := t.hostAnswers } := by
  obtain rfl | ⟨-, rest, rfl⟩ := h <;> rfl

/-- Settles O42: the fault taken is the record's, and FAULTED has no step. -/
theorem faultsArePrecise : Obligations.FaultsArePrecise := by
  intro s t h hf
  obtain ⟨w, r, -, ht, hr⟩ := step_fault_cases h hf
  refine ⟨r.cause, r.info, ?_, ht.eq_record, fun hcall => ?_, ?_⟩
  · rcases hr with ⟨-, rfl⟩ | ⟨i, -, hfits⟩
    · exact nofun
    · exact hfits.cause_ne_none
  · obtain rfl := ht.resolve_right fun hc => hcall hc.1
    exact h
  · have hrst : t.rst = false := (step_frame h).rst.trans (step_cases h).1
    simp [step, fetch, hrst, hf]

end Sys2Proof.Machine

namespace Sys2Proof.Machine

/-! ## Reset, boot and the entry point (R340 to R342, R350) -/

/-- While `rst` is asserted the core takes no step (R340). -/
theorem step_of_rst {s : State} (hrst : s.rst = true) : step s = .fault .heldInReset := by
  simp [step, fetch, hrst]

/-- While `rst` is asserted no CALL is fetched, so none presents a request (R340). -/
theorem presentRequest_of_rst {s : State} (hrst : s.rst = true) : s.presentRequest = none := by
  refine Option.eq_none_iff_forall_ne_some.2 fun t ht => ?_
  obtain ⟨f, req, hfetch, -⟩ := presentRequest_iff.1 ht
  obtain ⟨hreleased, -⟩ := fetch_instr_cases hfetch
  exact Bool.noConfusion (hrst.symm.trans hreleased)

/-- Without a pending native call there is nothing to answer (R318). -/
theorem answerCall_of_pending_none {s : State} (hpend : s.pending = none) (a : HostAnswer) : s.answerCall a = none := by
  simp [State.answerCall, hpend]

/-- Settles O52: `rst` bars the step and the request, and the call that is no longer pending bars the answer. -/
theorem resetInAnyState : Obligations.ResetInAnyState := fun _ stack hp =>
  ⟨step_of_rst rfl, rfl, rfl, fun _ => byteAt_assertReset_external hp stack, rfl, presentRequest_of_rst rfl,
    answerCall_of_pending_none rfl, answerCall_of_pending_none rfl⟩

/-- An address that memory does not list reads as an unlisted byte (notes/assumptions/1). -/
theorem Memory.read_of_unlisted {m : Memory} {a : Nat} (h : ∀ c ∈ m, c.1 ≠ a) :
    Memory.read m a = Config.unlistedByte := by
  induction m with
  | nil => rfl
  | cons c m ih =>
    obtain ⟨hc, hm⟩ := List.forall_mem_cons.1 h
    rw [Memory.read, if_neg hc.symm, ih hm]

/-- Bytes written at consecutive addresses read back, and the addresses past them read as before. -/
theorem Memory.read_writeCells_zipIdx (bs : List Byte) (m : Memory) (base n k : Nat) :
    Memory.read (Memory.writeCells m ((bs.zipIdx n).map fun c => (base + c.2, c.1))) (base + n + k) =
      bs.getD k (Memory.read m (base + n + k)) := by
  induction bs generalizing m n k with
  | nil => rfl
  | cons b bs ih =>
    change Memory.read (Memory.writeCells (Memory.write m (base + n) b)
      ((bs.zipIdx (n + 1)).map fun c => (base + c.2, c.1))) (base + n + k) = _
    cases k with
    | zero =>
      have later : ∀ c ∈ (bs.zipIdx (n + 1)).map fun c => (base + c.2, c.1), c.1 ≠ base + n :=
        List.forall_mem_map.2 fun d hd =>
          have hle := List.le_snd_of_mem_zipIdx hd
          by dsimp only; omega
      simp [Memory.read_writeCells_ne _ _ later]
    | succ k =>
      have hne : base + n + (k + 1) ≠ base + n := by omega
      have hshift : base + n + (k + 1) = base + (n + 1) + k := by omega
      rw [List.getD_cons_succ, ← Memory.read_write_ne m b hne, hshift]
      exact ih _ _ _

/-- Asserting `rst` leaves the launch image in the stack buffer, and 0 past the image's end (notes/assumptions/11). -/
theorem read_assertReset_stack (s : State) (stack : List Byte) {k : Nat} (hk : k < s.params.stackSize) :
    Memory.read (s.assertReset stack).mem (s.params.stackBase + k) = stack.getD k 0 := by
  have hcleared : Memory.read (s.mem.filter fun c => !s.inStack c.1) (s.params.stackBase + k) = 0 := by
    refine Memory.read_of_unlisted fun c hc he => ?_
    have hout := (List.mem_filter.1 hc).2
    simp [he, State.inStack, Params.stackEnd, hk] at hout
  have hread := Memory.read_writeCells_zipIdx (stack.take s.params.stackSize)
    (s.mem.filter fun c => !s.inStack c.1) s.params.stackBase 0 k
  rw [Nat.add_zero, hcleared] at hread
  rw [State.assertReset_mem, stackCells, hread, List.getD_eq_getElem?_getD, List.getElem?_take_of_lt hk,
    List.getD_eq_getElem?_getD]

/-- A byte of the stack buffer is memory's (R61, R63). -/
theorem byteAt_stack {s : State} (hs : s.Built) {k : Nat} (hk : k < s.params.stackSize) :
    s.byteAt (s.params.stackBase + k) = Memory.read s.mem (s.params.stackBase + k) := by
  simp only [State.Built, Params.Legal, Params.stackEnd] at hs
  have hr : s.inRegisters (s.params.stackBase + k) = false := by
    simp only [State.inRegisters, Bool.and_eq_false_iff, decide_eq_false_iff_not]
    omega
  have hp : s.inProgram (s.params.stackBase + k) = false := by
    simp only [State.inProgram, Bool.and_eq_false_iff, decide_eq_false_iff_not]
    omega
  simp [State.byteAt, hr, hp]

/-- A byte the host may write lies past the stack buffer in a legal build (R43, R61). -/
theorem ne_stack_of_hostMayWrite {s : State} (hp : s.params.Legal) {b k : Nat} (hb : s.hostMayWrite b = true)
    (hk : k < s.params.stackSize) : b ≠ s.params.stackBase + k := by
  have hext := extBase_le_of_hostMayWrite hb
  simp only [Params.Legal, Params.stackEnd] at hp
  omega

/-- A boot that succeeds is reset asserted, a program load, an external load and the release, in this order (R350). -/
theorem boot_cases {s t : State} {stack : List Byte} {slots : List Word} {external : List Host.Cell}
    (h : s.boot stack slots external = some t) :
    ∃ u v, (s.assertReset stack).loadProgram slots = some u ∧ u.loadExternal external = some v ∧
      t = v.releaseReset := by
  obtain ⟨u, hu, h⟩ := Option.bind_eq_some_iff.1 h
  obtain ⟨v, hv, h⟩ := Option.bind_eq_some_iff.1 h
  exact ⟨u, v, hu, hv, (Option.some.inj h).symm⟩

/-- Settles O54: each move of the boot keeps the invariant; the loads leave `pc` and `run_state` as reset set them, and
no external byte lies in the stack. -/
theorem bootStartsProgram : Obligations.BootStartsProgram := by
  intro s t stack slots external h hboot
  obtain ⟨u, v, hu, hv, rfl⟩ := boot_cases hboot
  have hinv : v.releaseReset.Inv := (((h.assertReset stack).loadProgram hu).loadExternal hv).releaseReset
  obtain ⟨-, -, rfl⟩ := loadProgram_cases hu
  obtain ⟨hcells, rfl⟩ := loadExternal_cases hv
  refine ⟨hinv, rfl, rfl, rfl, rfl, List.head?_eq_getElem?.symm, fun k hk => ?_⟩
  calc _ = Memory.read (Memory.writeCells (s.assertReset stack).mem external) (s.params.stackBase + k) :=
        byteAt_stack hinv.built hk
    _ = Memory.read (s.assertReset stack).mem (s.params.stackBase + k) :=
        Memory.read_writeCells_ne _ _ fun c hc => ne_stack_of_hostMayWrite hinv.built.1 (hcells c hc) hk
    _ = stack.getD k 0 := read_assertReset_stack s stack hk

/-- Settles O53: the released core is RUNNING with `pc` at slot 0, where its step halts or runs the slot's word. -/
theorem entryPoint : Obligations.EntryPoint := by
  rintro s r stack - rfl
  refine ⟨rfl, rfl, rfl, resetRegs_sp s.params, fun hempty => ?_, fun w i hw hd => ?_⟩
  · exact step_of_progLen_le rfl rfl (Nat.le_of_eq hempty)
  · exact step_of_decode_ok rfl rfl hw hd

end Sys2Proof.Machine
